-- ==== Sys2Proof/Word.lean ====
section
/-! DEFINITION. Word.lean: values. A W-bit value is a natural number below `2 ^ W`, always unsigned
(00_scope.md R15); widths differ per instance and have no upper bound (R9, D30), so a value is a plain natural
number and its width is checked where an operand is presented. -/

namespace Sys2Proof

/-- An unsigned value (00_scope.md R15). -/
abbrev Word := Nat

/-- `v` is a value of width `w`: `0 <= v < 2 ^ w` (00_scope.md R15). -/
def fitsIn (w : Nat) (v : Word) : Bool := decide (v < 2 ^ w)

end Sys2Proof
end

