-- ==== Sys2Proof/Config.lean ====
section
/-! DEFINITION. Config.lean: what is fixed when an element is made: the construction parameters of
00_scope.md R9 with their defaults, and the enumerations they use. The spec leaves no value open
(92_eei_decisions.md), so there is no free value here. -/

namespace Sys2Proof

/-- Direction of a ShiftRegister, parameter `DIR` (00_scope.md R9). -/
inductive Dir where
  | right
  | left
deriving DecidableEq, Repr

/-- Fill policy of a ShiftRegister, parameter `FILL` (00_scope.md R9; D7 splits `WrapAround`). -/
inductive Fill where
  | zero
  | serial
  | ring
  | johnson
deriving DecidableEq, Repr

/-- Direction of a Counter tick, and the parameter `DEFAULT_DIR` (00_scope.md R9). -/
inductive CountDir where
  | up
  | down
deriving DecidableEq, Repr

/-- Parameter `STYLE` of a Counter (00_scope.md R9, 45_counter.md R220, R221). -/
inductive Style where
  | synchronous
  | ripple
deriving DecidableEq, Repr

/-- What `sample` reports (30_encoding.md R91). -/
inductive EdgeKind where
  | none
  | rising
  | falling
deriving DecidableEq, Repr

/-- The closed error taxonomy (60_exceptions.md R260). -/
inductive ErrorKind where
  | invalidState
  | indexOutOfBounds
  | invalidConfiguration
deriving DecidableEq, Repr

/-- Parameters of a ShiftRegister (00_scope.md R9). -/
structure ShiftParams where
  width : Nat
  dir : Dir
  fill : Fill
  init : Word
deriving DecidableEq, Repr

/-- Parameters of a Counter (00_scope.md R9); `modulus = none` is `MOD` absent. -/
structure CounterParams where
  width : Nat
  modulus : Option Nat
  defaultDir : CountDir
  style : Style
deriving DecidableEq, Repr

/-- Parameters of a RegisterFile (00_scope.md R9); `zeroIndex = none` is `ZIDX` absent. -/
structure FileParams where
  slots : Nat
  zeroIndex : Option Nat
  wordWidth : Nat
  readPorts : Nat
deriving DecidableEq, Repr

/-- Default of `INIT` (00_scope.md R9). -/
def Config.defaultInit : Word := 0

/-- Default of `DEFAULT_DIR` (00_scope.md R9, D9). -/
def Config.defaultDir : CountDir := .up

/-- Default of `STYLE` (00_scope.md R9). -/
def Config.defaultStyle : Style := .synchronous

/-- Default of `WORD_W` (00_scope.md R9, D11). -/
def Config.defaultWordWidth : Nat := 64

/-- Default of `NREAD` (00_scope.md R9, D11). -/
def Config.defaultReadPorts : Nat := 2

/-- Reset value of a flip-flop's `value`, a latch's `q` and a Register's cells (10_state.md R41, the spec's
decision D5). DEDUCED, unsafe, log 17: the source document gives no value. -/
def Config.resetBit : Bool := false

end Sys2Proof
end

