-- ==== Sys2Proof/Syntax.lean ====
section
/-! DEFINITION. Syntax.lean: the operations. One constructor per row of spec/opcode_table.json; every
operation names the instance it acts on (10_state.md R53), then its operands in the source's order
(30_encoding.md R100 to R102). Inspections take no clock sample (20_memory.md R68). -/

namespace Sys2Proof

/-- The name an instance is bound to (30_encoding.md R100). DESIGN CHOICE, safe, log 4: a name is a number. -/
abbrev Inst := Nat

/-- The operations of the library (30_encoding.md R95). -/
inductive Instr where
  -- ClockLine (40_clockline.md)
  | clNew (x : Inst)
  | clSample (x : Inst) (newValue : Bool)
  | clRead (x : Inst)
  -- SR latch, the four input pairs of `step(s, r)` (41_latch.md)
  | srlNew (x : Inst)
  | srlHold (x : Inst)
  | srlReset (x : Inst)
  | srlSet (x : Inst)
  | srlInvalid (x : Inst)
  | srlRead (x : Inst)
  -- D latch, the two levels of `enable` in `step(d, enable)` (41_latch.md)
  | dlNew (x : Inst)
  | dlHold (x : Inst) (d : Bool)
  | dlPass (x : Inst) (d : Bool)
  | dlRead (x : Inst)
  -- D flip-flop (42_bitcell.md)
  | dffNew (x : Inst)
  | dffStep (x : Inst) (data clk : Bool)
  | dffRead (x : Inst)
  -- JK flip-flop, the four pairs of `step(j, k, clock_sample)` (42_bitcell.md)
  | jkffNew (x : Inst)
  | jkffHold (x : Inst) (clk : Bool)
  | jkffReset (x : Inst) (clk : Bool)
  | jkffSet (x : Inst) (clk : Bool)
  | jkffToggle (x : Inst) (clk : Bool)
  | jkffRead (x : Inst)
  -- T flip-flop, the two levels of `t` (42_bitcell.md)
  | tffNew (x : Inst)
  | tffHold (x : Inst) (clk : Bool)
  | tffToggle (x : Inst) (clk : Bool)
  | tffRead (x : Inst)
  -- Register (43_register.md)
  | regNew (x : Inst) (width : Nat)
  | regHold (x : Inst) (value : Word) (clk : Bool)
  | regLoad (x : Inst) (value : Word) (clk : Bool)
  | regRead (x : Inst)
  -- ShiftRegister (44_shift_register.md): the whole `shift`, its eight forms, the inherited `load`
  | shrNew (x : Inst) (width : Nat) (dir : Dir) (fill : Fill) (init : Option Word)
  | shrShift (x : Inst) (serialIn : Option Bool) (clk : Bool)
  | shrShiftRZero (x : Inst) (serialIn : Option Bool) (clk : Bool)
  | shrShiftRSerial (x : Inst) (serialIn : Option Bool) (clk : Bool)
  | shrShiftRRing (x : Inst) (serialIn : Option Bool) (clk : Bool)
  | shrShiftRJohnson (x : Inst) (serialIn : Option Bool) (clk : Bool)
  | shrShiftLZero (x : Inst) (serialIn : Option Bool) (clk : Bool)
  | shrShiftLSerial (x : Inst) (serialIn : Option Bool) (clk : Bool)
  | shrShiftLRing (x : Inst) (serialIn : Option Bool) (clk : Bool)
  | shrShiftLJohnson (x : Inst) (serialIn : Option Bool) (clk : Bool)
  | shrLhold (x : Inst) (value : Word) (clk : Bool)
  | shrLoad (x : Inst) (value : Word) (clk : Bool)
  | shrRead (x : Inst)
  | shrSout (x : Inst)
  -- Counter, the three values of `direction` in `tick` (45_counter.md)
  | cntNew (x : Inst) (width : Nat) (modulus : Option Nat) (defaultDir : Option CountDir) (style : Option Style)
  | cntTick (x : Inst) (clk : Bool)
  | cntTickup (x : Inst) (clk : Bool)
  | cntTickdn (x : Inst) (clk : Bool)
  | cntRead (x : Inst)
  -- RegisterFile, the two levels of `enable` in `write` (46_register_file.md)
  | rfNew (x : Inst) (slots : Nat) (zeroIndex : Option Nat) (wordWidth readPorts : Option Nat)
  | rfWhold (x : Inst) (index : Nat) (value : Word) (clk : Bool)
  | rfWrite (x : Inst) (index : Nat) (value : Word) (clk : Bool)
  | rfRead (x : Inst) (index : Nat)
deriving DecidableEq, Repr

/-- The stimulus-vector formats, with the parameters their widths depend on (30_encoding.md R80 to R89). -/
inductive Format where
  | cl
  | srl
  | dl
  | dff
  | jkff
  | tff
  | reg (width : Nat)
  | shr (width : Nat) (dir : Dir) (fill : Fill)
  | cnt
  | rfw (addrWidth wordWidth : Nat)
  | rfr (addrWidth : Nat)
deriving DecidableEq, Repr

/-- A vector input of an instance: the element's input ports, or read port `k` of a RegisterFile
(30_encoding.md R82 to R89). -/
inductive Port where
  | inputs
  | read (k : Nat)
deriving DecidableEq, Repr

/-- One call of the driver: an operation on typed operands (the only spelling of constructions and of the
inspections without a vector), or a stimulus vector presented on a port of an instance (30_encoding.md R80, R104). -/
inductive Call where
  | op (i : Instr)
  | vector (x : Inst) (p : Port) (v : Nat)
deriving DecidableEq, Repr

/-- A line of a program (30_encoding.md R102 to R104): a call; a pseudo-operation over a clocked mutation, whose
own clock operand is disregarded; `peek`, the second name of `read`; a repeated line. -/
inductive Line where
  | call (c : Call)
  | pulse (i : Instr)
  | low (i : Instr)
  | high (i : Instr)
  | peek (i : Instr)
  | repeated (n : Nat) (l : Line)
deriving DecidableEq, Repr

/-- The instance an operation acts on (10_state.md R53). -/
def Instr.inst : Instr → Inst
  | .clNew x | .clSample x _ | .clRead x => x
  | .srlNew x | .srlHold x | .srlReset x | .srlSet x | .srlInvalid x | .srlRead x => x
  | .dlNew x | .dlHold x _ | .dlPass x _ | .dlRead x => x
  | .dffNew x | .dffStep x _ _ | .dffRead x => x
  | .jkffNew x | .jkffHold x _ | .jkffReset x _ | .jkffSet x _ | .jkffToggle x _ | .jkffRead x => x
  | .tffNew x | .tffHold x _ | .tffToggle x _ | .tffRead x => x
  | .regNew x _ | .regHold x _ _ | .regLoad x _ _ | .regRead x => x
  | .shrNew x _ _ _ _ | .shrShift x _ _ => x
  | .shrShiftRZero x _ _ | .shrShiftRSerial x _ _ | .shrShiftRRing x _ _ | .shrShiftRJohnson x _ _ => x
  | .shrShiftLZero x _ _ | .shrShiftLSerial x _ _ | .shrShiftLRing x _ _ | .shrShiftLJohnson x _ _ => x
  | .shrLhold x _ _ | .shrLoad x _ _ | .shrRead x | .shrSout x => x
  | .cntNew x _ _ _ _ | .cntTick x _ | .cntTickup x _ | .cntTickdn x _ | .cntRead x => x
  | .rfNew x _ _ _ _ | .rfWhold x _ _ _ | .rfWrite x _ _ _ | .rfRead x _ => x

end Sys2Proof
end

