-- ==== Sys2Proof/WellFormed.lean ====
section
/-! DEFINITION. WellFormed.lean: which operations a stimulus vector of a format can carry. An operand that does not
fit its field cannot be written down (30_encoding.md R88, D33); a construction and an inspection other than `RF.READ`
has no vector (R95, R104). The legality of a parameter tuple is no matter of form: an illegal tuple is a call that
ends in `InvalidConfiguration` (Machine/Operands.lean). -/

namespace Sys2Proof

/-- `value` fits the data field of a REG vector (30_encoding.md R85). -/
def Format.regFits (f : Format) (value : Word) : Bool :=
  match f with
  | .reg w => fitsIn w value
  | _ => false

/-- `value` fits the data field of an SHR vector (30_encoding.md R86). -/
def Format.shrFits (f : Format) (value : Word) : Bool :=
  match f with
  | .shr w _ _ => fitsIn w value
  | _ => false

/-- The SHR format performs the shift form (`dir`, `fill`), and `serialIn` is a level the port `sin` can be read
as: `None` is legal only when the policy is not `Serial` (30_encoding.md R88, R95). -/
def Format.shiftFits (f : Format) (dir : Dir) (fill : Fill) (serialIn : Option Bool) : Bool :=
  match f with
  | .shr _ d p => decide (d = dir) && decide (p = fill) && (decide (fill ≠ .serial) || serialIn.isSome)
  | _ => false

/-- The whole `shift` on an SHR format, whatever its form (30_encoding.md R86, R88). -/
def Format.anyShiftFits (f : Format) (serialIn : Option Bool) : Bool :=
  match f with
  | .shr _ _ p => decide (p ≠ .serial) || serialIn.isSome
  | _ => false

/-- `index` and `value` fit the fields of an RFW vector (30_encoding.md R89). -/
def Format.rfwFits (f : Format) (index : Nat) (value : Word) : Bool :=
  match f with
  | .rfw a w => fitsIn a index && fitsIn w value
  | _ => false

/-- `index` fits an RFR vector (30_encoding.md R89). -/
def Format.rfrFits (f : Format) (index : Nat) : Bool :=
  match f with
  | .rfr a => fitsIn a index
  | _ => false

/-- `i` can be presented as a stimulus vector of format `f` (30_encoding.md R82 to R89, R95). -/
def wellFormed (f : Format) (i : Instr) : Bool :=
  match i with
  | .clNew _ | .clRead _ | .srlNew _ | .srlRead _ | .dlNew _ | .dlRead _ => false
  | .dffNew _ | .dffRead _ | .jkffNew _ | .jkffRead _ | .tffNew _ | .tffRead _ => false
  | .regNew _ _ | .regRead _ | .shrNew _ _ _ _ _ | .shrRead _ | .shrSout _ => false
  | .cntNew _ _ _ _ _ | .cntRead _ | .rfNew _ _ _ _ _ => false
  | .clSample _ _ => decide (f = .cl)
  | .srlHold _ | .srlReset _ | .srlSet _ | .srlInvalid _ => decide (f = .srl)
  | .dlHold _ _ | .dlPass _ _ => decide (f = .dl)
  | .dffStep _ _ _ => decide (f = .dff)
  | .jkffHold _ _ | .jkffReset _ _ | .jkffSet _ _ | .jkffToggle _ _ => decide (f = .jkff)
  | .tffHold _ _ | .tffToggle _ _ => decide (f = .tff)
  | .regHold _ v _ | .regLoad _ v _ => f.regFits v
  | .shrShift _ b _ => f.anyShiftFits b
  | .shrShiftRZero _ b _ => f.shiftFits .right .zero b
  | .shrShiftRSerial _ b _ => f.shiftFits .right .serial b
  | .shrShiftRRing _ b _ => f.shiftFits .right .ring b
  | .shrShiftRJohnson _ b _ => f.shiftFits .right .johnson b
  | .shrShiftLZero _ b _ => f.shiftFits .left .zero b
  | .shrShiftLSerial _ b _ => f.shiftFits .left .serial b
  | .shrShiftLRing _ b _ => f.shiftFits .left .ring b
  | .shrShiftLJohnson _ b _ => f.shiftFits .left .johnson b
  | .shrLhold _ v _ | .shrLoad _ v _ => f.shrFits v
  | .cntTick _ _ | .cntTickup _ _ | .cntTickdn _ _ => decide (f = .cnt)
  | .rfWhold _ k v _ | .rfWrite _ k v _ => f.rfwFits k v
  | .rfRead _ k => f.rfrFits k

end Sys2Proof
end

