-- ==== Sys2Proof/Decode.lean ====
section
/-! DEFINITION. Decode.lean: the operation a stimulus vector performs, and the vector of an operation. A vector has
a meaning only on a port of an instance, which fixes its format (30_encoding.md R80, R99); within a format bit 0 is
the clock sample, control bits follow and data lie above (R81). Every vector of a format's width is an operation
(R96); a wider number is rejected by name. -/

namespace Sys2Proof

/-- Bit `i` of `v` (00_scope.md R15). -/
def bitAt (v i : Nat) : Bool := decide (v / 2 ^ i % 2 = 1)

/-- The `w` bits of `v` from bit `lo` upward, `v[lo+w-1 : lo]` (00_scope.md R15). -/
def fieldAt (v lo w : Nat) : Word := v / 2 ^ lo % 2 ^ w

/-- The width of a format's vectors (30_encoding.md R82 to R89). -/
def Format.width : Format → Nat
  | .cl => 1
  | .srl | .dl | .dff | .tff => 2
  | .jkff | .cnt => 3
  | .reg w => w + 2
  | .shr w _ _ => w + 4
  | .rfw a w => a + w + 2
  | .rfr a => a

/-- Why a number is not a stimulus vector. -/
inductive DecodeError where
  /-- it has a bit above the format's `width` (30_encoding.md R80, R88) -/
  | vectorTooWide (width : Nat)
deriving DecidableEq, Repr

/-- The shift form the parameters select (30_encoding.md R95, 44_shift_register.md R182 to R189). -/
def shiftForm (x : Inst) (dir : Dir) (fill : Fill) (serialIn : Option Bool) (clk : Bool) : Instr :=
  match dir, fill with
  | .right, .zero => .shrShiftRZero x serialIn clk
  | .right, .serial => .shrShiftRSerial x serialIn clk
  | .right, .ring => .shrShiftRRing x serialIn clk
  | .right, .johnson => .shrShiftRJohnson x serialIn clk
  | .left, .zero => .shrShiftLZero x serialIn clk
  | .left, .serial => .shrShiftLSerial x serialIn clk
  | .left, .ring => .shrShiftLRing x serialIn clk
  | .left, .johnson => .shrShiftLJohnson x serialIn clk

/-- The operation the in-range vector `v` of format `f` performs on instance `x`: the rows of 30_encoding.md R95,
the fields of R82 to R89. -/
def decodeFields (f : Format) (x : Inst) (v : Nat) : Instr :=
  match f with
  | .cl => .clSample x (bitAt v 0)
  | .srl =>
    match bitAt v 1, bitAt v 0 with
    | false, false => .srlHold x
    | false, true => .srlReset x
    | true, false => .srlSet x
    | true, true => .srlInvalid x
  | .dl => if bitAt v 0 then .dlPass x (bitAt v 1) else .dlHold x (bitAt v 1)
  | .dff => .dffStep x (bitAt v 1) (bitAt v 0)
  | .jkff =>
    match bitAt v 2, bitAt v 1 with
    | false, false => .jkffHold x (bitAt v 0)
    | false, true => .jkffReset x (bitAt v 0)
    | true, false => .jkffSet x (bitAt v 0)
    | true, true => .jkffToggle x (bitAt v 0)
  | .tff => if bitAt v 1 then .tffToggle x (bitAt v 0) else .tffHold x (bitAt v 0)
  | .reg w =>
    if bitAt v 1 then .regLoad x (fieldAt v 2 w) (bitAt v 0) else .regHold x (fieldAt v 2 w) (bitAt v 0)
  | .shr w dir fill =>
    match bitAt v 1, bitAt v 2 with
    | false, _ => shiftForm x dir fill (some (bitAt v 3)) (bitAt v 0)
    | true, false => .shrLhold x (fieldAt v 4 w) (bitAt v 0)
    | true, true => .shrLoad x (fieldAt v 4 w) (bitAt v 0)
  | .cnt =>
    match bitAt v 1, bitAt v 2 with
    | false, _ => .cntTick x (bitAt v 0)
    | true, false => .cntTickup x (bitAt v 0)
    | true, true => .cntTickdn x (bitAt v 0)
  | .rfw a w =>
    if bitAt v 1 then .rfWrite x (fieldAt v 2 a) (fieldAt v (a + 2) w) (bitAt v 0)
    else .rfWhold x (fieldAt v 2 a) (fieldAt v (a + 2) w) (bitAt v 0)
  | .rfr a => .rfRead x (fieldAt v 0 a)

/-- The operation of the vector `v` presented in format `f` on instance `x` (30_encoding.md R80, R95, R96). -/
def decode (f : Format) (x : Inst) (v : Nat) : Except DecodeError Instr :=
  if v < 2 ^ f.width then .ok (decodeFields f x v) else .error (.vectorTooWide f.width)

/-- The address width of a format's vectors (30_encoding.md R89); 0 where there is no address field. -/
def Format.addrWidth : Format → Nat
  | .rfw a _ | .rfr a => a
  | .cl | .srl | .dl | .dff | .jkff | .tff | .cnt | .reg _ | .shr _ _ _ => 0

/-- The three lowest bits of a vector, most significant first (30_encoding.md R81). -/
def packBits (b2 b1 b0 : Bool) : Nat := 4 * b2.toNat + 2 * b1.toNat + b0.toNat

/-- An SHR vector of a shift: `mode = 0`; `None` is written `sin = 0`, the ignored fields as 0 (30_encoding.md R86, R88). -/
def packShift (serialIn : Option Bool) (clk : Bool) : Nat := 8 * (serialIn.getD false).toNat + clk.toNat

/-- The stimulus vector of an operation; ignored fields are written 0 (30_encoding.md R86). -/
def packFields (f : Format) (i : Instr) : Nat :=
  match i with
  | .clNew _ | .clRead _ | .srlNew _ | .srlRead _ | .dlNew _ | .dlRead _ => 0
  | .dffNew _ | .dffRead _ | .jkffNew _ | .jkffRead _ | .tffNew _ | .tffRead _ => 0
  | .regNew _ _ | .regRead _ | .shrNew _ _ _ _ _ | .shrRead _ | .shrSout _ => 0
  | .cntNew _ _ _ _ _ | .cntRead _ | .rfNew _ _ _ _ _ => 0
  | .clSample _ c => packBits false false c
  | .srlHold _ => packBits false false false
  | .srlReset _ => packBits false false true
  | .srlSet _ => packBits false true false
  | .srlInvalid _ => packBits false true true
  | .dlHold _ d => packBits false d false
  | .dlPass _ d => packBits false d true
  | .dffStep _ d c => packBits false d c
  | .jkffHold _ c => packBits false false c
  | .jkffReset _ c => packBits false true c
  | .jkffSet _ c => packBits true false c
  | .jkffToggle _ c => packBits true true c
  | .tffHold _ c => packBits false false c
  | .tffToggle _ c => packBits false true c
  | .regHold _ v c => 4 * v + packBits false false c
  | .regLoad _ v c => 4 * v + packBits false true c
  | .shrShift _ b c => packShift b c
  | .shrShiftRZero _ b c => packShift b c
  | .shrShiftRSerial _ b c => packShift b c
  | .shrShiftRRing _ b c => packShift b c
  | .shrShiftRJohnson _ b c => packShift b c
  | .shrShiftLZero _ b c => packShift b c
  | .shrShiftLSerial _ b c => packShift b c
  | .shrShiftLRing _ b c => packShift b c
  | .shrShiftLJohnson _ b c => packShift b c
  | .shrLhold _ v c => 16 * v + packBits false true c
  | .shrLoad _ v c => 16 * v + packBits true true c
  | .cntTick _ c => packBits false false c
  | .cntTickup _ c => packBits false true c
  | .cntTickdn _ c => packBits true true c
  | .rfWhold _ k v c => 4 * (v * 2 ^ f.addrWidth + k) + packBits false false c
  | .rfWrite _ k v c => 4 * (v * 2 ^ f.addrWidth + k) + packBits false true c
  | .rfRead _ k => k

/-- The stimulus vector of `i` in format `f`; `none` where no vector carries it (30_encoding.md R88, R95, R104). -/
def encode (f : Format) (i : Instr) : Option Nat :=
  if wellFormed f i then some (packFields f i) else none

/-- The operation as the ports carry it: a `shift` is the form its format selects and `sin` always carries a level,
`None` being 0 (30_encoding.md R88, R95); every other operation is itself. -/
def Instr.onPorts (f : Format) (i : Instr) : Instr :=
  match i, f with
  | .shrShift x b c, .shr _ dir fill => shiftForm x dir fill (some (b.getD false)) c
  | .shrShiftRZero x b c, _ => .shrShiftRZero x (some (b.getD false)) c
  | .shrShiftRSerial x b c, _ => .shrShiftRSerial x (some (b.getD false)) c
  | .shrShiftRRing x b c, _ => .shrShiftRRing x (some (b.getD false)) c
  | .shrShiftRJohnson x b c, _ => .shrShiftRJohnson x (some (b.getD false)) c
  | .shrShiftLZero x b c, _ => .shrShiftLZero x (some (b.getD false)) c
  | .shrShiftLSerial x b c, _ => .shrShiftLSerial x (some (b.getD false)) c
  | .shrShiftLRing x b c, _ => .shrShiftLRing x (some (b.getD false)) c
  | .shrShiftLJohnson x b c, _ => .shrShiftLJohnson x (some (b.getD false)) c
  | i, _ => i

/-- The name of a format, as the operation map writes it (30_encoding.md R95). -/
def Format.name : Format → String
  | .cl => "CL"
  | .srl => "SRL"
  | .dl => "DL"
  | .dff => "DFF"
  | .jkff => "JKFF"
  | .tff => "TFF"
  | .reg _ => "REG"
  | .shr _ _ _ => "SHR"
  | .cnt => "CNT"
  | .rfw _ _ => "RFW"
  | .rfr _ => "RFR"

/-- A row of the operation map that has a vector: the operation is selected when `vector AND mask = pattern`. -/
structure OpRow where
  mnemonic : String
  format : String
  mask : Nat
  pattern : Nat
deriving DecidableEq, Repr

/-- The rows of the operation map (30_encoding.md R95) that are selected by a vector. -/
def opMap : List OpRow :=
  [⟨"CL.SAMPLE", "CL", 0x0, 0x0⟩,
   ⟨"SRL.HOLD", "SRL", 0x3, 0x0⟩, ⟨"SRL.RESET", "SRL", 0x3, 0x1⟩,
   ⟨"SRL.SET", "SRL", 0x3, 0x2⟩, ⟨"SRL.INVALID", "SRL", 0x3, 0x3⟩,
   ⟨"DL.HOLD", "DL", 0x1, 0x0⟩, ⟨"DL.PASS", "DL", 0x1, 0x1⟩,
   ⟨"DFF.STEP", "DFF", 0x0, 0x0⟩,
   ⟨"JKFF.HOLD", "JKFF", 0x6, 0x0⟩, ⟨"JKFF.RESET", "JKFF", 0x6, 0x2⟩,
   ⟨"JKFF.SET", "JKFF", 0x6, 0x4⟩, ⟨"JKFF.TOGGLE", "JKFF", 0x6, 0x6⟩,
   ⟨"TFF.HOLD", "TFF", 0x2, 0x0⟩, ⟨"TFF.TOGGLE", "TFF", 0x2, 0x2⟩,
   ⟨"REG.HOLD", "REG", 0x2, 0x0⟩, ⟨"REG.LOAD", "REG", 0x2, 0x2⟩,
   ⟨"SHR.SHIFT", "SHR", 0x2, 0x0⟩, ⟨"SHR.LHOLD", "SHR", 0x6, 0x2⟩, ⟨"SHR.LOAD", "SHR", 0x6, 0x6⟩,
   ⟨"CNT.TICK", "CNT", 0x2, 0x0⟩, ⟨"CNT.TICKUP", "CNT", 0x6, 0x2⟩, ⟨"CNT.TICKDN", "CNT", 0x6, 0x6⟩,
   ⟨"RF.WHOLD", "RFW", 0x2, 0x0⟩, ⟨"RF.WRITE", "RFW", 0x2, 0x2⟩,
   ⟨"RF.READ", "RFR", 0x0, 0x0⟩]

/-- The row selects the vector `v` (30_encoding.md R95). -/
def OpRow.selects (r : OpRow) (v : Nat) : Bool := decide (v &&& r.mask = r.pattern)

/-- The mnemonic of an operation in the operation map (30_encoding.md R95); the eight shift forms are the row
`SHR.SHIFT`. -/
def Instr.mapMnemonic : Instr → String
  | .clNew _ => "CL.NEW"
  | .clSample _ _ => "CL.SAMPLE"
  | .clRead _ => "CL.READ"
  | .srlNew _ => "SRL.NEW"
  | .srlHold _ => "SRL.HOLD"
  | .srlReset _ => "SRL.RESET"
  | .srlSet _ => "SRL.SET"
  | .srlInvalid _ => "SRL.INVALID"
  | .srlRead _ => "SRL.READ"
  | .dlNew _ => "DL.NEW"
  | .dlHold _ _ => "DL.HOLD"
  | .dlPass _ _ => "DL.PASS"
  | .dlRead _ => "DL.READ"
  | .dffNew _ => "DFF.NEW"
  | .dffStep _ _ _ => "DFF.STEP"
  | .dffRead _ => "DFF.READ"
  | .jkffNew _ => "JKFF.NEW"
  | .jkffHold _ _ => "JKFF.HOLD"
  | .jkffReset _ _ => "JKFF.RESET"
  | .jkffSet _ _ => "JKFF.SET"
  | .jkffToggle _ _ => "JKFF.TOGGLE"
  | .jkffRead _ => "JKFF.READ"
  | .tffNew _ => "TFF.NEW"
  | .tffHold _ _ => "TFF.HOLD"
  | .tffToggle _ _ => "TFF.TOGGLE"
  | .tffRead _ => "TFF.READ"
  | .regNew _ _ => "REG.NEW"
  | .regHold _ _ _ => "REG.HOLD"
  | .regLoad _ _ _ => "REG.LOAD"
  | .regRead _ => "REG.READ"
  | .shrNew _ _ _ _ _ => "SHR.NEW"
  | .shrShift _ _ _ => "SHR.SHIFT"
  | .shrShiftRZero _ _ _ | .shrShiftRSerial _ _ _ | .shrShiftRRing _ _ _ | .shrShiftRJohnson _ _ _ => "SHR.SHIFT"
  | .shrShiftLZero _ _ _ | .shrShiftLSerial _ _ _ | .shrShiftLRing _ _ _ | .shrShiftLJohnson _ _ _ => "SHR.SHIFT"
  | .shrLhold _ _ _ => "SHR.LHOLD"
  | .shrLoad _ _ _ => "SHR.LOAD"
  | .shrRead _ => "SHR.READ"
  | .shrSout _ => "SHR.SOUT"
  | .cntNew _ _ _ _ _ => "CNT.NEW"
  | .cntTick _ _ => "CNT.TICK"
  | .cntTickup _ _ => "CNT.TICKUP"
  | .cntTickdn _ _ => "CNT.TICKDN"
  | .cntRead _ => "CNT.READ"
  | .rfNew _ _ _ _ _ => "RF.NEW"
  | .rfWhold _ _ _ _ => "RF.WHOLD"
  | .rfWrite _ _ _ _ => "RF.WRITE"
  | .rfRead _ _ => "RF.READ"

/-- The format a word of the opcode table is read in. The table gives a word no instance, so no format
(30_encoding.md R80, R99). DESIGN CHOICE, safe, log 11: the narrowest of SRL, JKFF and REG that holds it. -/
def tableFormat (w : Nat) : Format :=
  if w < 4 then .srl else if w < 8 then .jkff else .reg (Nat.log2 w - 1)

/-- The instance a word of the opcode table is presented on. DESIGN CHOICE, safe, log 11. -/
def tableInst : Inst := 0

/-- The operation the decoder reads from a word of the opcode table (log 11). -/
def decodeTableWord (nbits w : Nat) : Option Instr :=
  if w < 2 ^ nbits then (decode (tableFormat w) tableInst w).toOption else none

end Sys2Proof
end

