-- ==== Sys2Proof/Machine/State.lean ====
section
/-! DEFINITION. State.lean: everything the spec gives the machine. The state of SEQ-CORE is the disjoint union of the
states of the constructed instances (10_state.md R20); beside it stand three fields of the MODEL (log 1 to 3): the
driver's remaining calls, the result of the latest call, and the level of the error ports. -/

namespace Sys2Proof.Machine

/-- A finite table keyed by numbers, in ONE canonical form: keys strictly rising (`Table.wf` in Machine/Ops.lean). -/
abbrev Table (α : Type) := List (Nat × α)

/-- The slots of a RegisterFile: (index, word) pairs, indexes strictly rising, no zero word listed. An unlisted
index reads 0, the content the spec gives a new file (10_state.md R41). Words are numbers, not bytes
(20_memory.md R64; log 12). -/
abbrev Memory := Table Word

/-- A ClockLine (10_state.md R21). -/
structure ClockLine where
  current : Bool
  previous : Bool
deriving DecidableEq, Repr

/-- The state of a D, JK or T flip-flop (10_state.md R23). -/
structure FlipFlop where
  value : Bool
  clkLine : ClockLine
deriving DecidableEq, Repr

/-- The state of a Register or ShiftRegister: its cells, bit 0 first, and its one ClockLine (10_state.md R25 to R27). -/
structure CellBank where
  cells : List Bool
  clkLine : ClockLine
deriving DecidableEq, Repr

/-- The state of a Counter: the pair of 10_state.md R28, or the stage chain of R29 for a ripple Counter with `MOD`
absent (log 13). `stageLines` holds `stage_line[0]`, the external clock's, first. -/
inductive CounterState where
  | paired (count : Nat) (clkLine : ClockLine)
  | chained (cells : List Bool) (stageLines : List ClockLine)
deriving DecidableEq, Repr

/-- The state of a RegisterFile (10_state.md R30, 46_register_file.md R241). -/
structure FileState where
  slots : Memory
  clkLine : ClockLine
deriving DecidableEq, Repr

/-- An element instance: its kind, its construction parameters (fixed, 00_scope.md R9) and its state. -/
inductive Element where
  | clockLine (l : ClockLine)
  | srLatch (q : Bool)
  | dLatch (q : Bool)
  | dff (f : FlipFlop)
  | jkff (f : FlipFlop)
  | tff (f : FlipFlop)
  | register (width : Nat) (b : CellBank)
  | shiftRegister (p : ShiftParams) (b : CellBank)
  | counter (p : CounterParams) (c : CounterState)
  | registerFile (p : FileParams) (f : FileState)
deriving DecidableEq, Repr

/-- The result of a call, as the driver receives it (60_exceptions.md R260; 10_state.md R31). MODEL's type, log 2. -/
inductive Reply where
  /-- no call has been made -/
  | idle
  /-- `Ok`, no return value -/
  | ok
  /-- `Ok`, the `EdgeKind` returned by `sample` -/
  | edge (e : EdgeKind)
  /-- `Ok`, a boolean read -/
  | bit (b : Bool)
  /-- `Ok`, a number read -/
  | word (v : Word)
  /-- `Ok`, the pair (`current`, `previous`) read from a ClockLine -/
  | lines (current previous : Bool)
  /-- one of the three errors -/
  | error (k : ErrorKind)
deriving DecidableEq, Repr

/-- The machine. -/
structure State where
  /-- the constructed instances, by name (10_state.md R20) -/
  elems : Table Element
  /-- MODEL's field (log 2): the result of the latest call -/
  reply : Reply
  /-- MODEL's field (log 3): the error of an instance's latest mutating call; an instance not listed reads `Ok` -/
  errs : Table ErrorKind
  /-- MODEL's field (log 1): the calls the driver has still to make, the next one first -/
  calls : List Call
deriving DecidableEq, Repr

/-- The machine right after reset: no instance exists, no call has been made (10_state.md R40). -/
def State.reset : State := { elems := [], reply := .idle, errs := [], calls := [] }

/-- Why the machine stops. The spec's own errors stop nothing: they are the result of a call
(60_exceptions.md R265, R266). -/
inductive Fault where
  /-- Raised by every operation but a construction on a name that denotes no instance: none was constructed, or its
  construction ended in `InvalidConfiguration` (60_exceptions.md R263: no instance exists). Safe, log 6. -/
  | noInstance (x : Inst)
deriving DecidableEq, Repr

/-- Calls that the spec's typed operations cannot express, so that no rule gives them a meaning. -/
inductive Refusal where
  /-- An instruction without a meaning yet: raised by an arm of `exec` only. Safe. -/
  | notModelled (mnemonic : String)
  /-- Raised by an operation on an instance of another element kind (10_state.md R53). Safe, log 7. -/
  | wrongKind (x : Inst)
  /-- Raised by `load` and `write` with a value of more than the field's bits: it cannot be presented, the model
  refuses it at its interface (30_encoding.md R88, D33). Safe, log 8. -/
  | operandTooWide (x : Inst)
  /-- Raised by a shift form on an instance whose `DIR` and `FILL` select another form (30_encoding.md R95). Safe, log 9. -/
  | otherForm (x : Inst)
  /-- Raised by the step on a vector with a bit above its format's width (30_encoding.md R80). Safe, log 8. -/
  | vectorTooWide (x : Inst)
  /-- Raised by the step on a vector presented on a port the instance does not have (30_encoding.md R89). Safe, log 15. -/
  | noPort (x : Inst)
deriving DecidableEq, Repr

/-- What a call or a step answers. -/
abbrev Result := Host.Outcome State Fault Refusal

end Sys2Proof.Machine
end

