-- ==== Sys2Proof/Machine/Ops.lean ====
section
/-! DEFINITION. Ops.lean: the named operations over the state. Tables and slots; finding an instance; the four ways a
call ends (a mutation that is done, one that raises an error, an inspection, a construction); `sample`; values and
cells. -/

namespace Sys2Proof.Machine

/-! ### Tables in canonical form -/

/-- The entry of key `k`. -/
def Table.find {α : Type} (t : Table α) (k : Nat) : Option α :=
  match t with
  | [] => none
  | (j, a) :: r => if j = k then some a else Table.find r k

/-- `t` with the entry of key `k` made `a`, keys kept rising. -/
def Table.set {α : Type} (t : Table α) (k : Nat) (a : α) : Table α :=
  match t with
  | [] => [(k, a)]
  | (j, b) :: r => if k < j then (k, a) :: (j, b) :: r else if k = j then (k, a) :: r else (j, b) :: Table.set r k a

/-- `t` without the entry of key `k`. -/
def Table.erase {α : Type} (t : Table α) (k : Nat) : Table α := t.filter (fun e => decide (e.1 ≠ k))

/-- Every key of `t` is above `b`, and the keys rise strictly. -/
def Table.risingFrom {α : Type} (b : Nat) (t : Table α) : Bool :=
  match t with
  | [] => true
  | (j, _) :: r => decide (b ≤ j) && Table.risingFrom (j + 1) r

/-- The canonical form of a table: keys strictly rising. -/
def Table.wf {α : Type} (t : Table α) : Bool := Table.risingFrom 0 t

/-! ### Slots -/

/-- The content of slot `i`; an unlisted slot holds 0 (10_state.md R41). -/
def Memory.read (m : Memory) (i : Nat) : Word := (Table.find m i).getD 0

/-- Slots `m` with slot `i` made `v`, in canonical form. -/
def Memory.write (m : Memory) (i : Nat) (v : Word) : Memory :=
  if v = 0 then Table.erase m i else Table.set m i v

/-- The canonical form of the slots: indexes strictly rising, no entry equal to what an unlisted slot reads as. -/
def Memory.wf (m : Memory) : Bool := Table.wf m && m.all (fun e => decide (e.2 ≠ 0))

/-! ### How a call ends -/

/-- The instance named `x`. -/
def State.find (s : State) (x : Inst) : Option Element := Table.find s.elems x

/-- The error port of instance `x`: the error of its latest mutating call (30_encoding.md R90; log 3). -/
def State.errOf (s : State) (x : Inst) : Option ErrorKind := Table.find s.errs x

/-- `s` after a call on `x` that left the instance as `e` and returned `r`. -/
def State.done (s : State) (x : Inst) (e : Element) (r : Reply) : State :=
  { s with elems := Table.set s.elems x e, reply := r, errs := Table.erase s.errs x }

/-- `s` after a mutating call on `x` that raised `k` (60_exceptions.md R266): the instances are as before. -/
def State.raised (s : State) (x : Inst) (k : ErrorKind) : State :=
  { s with reply := .error k, errs := Table.set s.errs x k }

/-- `s` after a call that changed no instance and returned `r` (20_memory.md R68). -/
def State.told (s : State) (r : Reply) : State := { s with reply := r }

/-- A mutating call ends in `Ok`. -/
def commit (x : Inst) (e : Element) (r : Reply) (s : State) : Result := .next (s.done x e r)

/-- TAKING AN EXCEPTION: a mutating call on `x` raises `k`. The error is the call's result and nothing else happens:
no trap entry, no saved state, no mode (60_exceptions.md R265, R266, R268); the instance accepts the next call, so
there is no return operation (R269). -/
def raise (x : Inst) (k : ErrorKind) (s : State) : Result := .next (s.raised x k)

/-- An inspection returns `r`; nothing changes (20_memory.md R68). -/
def inspect (r : Reply) (s : State) : Result := .next (s.told r)

/-- A construction: with a legal tuple the name is bound to a new instance, otherwise the result is
`InvalidConfiguration` and no instance comes into being (60_exceptions.md R263). A name already bound is bound anew
(DESIGN CHOICE, unsafe, log 5). -/
def construct (x : Inst) (legal : Bool) (e : Element) (s : State) : Result :=
  if legal then commit x e .ok s else inspect (.error .invalidConfiguration) s

/-! ### The clock -/

/-- A new ClockLine (40_clockline.md R120). -/
def ClockLine.new : ClockLine := { current := false, previous := false }

/-- The edge between two successive samples (40_clockline.md R121, R122). -/
def edgeBetween (last new : Bool) : EdgeKind :=
  match last, new with
  | false, true => .rising
  | true, false => .falling
  | false, false => .none
  | true, true => .none

/-- `sample` (40_clockline.md R121): the edge is between the last sample, the field `current`, and the new one
(90_conflicts.md C1). -/
def sample (l : ClockLine) (new : Bool) : EdgeKind × ClockLine :=
  (edgeBetween l.current new, { current := new, previous := l.current })

/-- Clocked update: sample the line, then update on a rising edge and on nothing else (40_clockline.md R127). -/
def onRising {α : Type} (l : ClockLine) (clk : Bool) (update : α → α) (a : α) : α :=
  if (sample l clk).1 = .rising then update a else a

/-- The line after a call with clock sample `clk`. -/
def sampled (l : ClockLine) (clk : Bool) : ClockLine := (sample l clk).2

/-- A call on a flip-flop: on a rising edge `value` becomes `update value` (42_bitcell.md R146, R151, R159). -/
def FlipFlop.clocked (f : FlipFlop) (clk : Bool) (update : Bool → Bool) : FlipFlop :=
  { value := onRising f.clkLine clk update f.value, clkLine := sampled f.clkLine clk }

/-- A call on a bank of cells: on a rising edge the cells become `update cells` (43_register.md R166, 44_shift_register.md R181). -/
def CellBank.clocked (b : CellBank) (clk : Bool) (update : List Bool → List Bool) : CellBank :=
  { cells := onRising b.clkLine clk update b.cells, clkLine := sampled b.clkLine clk }

/-- A call on a RegisterFile: on a rising edge the slots become `update slots` (46_register_file.md R243). -/
def FileState.clocked (f : FileState) (clk : Bool) (update : Memory → Memory) : FileState :=
  { slots := onRising f.clkLine clk update f.slots, clkLine := sampled f.clkLine clk }

/-! ### Cells and values -/

/-- `val(cells)`: cell 0 is the least significant bit (10_state.md R25, 00_scope.md R16). -/
def val (cells : List Bool) : Word :=
  match cells with
  | [] => 0
  | c :: r => c.toNat + 2 * val r

/-- The `w` cells of a value: cell `i` is `bit(v, i)` (43_register.md R166). -/
def cellsOf (w : Nat) (v : Word) : List Bool :=
  match w with
  | 0 => []
  | w + 1 => decide (v % 2 = 1) :: cellsOf w (v / 2)

/-! ### The instance of the kind an operation is for -/

/-- The state of a ClockLine. -/
def Element.asClockLine (e : Element) : Option (ClockLine) :=
  match e with
  | .clockLine l => some l
  | .srLatch _ | .dLatch _ | .dff _ | .jkff _ | .tff _
  | .register _ _ | .shiftRegister _ _ | .counter _ _ | .registerFile _ _ => none

/-- The `q` of an SR latch. -/
def Element.asSrLatch (e : Element) : Option (Bool) :=
  match e with
  | .srLatch q => some q
  | .clockLine _ | .dLatch _ | .dff _ | .jkff _ | .tff _
  | .register _ _ | .shiftRegister _ _ | .counter _ _ | .registerFile _ _ => none

/-- The `q` of a D latch. -/
def Element.asDLatch (e : Element) : Option (Bool) :=
  match e with
  | .dLatch q => some q
  | .clockLine _ | .srLatch _ | .dff _ | .jkff _ | .tff _
  | .register _ _ | .shiftRegister _ _ | .counter _ _ | .registerFile _ _ => none

/-- The state of a D flip-flop. -/
def Element.asDff (e : Element) : Option (FlipFlop) :=
  match e with
  | .dff f => some f
  | .clockLine _ | .srLatch _ | .dLatch _ | .jkff _ | .tff _
  | .register _ _ | .shiftRegister _ _ | .counter _ _ | .registerFile _ _ => none

/-- The state of a JK flip-flop. -/
def Element.asJkff (e : Element) : Option (FlipFlop) :=
  match e with
  | .jkff f => some f
  | .clockLine _ | .srLatch _ | .dLatch _ | .dff _ | .tff _
  | .register _ _ | .shiftRegister _ _ | .counter _ _ | .registerFile _ _ => none

/-- The state of a T flip-flop. -/
def Element.asTff (e : Element) : Option (FlipFlop) :=
  match e with
  | .tff f => some f
  | .clockLine _ | .srLatch _ | .dLatch _ | .dff _ | .jkff _
  | .register _ _ | .shiftRegister _ _ | .counter _ _ | .registerFile _ _ => none

/-- The width and the state of a Register. -/
def Element.asRegister (e : Element) : Option (Nat × CellBank) :=
  match e with
  | .register w b => some (w, b)
  | .clockLine _ | .srLatch _ | .dLatch _ | .dff _ | .jkff _
  | .tff _ | .shiftRegister _ _ | .counter _ _ | .registerFile _ _ => none

/-- The parameters and the state of a ShiftRegister. -/
def Element.asShiftRegister (e : Element) : Option (ShiftParams × CellBank) :=
  match e with
  | .shiftRegister p b => some (p, b)
  | .clockLine _ | .srLatch _ | .dLatch _ | .dff _ | .jkff _
  | .tff _ | .register _ _ | .counter _ _ | .registerFile _ _ => none

/-- The parameters and the state of a Counter. -/
def Element.asCounter (e : Element) : Option (CounterParams × CounterState) :=
  match e with
  | .counter p c => some (p, c)
  | .clockLine _ | .srLatch _ | .dLatch _ | .dff _ | .jkff _
  | .tff _ | .register _ _ | .shiftRegister _ _ | .registerFile _ _ => none

/-- The parameters and the state of a RegisterFile. -/
def Element.asFile (e : Element) : Option (FileParams × FileState) :=
  match e with
  | .registerFile p f => some (p, f)
  | .clockLine _ | .srLatch _ | .dLatch _ | .dff _ | .jkff _
  | .tff _ | .register _ _ | .shiftRegister _ _ | .counter _ _ => none

/-- Run `k` on what `view` sees of the instance named `x`: a name without an instance is a fault (log 6), an
instance of another kind is refused (log 7). -/
def withElem {α : Type} (view : Element → Option α) (x : Inst) (s : State) (k : α → Result) : Result :=
  match s.find x with
  | none => .fault (.noInstance x)
  | some e =>
    match view e with
    | some a => k a
    | none => .refused (.wrongKind x)

end Sys2Proof.Machine
end

