-- ==== Sys2Proof/Machine/Operands.lean ====
section
/-! DEFINITION. Operands.lean: parameter tuples and operands. Which tuples are legal (00_scope.md R9,
60_exceptions.md R263), the derived parameters `M` and `A`, the elements a construction makes (10_state.md R41), the
optional operands, and the format of the vectors an instance takes (30_encoding.md R82 to R89). -/

namespace Sys2Proof.Machine

/-! ### Legal parameter tuples -/

/-- `W >= 1` (43_register.md R165). -/
def registerLegal (width : Nat) : Bool := decide (1 ≤ width)

/-- `W >= 1` and `INIT < 2^W` (44_shift_register.md R180). -/
def shiftLegal (p : ShiftParams) : Bool := decide (1 ≤ p.width) && fitsIn p.width p.init

/-- `MOD` is absent or `1 <= MOD <= 2^W` (45_counter.md R210). -/
def modulusLegal (width : Nat) (modulus : Option Nat) : Bool :=
  match modulus with
  | none => true
  | some m => decide (1 ≤ m) && decide (m ≤ 2 ^ width)

/-- `W >= 1` and a legal `MOD` (45_counter.md R210). -/
def counterLegal (p : CounterParams) : Bool := decide (1 ≤ p.width) && modulusLegal p.width p.modulus

/-- `ZIDX` is absent or below `N` (46_register_file.md R240). -/
def zeroIndexLegal (slots : Nat) (zeroIndex : Option Nat) : Bool :=
  match zeroIndex with
  | none => true
  | some z => decide (z < slots)

/-- `N >= 1`, `ZIDX < N`, `WORD_W >= 1`, `NREAD >= 1` (46_register_file.md R240). -/
def fileLegal (p : FileParams) : Bool :=
  decide (1 ≤ p.slots) && zeroIndexLegal p.slots p.zeroIndex && decide (1 ≤ p.wordWidth) && decide (1 ≤ p.readPorts)

/-! ### Derived parameters -/

/-- The effective modulus `M` (00_scope.md R10). -/
def effectiveModulus (p : CounterParams) : Nat := p.modulus.getD (2 ^ p.width)

/-- The address width `A = max(1, ceil(log2 N))` (00_scope.md R11). -/
def addrWidth (slots : Nat) : Nat := Nat.log2 (slots - 1) + 1

/-! ### Operands that may be left out of a construction -/

/-- The tuple of `ShiftRegister::new` (44_shift_register.md R180). -/
def shiftTuple (width : Nat) (dir : Dir) (fill : Fill) (init : Option Word) : ShiftParams :=
  { width := width, dir := dir, fill := fill, init := init.getD Config.defaultInit }

/-- The tuple of `Counter::new` (45_counter.md R210). -/
def counterTuple (width : Nat) (modulus : Option Nat) (defaultDir : Option CountDir) (style : Option Style) :
    CounterParams :=
  { width := width, modulus := modulus, defaultDir := defaultDir.getD Config.defaultDir,
    style := style.getD Config.defaultStyle }

/-- The tuple of `RegisterFile::new` (46_register_file.md R240). -/
def fileTuple (slots : Nat) (zeroIndex : Option Nat) (wordWidth readPorts : Option Nat) : FileParams :=
  { slots := slots, zeroIndex := zeroIndex, wordWidth := wordWidth.getD Config.defaultWordWidth,
    readPorts := readPorts.getD Config.defaultReadPorts }

/-! ### New instances (10_state.md R41) -/

/-- A new flip-flop (42_bitcell.md R145, R150, R158). -/
def FlipFlop.new : FlipFlop := { value := Config.resetBit, clkLine := ClockLine.new }

/-- The bank of a new Register of width `w` (43_register.md R165). -/
def newRegisterBank (w : Nat) : CellBank :=
  { cells := List.replicate w Config.resetBit, clkLine := ClockLine.new }

/-- The bank of a new ShiftRegister: cell `i` is `bit(INIT, i)` (44_shift_register.md R180). -/
def newShiftBank (p : ShiftParams) : CellBank := { cells := cellsOf p.width p.init, clkLine := ClockLine.new }

/-- A Counter keeps the stage chain when its style is `Ripple` and `MOD` is absent (10_state.md R28, R29; log 13). -/
def isChained (p : CounterParams) : Bool := decide (p.style = .ripple) && p.modulus.isNone

/-- The state of a new Counter: the count 0 (45_counter.md R210). -/
def newCounterState (p : CounterParams) : CounterState :=
  if isChained p then .chained (List.replicate p.width false) (List.replicate p.width ClockLine.new)
  else .paired 0 ClockLine.new

/-- The state of a new RegisterFile: every slot 0 (46_register_file.md R240). -/
def newFileState : FileState := { slots := [], clkLine := ClockLine.new }

/-! ### Operands of a call -/

/-- The direction of one tick (45_counter.md R211). -/
def tickDir (p : CounterParams) (direction : Option CountDir) : CountDir := direction.getD p.defaultDir

/-- A data operand wider than its field cannot be presented (30_encoding.md R88, D33; log 8). -/
def presented (x : Inst) (width : Nat) (value : Word) (r : Result) : Result :=
  if fitsIn width value then r else .refused (.operandTooWide x)

/-! ### Formats -/

/-- The format of the vectors that port `p` of `e` takes; `none` where the element has no such port
(30_encoding.md R82 to R89). -/
def Element.format (e : Element) (p : Port) : Option Format :=
  match p with
  | .inputs =>
    match e with
    | .clockLine _ => some .cl
    | .srLatch _ => some .srl
    | .dLatch _ => some .dl
    | .dff _ => some .dff
    | .jkff _ => some .jkff
    | .tff _ => some .tff
    | .register w _ => some (.reg w)
    | .shiftRegister q _ => some (.shr q.width q.dir q.fill)
    | .counter _ _ => some .cnt
    | .registerFile q _ => some (.rfw (addrWidth q.slots) q.wordWidth)
  | .read k =>
    match e with
    | .registerFile q _ => if k < q.readPorts then some (.rfr (addrWidth q.slots)) else none
    | .clockLine _ | .srLatch _ | .dLatch _ | .dff _ | .jkff _ | .tff _ => none
    | .register _ _ | .shiftRegister _ _ | .counter _ _ => none

end Sys2Proof.Machine
end

