-- ==== Sys2Proof/Machine/Flags.lean ====
section
/-! DEFINITION. Flags.lean: SEQ-CORE has no status flags and no condition codes (10_state.md R51). What takes their
place are the numeric codes (30_encoding.md R91 to R94, 60_exceptions.md R261) and the output ports, each a function of
the state (30_encoding.md R90). -/

namespace Sys2Proof.Machine

/-! ### Codes -/

/-- Code on the port `edge` (30_encoding.md R91). -/
def edgeCode (e : EdgeKind) : BitVec 2 :=
  match e with
  | .none => 0
  | .rising => 1
  | .falling => 2

/-- Code of an error on a port; `none` is `Ok` (60_exceptions.md R261). -/
def errorCode (k : Option ErrorKind) : BitVec 2 :=
  match k with
  | none => 0
  | some .invalidState => 1
  | some .indexOutOfBounds => 2
  | some .invalidConfiguration => 3

/-- Code of `DIR` (30_encoding.md R92). -/
def dirCode (d : Dir) : BitVec 1 :=
  match d with
  | .right => 0
  | .left => 1

/-- Code of `FILL` (30_encoding.md R92). -/
def fillCode (f : Fill) : BitVec 2 :=
  match f with
  | .zero => 0
  | .serial => 1
  | .ring => 2
  | .johnson => 3

/-- Code of a Counter direction (30_encoding.md R93). -/
def countDirCode (d : CountDir) : BitVec 1 :=
  match d with
  | .up => 0
  | .down => 1

/-- Code of `STYLE` (30_encoding.md R93). -/
def styleCode (y : Style) : BitVec 1 :=
  match y with
  | .synchronous => 0
  | .ripple => 1

/-! ### What an element shows -/

/-- The edge of the latest `sample`, read from the two fields (40_clockline.md R121: `Rising` exactly when
`previous` is false and `current` true after the call). A new line shows `None` (30_encoding.md R90). -/
def shownEdge (l : ClockLine) : EdgeKind := edgeBetween l.previous l.current

/-- The count of a Counter (45_counter.md R215; 10_state.md R29: a ripple Counter's is `val(cells)`). -/
def countOf (c : CounterState) : Word :=
  match c with
  | .paired n _ => n
  | .chained cells _ => val cells

/-- The bit at the exit end of a bank: `cells[0]` for `Right`, `cells[W-1]` for `Left` (44_shift_register.md R193). -/
def outgoing (dir : Dir) (cells : List Bool) : Bool :=
  match dir with
  | .right => cells.headD false
  | .left => cells.getLastD false

/-- `read(index)` of a RegisterFile (46_register_file.md R247). -/
def fileRead (p : FileParams) (f : FileState) (index : Nat) : Except ErrorKind Word :=
  if p.slots ≤ index then .error .indexOutOfBounds
  else if p.zeroIndex = some index then .ok 0
  else .ok (Memory.read f.slots index)

/-- A read as the driver receives it. -/
def readReply (r : Except ErrorKind Word) : Reply :=
  match r with
  | .ok v => .word v
  | .error k => .error k

/-! ### Output ports of the instance named `x`; `none` where it has no such port -/

/-- Port `edge` (30_encoding.md R82, R90). -/
def edgePort (s : State) (x : Inst) : Option (BitVec 2) :=
  ((s.find x).bind Element.asClockLine).map (fun l => edgeCode (shownEdge l))

/-- Port `cur` (30_encoding.md R82, R90). -/
def curPort (s : State) (x : Inst) : Option Bool := ((s.find x).bind Element.asClockLine).map (·.current)

/-- Port `prev` (30_encoding.md R82, R90). -/
def prevPort (s : State) (x : Inst) : Option Bool := ((s.find x).bind Element.asClockLine).map (·.previous)

/-- Port `q` of a latch or flip-flop, a Register or a ShiftRegister (30_encoding.md R83 to R86, R90). -/
def qPort (s : State) (x : Inst) : Option Word :=
  match s.find x with
  | some (.srLatch q) => some q.toNat
  | some (.dLatch q) => some q.toNat
  | some (.dff f) => some f.value.toNat
  | some (.jkff f) => some f.value.toNat
  | some (.tff f) => some f.value.toNat
  | some (.register _ b) => some (val b.cells)
  | some (.shiftRegister _ b) => some (val b.cells)
  | some (.clockLine _) | some (.counter _ _) | some (.registerFile _ _) | none => none

/-- Port `sout` (30_encoding.md R86, 44_shift_register.md R193). -/
def soutPort (s : State) (x : Inst) : Option Bool :=
  ((s.find x).bind Element.asShiftRegister).map (fun pb => outgoing pb.1.dir pb.2.cells)

/-- Port `count` (30_encoding.md R87, R90). -/
def countPort (s : State) (x : Inst) : Option Word :=
  ((s.find x).bind Element.asCounter).map (fun pc => countOf pc.2)

/-- Port `err` of an SR latch (30_encoding.md R83, R90; log 3). -/
def errPort (s : State) (x : Inst) : Option (BitVec 2) :=
  ((s.find x).bind Element.asSrLatch).map (fun _ => errorCode (s.errOf x))

/-- Port `werr` of a RegisterFile (30_encoding.md R89, R90; log 3). -/
def werrPort (s : State) (x : Inst) : Option (BitVec 2) :=
  ((s.find x).bind Element.asFile).map (fun _ => errorCode (s.errOf x))

/-- What read port `k` answers to address `raddr`; `none` where there is no port `k` (30_encoding.md R89). Every
port is answered independently (20_memory.md R69). -/
def readPort (s : State) (x : Inst) (k raddr : Nat) : Option (Except ErrorKind Word) :=
  ((s.find x).bind Element.asFile).bind (fun pf => if k < pf.1.readPorts then some (fileRead pf.1 pf.2 raddr) else none)

/-- Port `rdata_k` (30_encoding.md R89); `none` where the read is in error. -/
def rdataPort (s : State) (x : Inst) (k raddr : Nat) : Option Word := (readPort s x k raddr).bind (·.toOption)

/-- Port `rerr_k` (30_encoding.md R89). -/
def rerrPort (s : State) (x : Inst) (k raddr : Nat) : Option (BitVec 2) :=
  (readPort s x k raddr).map (fun r => errorCode (match r with | .ok _ => none | .error e => some e))

end Sys2Proof.Machine
end

