-- ==== Sys2Proof/Machine/BitCell.lean ====
section
/-! DEFINITION. BitCell.lean: the meanings of the D, JK and T flip-flop operations (42_bitcell.md). -/

namespace Sys2Proof.Machine

/-! ### D flip-flop -/

/-- `DFF.NEW` (42_bitcell.md R145). -/
def execDffNew (x : Inst) (s : State) : Result := construct x true (.dff FlipFlop.new) s

/-- `DFF.STEP` (42_bitcell.md R146). -/
def execDffStep (x : Inst) (data clk : Bool) (s : State) : Result :=
  withElem Element.asDff x s (fun f => commit x (.dff (f.clocked clk (fun _ => data))) .ok s)

/-- `DFF.READ` (42_bitcell.md R147). -/
def execDffRead (x : Inst) (s : State) : Result :=
  withElem Element.asDff x s (fun f => inspect (.bit f.value) s)

/-! ### JK flip-flop -/

/-- The JK table (42_bitcell.md R151). PRESUMED, unsafe, log 19: the source names the standard table without
printing it. -/
def jkNext (j k value : Bool) : Bool :=
  match j, k with
  | false, false => value
  | false, true => false
  | true, false => true
  | true, true => !value

/-- `step(j, k, clock_sample)` of the JK flip-flop `x` (42_bitcell.md R151). -/
def jkStep (x : Inst) (j k clk : Bool) (s : State) : Result :=
  withElem Element.asJkff x s (fun f => commit x (.jkff (f.clocked clk (jkNext j k))) .ok s)

/-- `JKFF.NEW` (42_bitcell.md R150). -/
def execJkffNew (x : Inst) (s : State) : Result := construct x true (.jkff FlipFlop.new) s

/-- `JKFF.HOLD` (42_bitcell.md R152). -/
def execJkffHold (x : Inst) (clk : Bool) (s : State) : Result := jkStep x false false clk s

/-- `JKFF.RESET` (42_bitcell.md R153). -/
def execJkffReset (x : Inst) (clk : Bool) (s : State) : Result := jkStep x false true clk s

/-- `JKFF.SET` (42_bitcell.md R154). -/
def execJkffSet (x : Inst) (clk : Bool) (s : State) : Result := jkStep x true false clk s

/-- `JKFF.TOGGLE` (42_bitcell.md R155). -/
def execJkffToggle (x : Inst) (clk : Bool) (s : State) : Result := jkStep x true true clk s

/-- `JKFF.READ` (42_bitcell.md R156). -/
def execJkffRead (x : Inst) (s : State) : Result :=
  withElem Element.asJkff x s (fun f => inspect (.bit f.value) s)

/-! ### T flip-flop -/

/-- The T update: toggle exactly when `t` (42_bitcell.md R159). -/
def tNext (t value : Bool) : Bool := if t then !value else value

/-- `step(t, clock_sample)` of the T flip-flop `x` (42_bitcell.md R159). -/
def tStep (x : Inst) (t clk : Bool) (s : State) : Result :=
  withElem Element.asTff x s (fun f => commit x (.tff (f.clocked clk (tNext t))) .ok s)

/-- `TFF.NEW` (42_bitcell.md R158). -/
def execTffNew (x : Inst) (s : State) : Result := construct x true (.tff FlipFlop.new) s

/-- `TFF.HOLD` (42_bitcell.md R160). -/
def execTffHold (x : Inst) (clk : Bool) (s : State) : Result := tStep x false clk s

/-- `TFF.TOGGLE` (42_bitcell.md R161). -/
def execTffToggle (x : Inst) (clk : Bool) (s : State) : Result := tStep x true clk s

/-- `TFF.READ` (42_bitcell.md R162). -/
def execTffRead (x : Inst) (s : State) : Result :=
  withElem Element.asTff x s (fun f => inspect (.bit f.value) s)

end Sys2Proof.Machine
end

