-- ==== Sys2Proof/Machine/ClockLine.lean ====
section
/-! DEFINITION. ClockLine.lean: the meanings of the ClockLine operations (40_clockline.md). -/

namespace Sys2Proof.Machine

/-- `CL.NEW` (40_clockline.md R120). -/
def execClNew (x : Inst) (s : State) : Result := construct x true (.clockLine ClockLine.new) s

/-- `CL.SAMPLE` (40_clockline.md R121): the edge is returned, the fields move on unconditionally. -/
def execClSample (x : Inst) (newValue : Bool) (s : State) : Result :=
  withElem Element.asClockLine x s (fun l =>
    commit x (.clockLine (sampled l newValue)) (.edge (sample l newValue).1) s)

/-- `CL.READ` (40_clockline.md R125). -/
def execClRead (x : Inst) (s : State) : Result :=
  withElem Element.asClockLine x s (fun l => inspect (.lines l.current l.previous) s)

end Sys2Proof.Machine
end

