-- ==== Sys2Proof/Machine/Counter.lean ====
section
/-! DEFINITION. Counter.lean: the meanings of the Counter operations (45_counter.md), the ripple style by its settle
process. -/

namespace Sys2Proof.Machine

/-- The increment of one tick in direction `d` (45_counter.md R212): `M - 1` for down, so that nothing is negative. -/
def countDelta (m : Nat) (d : CountDir) : Nat :=
  match d with
  | .up => 1
  | .down => m - 1

/-- `(count + delta) mod M` (45_counter.md R212). -/
def nextCount (m : Nat) (d : CountDir) (count : Nat) : Nat := (count + countDelta m d) % m

/-- The transition of a stage's output that fires the next stage: a carry (falling) for up, a borrow (rising) for
down (45_counter.md R221, 90_conflicts.md C4). -/
def firesNext (d : CountDir) (e : EdgeKind) : Bool :=
  match d with
  | .up => decide (e = .falling)
  | .down => decide (e = .rising)

/-- The settle process from a stage on (45_counter.md R221): `cells` are that stage's cell and the later ones, `lines`
the lines of the LATER stages, `fire` whether that stage toggles. Each later stage samples the cell before it. -/
def settle (d : CountDir) (fire : Bool) (cells : List Bool) (lines : List ClockLine) : List Bool × List ClockLine :=
  match cells, lines with
  | [], ls => ([], ls)
  | c :: cs, [] => ((fire ^^ c) :: cs, [])
  | c :: cs, l :: ls =>
    ((fire ^^ c) :: (settle d (firesNext d (sample l (fire ^^ c)).1) cs ls).1,
      sampled l (fire ^^ c) :: (settle d (firesNext d (sample l (fire ^^ c)).1) cs ls).2)

/-- One `tick` of the stage chain (45_counter.md R221): stage 0 samples the external clock. -/
def chainTick (d : CountDir) (clk : Bool) (cells : List Bool) (stageLines : List ClockLine) : CounterState :=
  match stageLines with
  | [] => .chained cells []
  | l :: ls =>
    .chained (settle d (decide ((sample l clk).1 = .rising)) cells ls).1
      (sampled l clk :: (settle d (decide ((sample l clk).1 = .rising)) cells ls).2)

/-- One `tick` in direction `d` (45_counter.md R212, R221). -/
def tickState (m : Nat) (d : CountDir) (clk : Bool) (c : CounterState) : CounterState :=
  match c with
  | .paired count l => .paired (onRising l clk (nextCount m d) count) (sampled l clk)
  | .chained cells stageLines => chainTick d clk cells stageLines

/-- `tick(clock_sample, direction)` of the Counter `x` (45_counter.md R212). -/
def tickStep (x : Inst) (direction : Option CountDir) (clk : Bool) (s : State) : Result :=
  withElem Element.asCounter x s (fun pc =>
    commit x (.counter pc.1 (tickState (effectiveModulus pc.1) (tickDir pc.1 direction) clk pc.2)) .ok s)

/-- `CNT.NEW` (45_counter.md R210). -/
def execCntNew (x : Inst) (width : Nat) (modulus : Option Nat) (defaultDir : Option CountDir) (style : Option Style)
    (s : State) : Result :=
  construct x (counterLegal (counterTuple width modulus defaultDir style))
    (.counter (counterTuple width modulus defaultDir style)
      (newCounterState (counterTuple width modulus defaultDir style))) s

/-- `CNT.TICK` (45_counter.md R212). -/
def execCntTick (x : Inst) (clk : Bool) (s : State) : Result := tickStep x none clk s

/-- `CNT.TICKUP` (45_counter.md R213). -/
def execCntTickup (x : Inst) (clk : Bool) (s : State) : Result := tickStep x (some .up) clk s

/-- `CNT.TICKDN` (45_counter.md R214). -/
def execCntTickdn (x : Inst) (clk : Bool) (s : State) : Result := tickStep x (some .down) clk s

/-- `CNT.READ` (45_counter.md R215). -/
def execCntRead (x : Inst) (s : State) : Result :=
  withElem Element.asCounter x s (fun pc => inspect (.word (countOf pc.2)) s)

end Sys2Proof.Machine
end

