-- ==== Sys2Proof/Machine/Latch.lean ====
section
/-! DEFINITION. Latch.lean: the meanings of the SR and D latch operations (41_latch.md). -/

namespace Sys2Proof.Machine

/-- The SR step on `q` (41_latch.md R131): `(1,1)` raises `InvalidState`. -/
def srNext (set reset q : Bool) : Except ErrorKind Bool :=
  match set, reset with
  | true, true => .error .invalidState
  | true, false => .ok true
  | false, true => .ok false
  | false, false => .ok q

/-- `step(s, r)` of the SR latch `x` (41_latch.md R131). -/
def srStep (x : Inst) (set reset : Bool) (s : State) : Result :=
  withElem Element.asSrLatch x s (fun q =>
    match srNext set reset q with
    | .ok q' => commit x (.srLatch q') .ok s
    | .error k => raise x k s)

/-- `SRL.NEW` (41_latch.md R130). -/
def execSrlNew (x : Inst) (s : State) : Result := construct x true (.srLatch Config.resetBit) s

/-- `SRL.HOLD` (41_latch.md R132). -/
def execSrlHold (x : Inst) (s : State) : Result := srStep x false false s

/-- `SRL.RESET` (41_latch.md R133). -/
def execSrlReset (x : Inst) (s : State) : Result := srStep x false true s

/-- `SRL.SET` (41_latch.md R134). -/
def execSrlSet (x : Inst) (s : State) : Result := srStep x true false s

/-- `SRL.INVALID` (41_latch.md R135). -/
def execSrlInvalid (x : Inst) (s : State) : Result := srStep x true true s

/-- `SRL.READ` (41_latch.md R136). -/
def execSrlRead (x : Inst) (s : State) : Result :=
  withElem Element.asSrLatch x s (fun q => inspect (.bit q) s)

/-- `step(d, enable)` of the D latch `x` (41_latch.md R138). -/
def dlStep (x : Inst) (d enable : Bool) (s : State) : Result :=
  withElem Element.asDLatch x s (fun q => commit x (.dLatch (if enable then d else q)) .ok s)

/-- `DL.NEW` (41_latch.md R137). -/
def execDlNew (x : Inst) (s : State) : Result := construct x true (.dLatch Config.resetBit) s

/-- `DL.HOLD` (41_latch.md R139). -/
def execDlHold (x : Inst) (d : Bool) (s : State) : Result := dlStep x d false s

/-- `DL.PASS` (41_latch.md R140). -/
def execDlPass (x : Inst) (d : Bool) (s : State) : Result := dlStep x d true s

/-- `DL.READ` (41_latch.md R141). -/
def execDlRead (x : Inst) (s : State) : Result :=
  withElem Element.asDLatch x s (fun q => inspect (.bit q) s)

end Sys2Proof.Machine
end

