-- ==== Sys2Proof/Machine/Register.lean ====
section
/-! DEFINITION. Register.lean: the meanings of the Register operations (43_register.md). -/

namespace Sys2Proof.Machine

/-- The update of a parallel load: all cells take the bits of `value` when `enable` (43_register.md R166, R167). -/
def loadCells (width : Nat) (value : Word) (enable : Bool) (cells : List Bool) : List Bool :=
  if enable then cellsOf width value else cells

/-- `load(value, enable, clock_sample)` of the Register `x` (43_register.md R166). -/
def regStep (x : Inst) (value : Word) (enable clk : Bool) (s : State) : Result :=
  withElem Element.asRegister x s (fun wb =>
    presented x wb.1 value
      (commit x (.register wb.1 (wb.2.clocked clk (loadCells wb.1 value enable))) .ok s))

/-- `REG.NEW` (43_register.md R165). -/
def execRegNew (x : Inst) (width : Nat) (s : State) : Result :=
  construct x (registerLegal width) (.register width (newRegisterBank width)) s

/-- `REG.HOLD` (43_register.md R167). -/
def execRegHold (x : Inst) (value : Word) (clk : Bool) (s : State) : Result := regStep x value false clk s

/-- `REG.LOAD` (43_register.md R166). -/
def execRegLoad (x : Inst) (value : Word) (clk : Bool) (s : State) : Result := regStep x value true clk s

/-- `REG.READ` (43_register.md R168). -/
def execRegRead (x : Inst) (s : State) : Result :=
  withElem Element.asRegister x s (fun wb => inspect (.word (val wb.2.cells)) s)

end Sys2Proof.Machine
end

