-- ==== Sys2Proof/Machine/RegisterFile.lean ====
section
/-! DEFINITION. RegisterFile.lean: the meanings of the RegisterFile operations (46_register_file.md). -/

namespace Sys2Proof.Machine

/-- The update of a write: slot `index` takes `value` when `enable` and the index is not `ZIDX`
(46_register_file.md R243 step 3, R244). -/
def writeSlots (p : FileParams) (index : Nat) (value : Word) (enable : Bool) (slots : Memory) : Memory :=
  if enable ∧ p.zeroIndex ≠ some index then Memory.write slots index value else slots

/-- `write(index, value, enable, clock_sample)` of the RegisterFile `x` (46_register_file.md R243): the bounds check
comes before the clock is sampled; a write to `ZIDX` samples the clock (R244; log 18). -/
def writeStep (x : Inst) (index : Nat) (value : Word) (enable clk : Bool) (s : State) : Result :=
  withElem Element.asFile x s (fun pf =>
    presented x pf.1.wordWidth value
      (if pf.1.slots ≤ index then raise x .indexOutOfBounds s
       else commit x (.registerFile pf.1 (pf.2.clocked clk (writeSlots pf.1 index value enable))) .ok s))

/-- `RF.NEW` (46_register_file.md R240). -/
def execRfNew (x : Inst) (slots : Nat) (zeroIndex : Option Nat) (wordWidth readPorts : Option Nat) (s : State) :
    Result :=
  construct x (fileLegal (fileTuple slots zeroIndex wordWidth readPorts))
    (.registerFile (fileTuple slots zeroIndex wordWidth readPorts) newFileState) s

/-- `RF.WHOLD` (46_register_file.md R245). -/
def execRfWhold (x : Inst) (index : Nat) (value : Word) (clk : Bool) (s : State) : Result :=
  writeStep x index value false clk s

/-- `RF.WRITE` (46_register_file.md R243, R244). -/
def execRfWrite (x : Inst) (index : Nat) (value : Word) (clk : Bool) (s : State) : Result :=
  writeStep x index value true clk s

/-- `RF.READ` (46_register_file.md R247): an index out of range is an error, never a zero. -/
def execRfRead (x : Inst) (index : Nat) (s : State) : Result :=
  withElem Element.asFile x s (fun pf => inspect (readReply (fileRead pf.1 pf.2 index)) s)

end Sys2Proof.Machine
end

