-- ==== Sys2Proof/Machine/ShiftRegister.lean ====
section
/-! DEFINITION. ShiftRegister.lean: the meanings of the ShiftRegister operations (44_shift_register.md). -/

namespace Sys2Proof.Machine

/-- The incoming bit of a shift (44_shift_register.md R181, R190); `none` is the refused `serial_in = None` under
`Serial`. -/
def incoming (fill : Fill) (serialIn : Option Bool) (out : Bool) : Option Bool :=
  match fill with
  | .zero => some false
  | .serial => serialIn
  | .ring => some out
  | .johnson => some (!out)

/-- All cells move one place and `b` enters at the far end (44_shift_register.md R181): for `Right` cell `i` takes
cell `i + 1` and cell `W-1` takes `b`; for `Left` cell `i` takes cell `i - 1` and cell 0 takes `b`. -/
def shiftIn (dir : Dir) (b : Bool) (cells : List Bool) : List Bool :=
  match dir with
  | .right => cells.drop 1 ++ [b]
  | .left => b :: cells.dropLast

/-- The update of one shift of a bank with incoming bit chosen by the fill policy (44_shift_register.md R181). -/
def shiftCells (dir : Dir) (fill : Fill) (serialIn : Option Bool) (cells : List Bool) : List Bool :=
  shiftIn dir ((incoming fill serialIn (outgoing dir cells)).getD false) cells

/-- `serial_in = None` under `FILL = Serial`, the call that is refused (44_shift_register.md R190). -/
def serialMissing (fill : Fill) (serialIn : Option Bool) : Bool := decide (fill = .serial) && serialIn.isNone

/-- `shift(serial_in, clock_sample)` on the ShiftRegister `x` found as `p`, `b` (44_shift_register.md R181): the error
of R190 comes before the clock is sampled. -/
def shiftBank (x : Inst) (p : ShiftParams) (b : CellBank) (serialIn : Option Bool) (clk : Bool) (s : State) : Result :=
  if serialMissing p.fill serialIn then raise x .invalidState s
  else commit x (.shiftRegister p (b.clocked clk (shiftCells p.dir p.fill serialIn))) .ok s

/-- The form (`dir`, `fill`) of `shift`: an instance with other parameters has another form (30_encoding.md R95; log 9). -/
def shiftFormStep (x : Inst) (dir : Dir) (fill : Fill) (serialIn : Option Bool) (clk : Bool) (s : State) : Result :=
  withElem Element.asShiftRegister x s (fun pb =>
    if pb.1.dir = dir ∧ pb.1.fill = fill then shiftBank x pb.1 pb.2 serialIn clk s else .refused (.otherForm x))

/-- The inherited `load` of the ShiftRegister `x` (44_shift_register.md R191, R192). -/
def shrLoadStep (x : Inst) (value : Word) (enable clk : Bool) (s : State) : Result :=
  withElem Element.asShiftRegister x s (fun pb =>
    presented x pb.1.width value
      (commit x (.shiftRegister pb.1 (pb.2.clocked clk (loadCells pb.1.width value enable))) .ok s))

/-- `SHR.NEW` (44_shift_register.md R180). -/
def execShrNew (x : Inst) (width : Nat) (dir : Dir) (fill : Fill) (init : Option Word) (s : State) : Result :=
  construct x (shiftLegal (shiftTuple width dir fill init))
    (.shiftRegister (shiftTuple width dir fill init) (newShiftBank (shiftTuple width dir fill init))) s

/-- `SHR.SHIFT`, whatever the form (44_shift_register.md R181). -/
def execShrShift (x : Inst) (serialIn : Option Bool) (clk : Bool) (s : State) : Result :=
  withElem Element.asShiftRegister x s (fun pb => shiftBank x pb.1 pb.2 serialIn clk s)

/-- `SHR.SHIFT.R.ZERO` (44_shift_register.md R182). -/
def execShrShiftRZero (x : Inst) (serialIn : Option Bool) (clk : Bool) (s : State) : Result :=
  shiftFormStep x .right .zero serialIn clk s

/-- `SHR.SHIFT.R.SERIAL` (44_shift_register.md R183). -/
def execShrShiftRSerial (x : Inst) (serialIn : Option Bool) (clk : Bool) (s : State) : Result :=
  shiftFormStep x .right .serial serialIn clk s

/-- `SHR.SHIFT.R.RING` (44_shift_register.md R184). -/
def execShrShiftRRing (x : Inst) (serialIn : Option Bool) (clk : Bool) (s : State) : Result :=
  shiftFormStep x .right .ring serialIn clk s

/-- `SHR.SHIFT.R.JOHNSON` (44_shift_register.md R185). -/
def execShrShiftRJohnson (x : Inst) (serialIn : Option Bool) (clk : Bool) (s : State) : Result :=
  shiftFormStep x .right .johnson serialIn clk s

/-- `SHR.SHIFT.L.ZERO` (44_shift_register.md R186). -/
def execShrShiftLZero (x : Inst) (serialIn : Option Bool) (clk : Bool) (s : State) : Result :=
  shiftFormStep x .left .zero serialIn clk s

/-- `SHR.SHIFT.L.SERIAL` (44_shift_register.md R187). -/
def execShrShiftLSerial (x : Inst) (serialIn : Option Bool) (clk : Bool) (s : State) : Result :=
  shiftFormStep x .left .serial serialIn clk s

/-- `SHR.SHIFT.L.RING` (44_shift_register.md R188). -/
def execShrShiftLRing (x : Inst) (serialIn : Option Bool) (clk : Bool) (s : State) : Result :=
  shiftFormStep x .left .ring serialIn clk s

/-- `SHR.SHIFT.L.JOHNSON` (44_shift_register.md R189). -/
def execShrShiftLJohnson (x : Inst) (serialIn : Option Bool) (clk : Bool) (s : State) : Result :=
  shiftFormStep x .left .johnson serialIn clk s

/-- `SHR.LHOLD` (44_shift_register.md R192). -/
def execShrLhold (x : Inst) (value : Word) (clk : Bool) (s : State) : Result := shrLoadStep x value false clk s

/-- `SHR.LOAD` (44_shift_register.md R191). -/
def execShrLoad (x : Inst) (value : Word) (clk : Bool) (s : State) : Result := shrLoadStep x value true clk s

/-- `SHR.READ` (44_shift_register.md R194). -/
def execShrRead (x : Inst) (s : State) : Result :=
  withElem Element.asShiftRegister x s (fun pb => inspect (.word (val pb.2.cells)) s)

/-- `SHR.SOUT` (44_shift_register.md R193). -/
def execShrSout (x : Inst) (s : State) : Result :=
  withElem Element.asShiftRegister x s (fun pb => inspect (.bit (outgoing pb.1.dir pb.2.cells)) s)

end Sys2Proof.Machine
end

