-- ==== Sys2Proof/Machine/Dispatch.lean ====
section
/-! DEFINITION. Dispatch.lean: one arm per operation, each a direct call of its meaning. -/

namespace Sys2Proof.Machine

def exec (i : Instr) (s : State) : Host.Outcome State Fault Refusal :=
  match i with
  | .clNew x => Sys2Proof.Machine.execClNew x s
  | .clSample x newValue => Sys2Proof.Machine.execClSample x newValue s
  | .clRead x => Sys2Proof.Machine.execClRead x s
  | .srlNew x => Sys2Proof.Machine.execSrlNew x s
  | .srlHold x => Sys2Proof.Machine.execSrlHold x s
  | .srlReset x => Sys2Proof.Machine.execSrlReset x s
  | .srlSet x => Sys2Proof.Machine.execSrlSet x s
  | .srlInvalid x => Sys2Proof.Machine.execSrlInvalid x s
  | .srlRead x => Sys2Proof.Machine.execSrlRead x s
  | .dlNew x => Sys2Proof.Machine.execDlNew x s
  | .dlHold x d => Sys2Proof.Machine.execDlHold x d s
  | .dlPass x d => Sys2Proof.Machine.execDlPass x d s
  | .dlRead x => Sys2Proof.Machine.execDlRead x s
  | .dffNew x => Sys2Proof.Machine.execDffNew x s
  | .dffStep x data clk => Sys2Proof.Machine.execDffStep x data clk s
  | .dffRead x => Sys2Proof.Machine.execDffRead x s
  | .jkffNew x => Sys2Proof.Machine.execJkffNew x s
  | .jkffHold x clk => Sys2Proof.Machine.execJkffHold x clk s
  | .jkffReset x clk => Sys2Proof.Machine.execJkffReset x clk s
  | .jkffSet x clk => Sys2Proof.Machine.execJkffSet x clk s
  | .jkffToggle x clk => Sys2Proof.Machine.execJkffToggle x clk s
  | .jkffRead x => Sys2Proof.Machine.execJkffRead x s
  | .tffNew x => Sys2Proof.Machine.execTffNew x s
  | .tffHold x clk => Sys2Proof.Machine.execTffHold x clk s
  | .tffToggle x clk => Sys2Proof.Machine.execTffToggle x clk s
  | .tffRead x => Sys2Proof.Machine.execTffRead x s
  | .regNew x width => Sys2Proof.Machine.execRegNew x width s
  | .regHold x value clk => Sys2Proof.Machine.execRegHold x value clk s
  | .regLoad x value clk => Sys2Proof.Machine.execRegLoad x value clk s
  | .regRead x => Sys2Proof.Machine.execRegRead x s
  | .shrNew x width dir fill init => Sys2Proof.Machine.execShrNew x width dir fill init s
  | .shrShift x serialIn clk => Sys2Proof.Machine.execShrShift x serialIn clk s
  | .shrShiftRZero x serialIn clk => Sys2Proof.Machine.execShrShiftRZero x serialIn clk s
  | .shrShiftRSerial x serialIn clk => Sys2Proof.Machine.execShrShiftRSerial x serialIn clk s
  | .shrShiftRRing x serialIn clk => Sys2Proof.Machine.execShrShiftRRing x serialIn clk s
  | .shrShiftRJohnson x serialIn clk => Sys2Proof.Machine.execShrShiftRJohnson x serialIn clk s
  | .shrShiftLZero x serialIn clk => Sys2Proof.Machine.execShrShiftLZero x serialIn clk s
  | .shrShiftLSerial x serialIn clk => Sys2Proof.Machine.execShrShiftLSerial x serialIn clk s
  | .shrShiftLRing x serialIn clk => Sys2Proof.Machine.execShrShiftLRing x serialIn clk s
  | .shrShiftLJohnson x serialIn clk => Sys2Proof.Machine.execShrShiftLJohnson x serialIn clk s
  | .shrLhold x value clk => Sys2Proof.Machine.execShrLhold x value clk s
  | .shrLoad x value clk => Sys2Proof.Machine.execShrLoad x value clk s
  | .shrRead x => Sys2Proof.Machine.execShrRead x s
  | .shrSout x => Sys2Proof.Machine.execShrSout x s
  | .cntNew x width modulus defaultDir style => Sys2Proof.Machine.execCntNew x width modulus defaultDir style s
  | .cntTick x clk => Sys2Proof.Machine.execCntTick x clk s
  | .cntTickup x clk => Sys2Proof.Machine.execCntTickup x clk s
  | .cntTickdn x clk => Sys2Proof.Machine.execCntTickdn x clk s
  | .cntRead x => Sys2Proof.Machine.execCntRead x s
  | .rfNew x slots zeroIndex wordWidth readPorts => Sys2Proof.Machine.execRfNew x slots zeroIndex wordWidth readPorts s
  | .rfWhold x index value clk => Sys2Proof.Machine.execRfWhold x index value clk s
  | .rfWrite x index value clk => Sys2Proof.Machine.execRfWrite x index value clk s
  | .rfRead x index => Sys2Proof.Machine.execRfRead x index s

end Sys2Proof.Machine
end

