-- ==== Sys2Proof/Machine/Fetch.lean ====
section
/-! DEFINITION. Fetch.lean: the operation the driver's next call performs, and how a word of the opcode table is
placed as that call. There is no fetch in the hardware (20_memory.md R75); the driver presents its calls in order
(30_encoding.md R104). -/

namespace Sys2Proof.Machine

/-- The operation of a call, or why it has none: a typed call is its operation; a vector is decoded in the format of
the port it is presented on (30_encoding.md R80, R99). -/
def resolve (c : Call) (s : State) : Except Result Instr :=
  match c with
  | .op i => .ok i
  | .vector x p v =>
    match s.find x with
    | none => .error (.fault (.noInstance x))
    | some e =>
      match e.format p with
      | none => .error (.refused (.noPort x))
      | some f =>
        match decode f x v with
        | .ok i => .ok i
        | .error (.vectorTooWide _) => .error (.refused (.vectorTooWide x))

/-- Perform one call. -/
def perform (c : Call) (s : State) : Result :=
  match resolve c s with
  | .ok i => exec i s
  | .error r => r

/-- A new element that takes vectors of format `f` on its input ports; used for words of the opcode table only, so
the formats `tableFormat` answers have their own element (log 11). -/
def tableElement (f : Format) : Element :=
  match f with
  | .srl => .srLatch Config.resetBit
  | .jkff => .jkff FlipFlop.new
  | .reg w => .register w (newRegisterBank w)
  | .cl | .dl | .dff | .tff | .shr _ _ _ | .cnt | .rfw _ _ | .rfr _ => .clockLine ClockLine.new

/-- `s` with an instance of format `f` under the name `x`; an instance that already takes that format stays. -/
def withInstance (s : State) (x : Inst) (f : Format) : State :=
  if (s.find x).bind (fun e => e.format .inputs) = some f then s
  else { s with elems := Table.set s.elems x (tableElement f) }

/-- `s` with `c` as the driver's next call. -/
def withCall (s : State) (c : Call) : State := { s with calls := c :: s.calls }

end Sys2Proof.Machine
end

