-- ==== Sys2Proof/Machine/Step.lean ====
section
/-! DEFINITION. Step.lean: one step is one call of the driver. Nothing happens except in response to a call
(60_exceptions.md R270), so with no call left a step changes nothing. -/

namespace Sys2Proof.Machine

/-- One step: the driver's next call is taken from the list and performed (00_scope.md R12, R13; log 1). -/
def step (s : State) : Host.Outcome State Fault Refusal :=
  match s.calls with
  | [] => .next s
  | c :: rest => perform c { s with calls := rest }

/-- `s` with the word of the opcode table presented as the driver's next call (log 1, log 11). -/
def State.withFetchWord (s : State) (nbits w : Nat) : State :=
  withCall (withInstance s tableInst (tableFormat (w % 2 ^ nbits)))
    (.vector tableInst .inputs (w % 2 ^ nbits))

end Sys2Proof.Machine
end

