-- ==== Sys2Proof/Machine/Program.lean ====
section
/-! DEFINITION. Program.lean: programs of the driver (30_encoding.md R102 to R104): lines, the pseudo-operations,
their exact expansion into calls, the encoding of a program, and running a list of operations. -/

namespace Sys2Proof.Machine

/-- The same clocked mutation with clock sample `c`; `none` for the operations that have no clock operand to
abbreviate: constructions, inspections, latches and `sample` (30_encoding.md R103). -/
def withClock (c : Bool) : Instr → Option Instr
  | .clNew _ | .clSample _ _ | .clRead _ => none
  | .srlNew _ | .srlHold _ | .srlReset _ | .srlSet _ | .srlInvalid _ | .srlRead _ => none
  | .dlNew _ | .dlHold _ _ | .dlPass _ _ | .dlRead _ => none
  | .dffNew _ | .dffRead _ | .jkffNew _ | .jkffRead _ | .tffNew _ | .tffRead _ => none
  | .regNew _ _ | .regRead _ | .shrNew _ _ _ _ _ | .shrRead _ | .shrSout _ => none
  | .cntNew _ _ _ _ _ | .cntRead _ | .rfNew _ _ _ _ _ | .rfRead _ _ => none
  | .dffStep x d _ => some (.dffStep x d c)
  | .jkffHold x _ => some (.jkffHold x c)
  | .jkffReset x _ => some (.jkffReset x c)
  | .jkffSet x _ => some (.jkffSet x c)
  | .jkffToggle x _ => some (.jkffToggle x c)
  | .tffHold x _ => some (.tffHold x c)
  | .tffToggle x _ => some (.tffToggle x c)
  | .regHold x v _ => some (.regHold x v c)
  | .regLoad x v _ => some (.regLoad x v c)
  | .shrShift x b _ => some (.shrShift x b c)
  | .shrShiftRZero x b _ => some (.shrShiftRZero x b c)
  | .shrShiftRSerial x b _ => some (.shrShiftRSerial x b c)
  | .shrShiftRRing x b _ => some (.shrShiftRRing x b c)
  | .shrShiftRJohnson x b _ => some (.shrShiftRJohnson x b c)
  | .shrShiftLZero x b _ => some (.shrShiftLZero x b c)
  | .shrShiftLSerial x b _ => some (.shrShiftLSerial x b c)
  | .shrShiftLRing x b _ => some (.shrShiftLRing x b c)
  | .shrShiftLJohnson x b _ => some (.shrShiftLJohnson x b c)
  | .shrLhold x v _ => some (.shrLhold x v c)
  | .shrLoad x v _ => some (.shrLoad x v c)
  | .cntTick x _ => some (.cntTick x c)
  | .cntTickup x _ => some (.cntTickup x c)
  | .cntTickdn x _ => some (.cntTickdn x c)
  | .rfWhold x i v _ => some (.rfWhold x i v c)
  | .rfWrite x i v _ => some (.rfWrite x i v c)

/-- The operation is an inspection `read`, of which `peek` is the second name (30_encoding.md R102, D27). -/
def isRead (i : Instr) : Bool :=
  match i with
  | .clRead _ | .srlRead _ | .dlRead _ | .dffRead _ | .jkffRead _ | .tffRead _ => true
  | .regRead _ | .shrRead _ | .cntRead _ | .rfRead _ _ => true
  | .clNew _ | .clSample _ _ | .srlNew _ | .srlHold _ | .srlReset _ | .srlSet _ | .srlInvalid _ => false
  | .dlNew _ | .dlHold _ _ | .dlPass _ _ | .dffNew _ | .dffStep _ _ _ => false
  | .jkffNew _ | .jkffHold _ _ | .jkffReset _ _ | .jkffSet _ _ | .jkffToggle _ _ => false
  | .tffNew _ | .tffHold _ _ | .tffToggle _ _ => false
  | .regNew _ _ | .regHold _ _ _ | .regLoad _ _ _ => false
  | .shrNew _ _ _ _ _ | .shrShift _ _ _ => false
  | .shrShiftRZero _ _ _ | .shrShiftRSerial _ _ _ | .shrShiftRRing _ _ _ | .shrShiftRJohnson _ _ _ => false
  | .shrShiftLZero _ _ _ | .shrShiftLSerial _ _ _ | .shrShiftLRing _ _ _ | .shrShiftLJohnson _ _ _ => false
  | .shrLhold _ _ _ | .shrLoad _ _ _ | .shrSout _ => false
  | .cntNew _ _ _ _ _ | .cntTick _ _ | .cntTickup _ _ | .cntTickdn _ _ => false
  | .rfNew _ _ _ _ _ | .rfWhold _ _ _ _ | .rfWrite _ _ _ _ => false

/-- The calls a line abbreviates (30_encoding.md R103, R104); `none` for a pseudo-operation over an operation that
has no clock operand, and for `peek` of what is no `read`. -/
def expandLine (l : Line) : Option (List Call) :=
  match l with
  | .call c => some [c]
  | .pulse i =>
    match withClock false i, withClock true i with
    | some lo, some hi => some [.op lo, .op hi]
    | _, _ => none
  | .low i => (withClock false i).map (fun j => [.op j])
  | .high i => (withClock true i).map (fun j => [.op j])
  | .peek i => if isRead i then some [.op i] else none
  | .repeated n l => (expandLine l).map (fun cs => (List.replicate n cs).flatten)

/-- The calls of a program, its lines executed top to bottom (30_encoding.md R104). -/
def expandProgram (p : List Line) : Option (List Call) :=
  match p with
  | [] => some []
  | l :: r =>
    match expandLine l, expandProgram r with
    | some a, some b => some (a ++ b)
    | _, _ => none

/-- The operation is a construction (30_encoding.md R100). -/
def isConstruction (i : Instr) : Bool :=
  match i with
  | .clNew _ | .srlNew _ | .dlNew _ | .dffNew _ | .jkffNew _ | .tffNew _ => true
  | .regNew _ _ | .shrNew _ _ _ _ _ | .cntNew _ _ _ _ _ | .rfNew _ _ _ _ _ => true
  | .clSample _ _ | .clRead _ => false
  | .srlHold _ | .srlReset _ | .srlSet _ | .srlInvalid _ | .srlRead _ => false
  | .dlHold _ _ | .dlPass _ _ | .dlRead _ => false
  | .dffStep _ _ _ | .dffRead _ => false
  | .jkffHold _ _ | .jkffReset _ _ | .jkffSet _ _ | .jkffToggle _ _ | .jkffRead _ => false
  | .tffHold _ _ | .tffToggle _ _ | .tffRead _ => false
  | .regHold _ _ _ | .regLoad _ _ _ | .regRead _ => false
  | .shrShift _ _ _ | .shrLhold _ _ _ | .shrLoad _ _ _ | .shrRead _ | .shrSout _ => false
  | .shrShiftRZero _ _ _ | .shrShiftRSerial _ _ _ | .shrShiftRRing _ _ _ | .shrShiftRJohnson _ _ _ => false
  | .shrShiftLZero _ _ _ | .shrShiftLSerial _ _ _ | .shrShiftLRing _ _ _ | .shrShiftLJohnson _ _ _ => false
  | .cntTick _ _ | .cntTickup _ _ | .cntTickdn _ _ | .cntRead _ => false
  | .rfWhold _ _ _ _ | .rfWrite _ _ _ _ | .rfRead _ _ => false

/-- The operation is a mutation: neither a construction nor an inspection (30_encoding.md R101). -/
def isMutation (i : Instr) : Bool := !isConstruction i && !isRead i && decide (i ≠ .shrSout i.inst)

/-- The stimulus vector of an operation on the element `e`: on its input ports, or on a read port
(30_encoding.md R82 to R89). -/
def vectorOn (e : Element) (i : Instr) : Option Nat :=
  match (e.format .inputs).bind (fun f => encode f i) with
  | some v => some v
  | none => (e.format (.read 0)).bind (fun f => encode f i)

/-- The encoding of one call made in state `s` (30_encoding.md R104): the vector of a mutation or an `RF.READ` in the
format of the instance it names; nothing for a construction and for another inspection. DESIGN CHOICE, safe, log 23:
the spec does not say what the encoding of a mutation without a vector is (a value or an index too wide for its
field, `None` under `Serial`); here there is none, `none`, and the program has no encoding. An `RF.READ` whose
index no vector names has nothing, as in program P3 of 95_test_vectors.md. -/
def callVectors (s : State) (c : Call) : Option (List Nat) :=
  match c with
  | .vector _ _ v => some [v]
  | .op i =>
    match (s.find i.inst).bind (fun e => vectorOn e i) with
    | some v => some [v]
    | none => if isMutation i then none else some []

/-- The encoding of the calls `cs` made from state `s` on (30_encoding.md R104). A call is encoded in the state the
calls before it left, so that the program's own constructions give each name its format. DESIGN CHOICE, safe, log 23:
calls that stop the machine (a name that denotes no instance) have no encoding. -/
def encodeCalls (s : State) (cs : List Call) : Option (List Nat) :=
  match cs with
  | [] => some []
  | c :: r =>
    match callVectors s c, perform c s with
    | some vs, .next t => (encodeCalls t r).map (vs ++ ·)
    | some _, .fault _ => none
    | some _, .refused _ => none
    | none, _ => none

/-- The encoding of a program, run from reset (30_encoding.md R104); `none` where a line has no expansion (log 22) or
a mutation no vector (log 23). -/
def encodeProgram (p : List Line) : Option (List Nat) := (expandProgram p).bind (encodeCalls State.reset)

/-- The machine after reset with the driver about to make the calls of a program (log 1). -/
def loaded (cs : List Call) : State := { State.reset with calls := cs }

/-- Two calls on the same operands, first low then high (30_encoding.md R103); an operation without a clock operand
has no pulse. -/
def pulse (i : Instr) : List Instr :=
  match withClock false i, withClock true i with
  | some lo, some hi => [lo, hi]
  | _, _ => []

/-- The operations of `is` one after another, stopping at the first fault or refusal. -/
def execAll (is : List Instr) (s : State) : Result :=
  match is with
  | [] => .next s
  | i :: r =>
    match exec i s with
    | .next t => execAll r t
    | .fault f => .fault f
    | .refused q => .refused q

/-- Perform the calls of `cs` one after another, stopping at the first fault or refusal. -/
def performAll (cs : List Call) (s : State) : Result :=
  match cs with
  | [] => .next s
  | c :: r =>
    match perform c s with
    | .next t => performAll r t
    | .fault f => .fault f
    | .refused q => .refused q

end Sys2Proof.Machine
end

