-- ==== Sys2Proof/Safety.lean ====
section
/-! DEFINITION. Safety.lean: the terms the claims use: the invariant of the machine, and what a call leaves. -/

namespace Sys2Proof.Machine

/-- A Counter as the spec allows it: a legal tuple; the pair with `count < M` (45_counter.md R216), or the stage chain
settled, every later stage's line holding the cell before it (45_counter.md R223). -/
def counterOk (p : CounterParams) (c : CounterState) : Bool :=
  counterLegal p &&
  match c with
  | .paired count _ => !isChained p && decide (count < effectiveModulus p)
  | .chained cells lines =>
    isChained p && decide (cells.length = p.width) && decide (lines.length = p.width) &&
      decide ((lines.drop 1).map ClockLine.current = cells.dropLast)

/-- A slot entry inside the file: an index below `N` that is not `ZIDX`, a word of `WORD_W` bits (10_state.md R30). -/
def slotOk (p : FileParams) (e : Nat × Word) : Bool :=
  decide (e.1 < p.slots) && decide (p.zeroIndex ≠ some e.1) && fitsIn p.wordWidth e.2

/-- A RegisterFile as the spec allows it (10_state.md R30). -/
def fileOk (p : FileParams) (f : FileState) : Bool :=
  fileLegal p && Memory.wf f.slots && f.slots.all (slotOk p)

/-- An element as the spec allows it: a legal parameter tuple (00_scope.md R9) and a state in its ranges (10_state.md
R23 to R30). -/
def elementOk (e : Element) : Bool :=
  match e with
  | .clockLine _ | .srLatch _ | .dLatch _ | .dff _ | .jkff _ | .tff _ => true
  | .register w b => registerLegal w && decide (b.cells.length = w)
  | .shiftRegister p b => shiftLegal p && decide (b.cells.length = p.width)
  | .counter p c => counterOk p c
  | .registerFile p f => fileOk p f

/-- An error on a port is that of an existing instance, and is no construction result (60_exceptions.md R263). -/
def errOk (elems : Table Element) (e : Nat × ErrorKind) : Bool :=
  (Table.find elems e.1).isSome && decide (e.2 ≠ .invalidConfiguration)

/-- The invariant of the machine. -/
def State.ok (s : State) : Bool :=
  Table.wf s.elems && s.elems.all (fun e => elementOk e.2) && Table.wf s.errs && s.errs.all (errOk s.elems)

/-- `t` is `s` after a call on `x` that ended in `Ok`: the instance is now `e`, the driver has received `r`, and
nothing else changed: no other instance, no other error port, not the calls still to make. -/
structure CallDone (s : State) (x : Inst) (e : Element) (r : Reply) (t : State) : Prop where
  elem : t.find x = some e
  reply : t.reply = r
  err : t.errOf x = none
  otherElems : ∀ y, y ≠ x → t.find y = s.find y
  otherErrs : ∀ y, y ≠ x → t.errOf y = s.errOf y
  calls : t.calls = s.calls

/-- `t` is `s` after a mutating call on `x` that raised `k` (60_exceptions.md R266): no instance changed, the driver
has received the error, and the error port of `x` shows it. -/
structure CallRaised (s : State) (x : Inst) (k : ErrorKind) (t : State) : Prop where
  elems : t.elems = s.elems
  reply : t.reply = .error k
  err : t.errOf x = some k
  otherErrs : ∀ y, y ≠ x → t.errOf y = s.errOf y
  calls : t.calls = s.calls

/-- The operation completes: it answers a next state, and that state is as `P` says. -/
def Completes (i : Instr) (s : State) (P : State → Prop) : Prop := ∃ t, exec i s = .next t ∧ P t

/-- A list of operations completes: it answers a next state, and that state is as `P` says. -/
def RunCompletes (is : List Instr) (s : State) (P : State → Prop) : Prop := ∃ t, execAll is s = .next t ∧ P t

/-- `n` copies of a list of operations, one after another (`repeat`, 30_encoding.md R104). -/
def times (n : Nat) (is : List Instr) : List Instr := (List.replicate n is).flatten

/-- A call with clock sample `clk` on an element whose line is `l` triggers it: the line is low and the sample high
(70_reset_and_hazards.md R292). -/
def rises (l : ClockLine) (clk : Bool) : Bool := !l.current && clk

/-- The line after a call with clock sample `clk` (40_clockline.md R122). -/
def lineAfter (l : ClockLine) (clk : Bool) : ClockLine := { current := clk, previous := l.current }

/-- The number of rising edges in a sequence of samples that follows the sample `last` (40_clockline.md R126 (d)). -/
def risingEdges (last : Bool) (samples : List Bool) : Nat :=
  match samples with
  | [] => 0
  | v :: r => (!last && v).toNat + risingEdges v r

/-- The ClockLine of a Counter that samples the external clock (10_state.md R28, R29). -/
def externalLine (c : CounterState) : ClockLine :=
  match c with
  | .paired _ l => l
  | .chained _ lines => lines.headD ClockLine.new

/-- The ten kinds of instance (00_scope.md R3, R17). -/
inductive ElementKind where
  | clockLine
  | srLatch
  | dLatch
  | dff
  | jkff
  | tff
  | register
  | shiftRegister
  | counter
  | registerFile
deriving DecidableEq, Repr

/-- The kind of an instance. -/
def elementKind (e : Element) : ElementKind :=
  match e with
  | .clockLine _ => .clockLine
  | .srLatch _ => .srLatch
  | .dLatch _ => .dLatch
  | .dff _ => .dff
  | .jkff _ => .jkff
  | .tff _ => .tff
  | .register _ _ => .register
  | .shiftRegister _ _ => .shiftRegister
  | .counter _ _ => .counter
  | .registerFile _ _ => .registerFile

/-- The kind of instance an operation is for (00_scope.md R17). -/
def operationKind (i : Instr) : ElementKind :=
  match i with
  | .clNew _ | .clSample _ _ | .clRead _ => .clockLine
  | .srlNew _ | .srlHold _ | .srlReset _ | .srlSet _ | .srlInvalid _ | .srlRead _ => .srLatch
  | .dlNew _ | .dlHold _ _ | .dlPass _ _ | .dlRead _ => .dLatch
  | .dffNew _ | .dffStep _ _ _ | .dffRead _ => .dff
  | .jkffNew _ | .jkffHold _ _ | .jkffReset _ _ | .jkffSet _ _ | .jkffToggle _ _ | .jkffRead _ => .jkff
  | .tffNew _ | .tffHold _ _ | .tffToggle _ _ | .tffRead _ => .tff
  | .regNew _ _ | .regHold _ _ _ | .regLoad _ _ _ | .regRead _ => .register
  | .shrNew _ _ _ _ _ | .shrShift _ _ _ | .shrLhold _ _ _ | .shrLoad _ _ _ | .shrRead _ | .shrSout _ => .shiftRegister
  | .shrShiftRZero _ _ _ | .shrShiftRSerial _ _ _ | .shrShiftRRing _ _ _ | .shrShiftRJohnson _ _ _ => .shiftRegister
  | .shrShiftLZero _ _ _ | .shrShiftLSerial _ _ _ | .shrShiftLRing _ _ _ | .shrShiftLJohnson _ _ _ => .shiftRegister
  | .cntNew _ _ _ _ _ | .cntTick _ _ | .cntTickup _ _ | .cntTickdn _ _ | .cntRead _ => .counter
  | .rfNew _ _ _ _ _ | .rfWhold _ _ _ _ | .rfWrite _ _ _ _ | .rfRead _ _ => .registerFile

/-- The operation is an inspection: a `read`, or the serial output (30_encoding.md R102). -/
def isInspection (i : Instr) : Prop := isRead i = true ∨ i = .shrSout i.inst

end Sys2Proof.Machine
end

