-- ==== Sys2Proof/Certificates/Slice0/Obligations.lean ====
section
/-! DEFINITION. Obligations.lean: the statements for the provers. `CallDone s x e r t` says that instance `x` is now
`e`, that the driver received `r`, and that nothing else changed; `rises l clk` that the call triggers. Where a
statement rests on a choice the spec marks as its own decision or derivation, or on one of the model's, its docstring
says so. -/

open Sys2Proof Sys2Proof.Machine

/-! ### Encoding -/

/-- Decoding the vector of an operation gives the operation back, every operand at every value its field admits:
an optional serial bit arrives as the level it is written as, `SHR.SHIFT` as the form the parameters select; any other
operation arrives as it was (the spec's own layout, 92_eei_decisions.md D3). -/
def Obligations.EncodedOperationsDecodeBack : Prop :=
  ∀ (f : Format) (i : Instr) (v : Nat), encode f i = some v →
    decode f i.inst v = .ok (i.onPorts f) ∧ encode f (i.onPorts f) = some v ∧
    (i.mapMnemonic ≠ "SHR.SHIFT" → i.onPorts f = i)

/-- Every number below `2 ^ width` is the vector of exactly one row of the operation map, the row of the operation it
decodes to (the partition is the spec's own derivation, 30_encoding.md R96); a wider number is rejected by name (the
model's reading of R88 and the decision D33, log 8). -/
def Obligations.EveryVectorIsOneOperation : Prop :=
  ∀ (f : Format) (x : Inst) (v : Nat),
    (v < 2 ^ f.width → ∃ i, decode f x v = .ok i ∧ i.inst = x ∧ wellFormed f i = true ∧
      (opMap.filter (fun r => decide (r.format = f.name) && r.selects v)).map (·.mnemonic) = [i.mapMnemonic]) ∧
    (2 ^ f.width ≤ v → decode f x v = .error (.vectorTooWide f.width))

/-- In the formats without ignored fields no bit of a vector is dropped. -/
def Obligations.VectorsEncodeBack : Prop :=
  ∀ (f : Format) (x : Inst) (v : Nat), v < 2 ^ f.width → f.name ≠ "SHR" → f.name ≠ "CNT" →
    ∃ i, decode f x v = .ok i ∧ encode f i = some v

/-- Words written out from the spec's vectors (95_test_vectors.md) decode to the operation they stand for. -/
def Obligations.WorkedVectorsDecode : Prop :=
  decode .cl 0 0b1 = .ok (.clSample 0 true) ∧
  decode .srl 0 0b10 = .ok (.srlSet 0) ∧
  decode .dl 0 0b01 = .ok (.dlPass 0 false) ∧
  decode .dff 0 0b10 = .ok (.dffStep 0 true false) ∧
  decode .jkff 0 0b011 = .ok (.jkffReset 0 true) ∧
  decode .tff 0 0b11 = .ok (.tffToggle 0 true) ∧
  decode (.reg 4) 0 0x2B = .ok (.regLoad 0 0b1010 true) ∧
  decode (.shr 4 .right .serial) 0 0x09 = .ok (.shrShiftRSerial 0 (some true) true) ∧
  decode (.shr 4 .left .ring) 0 0x16 = .ok (.shrLoad 0 0b0001 false) ∧
  decode .cnt 0 0b110 = .ok (.cntTickdn 0 false) ∧
  decode (.rfw 5 64) 0 0x91A17 = .ok (.rfWrite 0 5 0x1234 true) ∧
  decode (.rfr 5) 0 0x1F = .ok (.rfRead 0 31)

/-- The address width is the least number of bits, and at least one, that holds every index (00_scope.md R11, D3). -/
def Obligations.AddressWidthIsLeast : Prop :=
  ∀ n, 1 ≤ n → 1 ≤ addrWidth n ∧ n ≤ 2 ^ addrWidth n ∧ ∀ b, 1 ≤ b → n ≤ 2 ^ b → addrWidth n ≤ b

/-! ### The step -/

/-- A step takes the driver's next call from the list and runs its operation: a typed call as it is, a vector as the
operation it decodes to in the format of its port. With no call left nothing changes. (The call list is the model's
choice, log 1.) -/
def Obligations.StepRunsTheNextCall : Prop :=
  (∀ (s : State) (i : Instr) (rest : List Call), s.calls = .op i :: rest →
    step s = exec i { s with calls := rest }) ∧
  (∀ (s : State) (x : Inst) (p : Port) (v : Nat) (rest : List Call) (e : Element) (f : Format) (i : Instr),
    s.calls = .vector x p v :: rest → s.find x = some e → e.format p = some f → decode f x v = .ok i →
    step s = exec i { s with calls := rest }) ∧
  (∀ s : State, s.calls = [] → step s = .next s)

/-- A vector stops the step by name when its instance does not exist, when the instance has no such port, and when it
has a bit above its format's width (the model's choice, logs 6, 8, 15). -/
def Obligations.UnreadableVectorsStopTheStep : Prop :=
  ∀ (s : State) (x : Inst) (p : Port) (v : Nat) (rest : List Call), s.calls = .vector x p v :: rest →
    (s.find x = none → step s = .fault (.noInstance x)) ∧
    (∀ e, s.find x = some e → e.format p = none → step s = .refused (.noPort x)) ∧
    (∀ e f, s.find x = some e → e.format p = some f → 2 ^ f.width ≤ v → step s = .refused (.vectorTooWide x))

/-! ### The invariant -/

/-- Right after reset no instance exists, and the invariant holds (the three fields beside the instances are the
model's, logs 1 to 3). -/
def Obligations.ResetHasNoInstanceAndIsOk : Prop :=
  State.reset.ok = true ∧ (∀ x, State.reset.find x = none) ∧ (∀ x, State.reset.errOf x = none)

/-- Every step keeps the invariant: names rise strictly, every parameter tuple stays legal, every bank keeps its
width, every count stays below its modulus, every ripple chain stays settled, every file keeps its slots in canonical
form, in range and without an entry for its zero index. -/
def Obligations.StepKeepsTheInvariant : Prop :=
  ∀ s t : State, s.ok = true → step s = .next t → t.ok = true

/-- In every state that meets the invariant, the zero index and every index outside the file hold nothing, and every
slot holds a word of `WORD_W` bits. -/
def Obligations.SlotsStayInRange : Prop :=
  ∀ (s : State) (x : Inst) (p : FileParams) (f : FileState), s.ok = true → s.find x = some (.registerFile p f) →
    (∀ z, p.zeroIndex = some z → Memory.read f.slots z = 0) ∧
    (∀ i, p.slots ≤ i → Memory.read f.slots i = 0) ∧
    (∀ i, Memory.read f.slots i < 2 ^ p.wordWidth)

/-! ### Constructions -/

/-- A construction with a legal tuple makes an instance in its reset state, whatever the name was bound to before
(reset values: the spec's decision D5, log 17; rebinding: the model's choice, log 5). -/
def Obligations.ConstructionsMakeResetInstances : Prop :=
  ∀ (s : State) (x : Inst),
    Completes (.clNew x) s (CallDone s x (.clockLine ⟨false, false⟩) .ok) ∧
    Completes (.srlNew x) s (CallDone s x (.srLatch false) .ok) ∧
    Completes (.dlNew x) s (CallDone s x (.dLatch false) .ok) ∧
    Completes (.dffNew x) s (CallDone s x (.dff ⟨false, ⟨false, false⟩⟩) .ok) ∧
    Completes (.jkffNew x) s (CallDone s x (.jkff ⟨false, ⟨false, false⟩⟩) .ok) ∧
    Completes (.tffNew x) s (CallDone s x (.tff ⟨false, ⟨false, false⟩⟩) .ok) ∧
    (∀ w, 1 ≤ w → Completes (.regNew x w) s
      (CallDone s x (.register w ⟨List.replicate w false, ⟨false, false⟩⟩) .ok)) ∧
    (∀ w d p init, 1 ≤ w → init.getD 0 < 2 ^ w → Completes (.shrNew x w d p init) s
      (CallDone s x (.shiftRegister ⟨w, d, p, init.getD 0⟩
        ⟨(List.range w).map (fun i => (init.getD 0).testBit i), ⟨false, false⟩⟩) .ok)) ∧
    (∀ w m d y, 1 ≤ w → (∀ k, m = some k → 1 ≤ k ∧ k ≤ 2 ^ w) → (y = some .ripple → m ≠ none) →
      Completes (.cntNew x w m d y) s (CallDone s x (.counter ⟨w, m, d.getD .up, y.getD .synchronous⟩
        (.paired 0 ⟨false, false⟩)) .ok)) ∧
    (∀ w d, 1 ≤ w → Completes (.cntNew x w none d (some .ripple)) s
      (CallDone s x (.counter ⟨w, none, d.getD .up, .ripple⟩
        (.chained (List.replicate w false) (List.replicate w ⟨false, false⟩))) .ok)) ∧
    (∀ n z w r, 1 ≤ n → (∀ k, z = some k → k < n) → w ≠ some 0 → r ≠ some 0 → Completes (.rfNew x n z w r) s
      (CallDone s x (.registerFile ⟨n, z, w.getD 64, r.getD 2⟩ ⟨[], ⟨false, false⟩⟩) .ok))

/-- A construction with an illegal tuple returns `InvalidConfiguration` and makes no instance: nothing but the reply
changes (60_exceptions.md R263, the spec's decision D29; R266). On a name already bound the old instance and its error
port are kept, which is the model's choice (logs 5, 3). -/
def Obligations.IllegalTuplesMakeNothing : Prop :=
  ∀ (s : State) (x : Inst),
    exec (.regNew x 0) s = .next { s with reply := .error .invalidConfiguration } ∧
    (∀ w d p init, (w = 0 ∨ ∃ v, init = some v ∧ 2 ^ w ≤ v) →
      exec (.shrNew x w d p init) s = .next { s with reply := .error .invalidConfiguration }) ∧
    (∀ w m d y, (w = 0 ∨ m = some 0 ∨ ∃ k, m = some k ∧ 2 ^ w < k) →
      exec (.cntNew x w m d y) s = .next { s with reply := .error .invalidConfiguration }) ∧
    (∀ n z w r, (n = 0 ∨ (∃ k, z = some k ∧ n ≤ k) ∨ w = some 0 ∨ r = some 0) →
      exec (.rfNew x n z w r) s = .next { s with reply := .error .invalidConfiguration })

/-! ### Inspections -/

/-- The `read` of a latch or flip-flop returns its bit, that of a Counter its count, and nothing but the reply
changes. The count of a stage chain is the value of its cells (10_state.md R29, the spec's decision D17; log 13); that a
read leaves the port `err` of an SR latch as it is, is the model's choice (log 3). -/
def Obligations.ReadsReturnTheStoredValue : Prop :=
  ∀ (s : State) (x : Inst),
    (∀ q, s.find x = some (.srLatch q) → exec (.srlRead x) s = .next { s with reply := .bit q }) ∧
    (∀ q, s.find x = some (.dLatch q) → exec (.dlRead x) s = .next { s with reply := .bit q }) ∧
    (∀ f, s.find x = some (.dff f) → exec (.dffRead x) s = .next { s with reply := .bit f.value }) ∧
    (∀ f, s.find x = some (.jkff f) → exec (.jkffRead x) s = .next { s with reply := .bit f.value }) ∧
    (∀ f, s.find x = some (.tff f) → exec (.tffRead x) s = .next { s with reply := .bit f.value }) ∧
    (∀ p n l, s.find x = some (.counter p (.paired n l)) → exec (.cntRead x) s = .next { s with reply := .word n }) ∧
    (∀ p cells ls, s.find x = some (.counter p (.chained cells ls)) →
      exec (.cntRead x) s = .next { s with
        reply := .word (∑ i ∈ Finset.range cells.length, (cells.getD i false).toNat * 2 ^ i) })

/-- The `read` of a Register or ShiftRegister returns the binary value of its cells, bit 0 first, and nothing but the
reply changes. -/
def Obligations.BankReadsAreBinaryValues : Prop :=
  ∀ (s : State) (x : Inst) (b : CellBank),
    (∀ w, s.find x = some (.register w b) →
      exec (.regRead x) s = .next { s with
        reply := .word (∑ i ∈ Finset.range b.cells.length, (b.cells.getD i false).toNat * 2 ^ i) }) ∧
    (∀ p, s.find x = some (.shiftRegister p b) →
      exec (.shrRead x) s = .next { s with
        reply := .word (∑ i ∈ Finset.range b.cells.length, (b.cells.getD i false).toNat * 2 ^ i) })

/-- `CL.READ` returns the two fields, `SHR.SOUT` the cell at the exit end, and nothing but the reply changes (both
operations are decisions of the spec, D31 and D23). -/
def Obligations.LineAndSerialOutputReads : Prop :=
  ∀ (s : State) (x : Inst),
    (∀ l, s.find x = some (.clockLine l) →
      exec (.clRead x) s = .next { s with reply := .lines l.current l.previous }) ∧
    (∀ p b, s.find x = some (.shiftRegister p b) → b.cells.length = p.width → 1 ≤ p.width →
      exec (.shrSout x) s = .next { s with
        reply := .bit (b.cells.getD (if p.dir = .right then 0 else p.width - 1) false) })

/-- The output ports show the state (30_encoding.md R90, the spec's decision D2): `q` the stored bit or the binary value
of the cells, `sout` the cell at the exit end (decision D23), `count` the count, `cur` and `prev` the two fields. On
a new instance `edge` reads `None` and the error ports read `Ok` (R91, 60_exceptions.md R261), under a name already
bound too (the model's choice, logs 3, 5, 20). -/
def Obligations.OutputPortsShowTheState : Prop :=
  ∀ (s : State) (x : Inst),
    (∀ l, s.find x = some (.clockLine l) → curPort s x = some l.current ∧ prevPort s x = some l.previous) ∧
    (∀ q, s.find x = some (.srLatch q) → qPort s x = some q.toNat) ∧
    (∀ q, s.find x = some (.dLatch q) → qPort s x = some q.toNat) ∧
    (∀ f, s.find x = some (.dff f) → qPort s x = some f.value.toNat) ∧
    (∀ f, s.find x = some (.jkff f) → qPort s x = some f.value.toNat) ∧
    (∀ f, s.find x = some (.tff f) → qPort s x = some f.value.toNat) ∧
    (∀ w b, s.find x = some (.register w b) →
      qPort s x = some (∑ i ∈ Finset.range b.cells.length, (b.cells.getD i false).toNat * 2 ^ i)) ∧
    (∀ p b, s.find x = some (.shiftRegister p b) →
      qPort s x = some (∑ i ∈ Finset.range b.cells.length, (b.cells.getD i false).toNat * 2 ^ i) ∧
      (b.cells.length = p.width → 1 ≤ p.width →
        soutPort s x = some (b.cells.getD (if p.dir = .right then 0 else p.width - 1) false))) ∧
    (∀ p n l, s.find x = some (.counter p (.paired n l)) → countPort s x = some n) ∧
    (∀ p cells ls, s.find x = some (.counter p (.chained cells ls)) →
      countPort s x = some (∑ i ∈ Finset.range cells.length, (cells.getD i false).toNat * 2 ^ i)) ∧
    Completes (.clNew x) s (fun t => edgePort t x = some 0) ∧
    Completes (.srlNew x) s (fun t => errPort t x = some 0) ∧
    (∀ n, 1 ≤ n → Completes (.rfNew x n none none none) s (fun t => werrPort t x = some 0))

/-- An inspection changes nothing but the reply: no instance, no ClockLine (20_memory.md R68), and no error port, which
is the model's choice (log 3). -/
def Obligations.InspectionsArePure : Prop :=
  ∀ (i : Instr) (s t : State), isInspection i → exec i s = .next t → t = { s with reply := t.reply }

/-! ### ClockLine -/

/-- `sample` reports the edge between the last sample and the new one, and moves the fields on; its vector is the
new sample. -/
def Obligations.SampleReportsTheEdge : Prop :=
  ∀ (s : State) (x : Inst) (l : ClockLine) (v : Bool), s.find x = some (.clockLine l) →
    Completes (.clSample x v) s (CallDone s x (.clockLine { current := v, previous := l.current })
      (.edge (if l.current = false ∧ v = true then .rising
        else if l.current = true ∧ v = false then .falling else .none))) ∧
    decode .cl x v.toNat = .ok (.clSample x v)

/-- After a `sample` the port `edge` shows the edge it returned in the code of 30_encoding.md R91 (0 for `None`, 1 for
`Rising`, 2 for `Falling`), and `cur` and `prev` its two samples (the port reads the two fields: the model's choice,
log 20). -/
def Obligations.EdgePortShowsTheLatestSample : Prop :=
  ∀ (s t : State) (x : Inst) (l : ClockLine) (v : Bool), s.find x = some (.clockLine l) →
    exec (.clSample x v) s = .next t →
    (l.current = v → t.reply = .edge .none ∧ edgePort t x = some 0) ∧
    (l.current = false → v = true → t.reply = .edge .rising ∧ edgePort t x = some 1) ∧
    (l.current = true → v = false → t.reply = .edge .falling ∧ edgePort t x = some 2) ∧
    curPort t x = some v ∧ prevPort t x = some l.current

/-- A Counter counts the rising edges of the samples it is given: after any sequence of up ticks its count is the
start value plus the number of low to high steps, modulo `M` (40_clockline.md R126 (d), 45_counter.md R217). -/
def Obligations.UpTicksCountRisingEdges : Prop :=
  ∀ (s : State) (x : Inst) (p : CounterParams) (c : CounterState) (samples : List Bool),
    s.find x = some (.counter p c) → counterOk p c = true →
    RunCompletes (samples.map (fun v => .cntTickup x v) ++ [.cntRead x]) s (fun t =>
      t.reply = .word ((countOf c + risingEdges (externalLine c).current samples) % effectiveModulus p))

/-! ### Latches -/

/-- The three legal input pairs of the SR latch, with their vectors: hold, reset, set. -/
def Obligations.SrLatchHoldsResetsSets : Prop :=
  ∀ (s : State) (x : Inst) (q : Bool), s.find x = some (.srLatch q) →
    Completes (.srlHold x) s (CallDone s x (.srLatch q) .ok) ∧
    Completes (.srlReset x) s (CallDone s x (.srLatch false) .ok) ∧
    Completes (.srlSet x) s (CallDone s x (.srLatch true) .ok) ∧
    decode .srl x 0b00 = .ok (.srlHold x) ∧ decode .srl x 0b01 = .ok (.srlReset x) ∧
    decode .srl x 0b10 = .ok (.srlSet x)

/-- The forbidden pair raises `InvalidState`; `q` and everything else stays, and the latch works afterwards (that the
state is kept is the spec's decision D14, log 10). -/
def Obligations.ForbiddenSrInputRaises : Prop :=
  ∀ (s : State) (x : Inst) (q : Bool), s.find x = some (.srLatch q) →
    Completes (.srlInvalid x) s (fun t => CallRaised s x .invalidState t ∧ errPort t x = some 1 ∧
      qPort t x = some q.toNat ∧ Completes (.srlReset x) t (CallDone t x (.srLatch false) .ok))

/-- The D latch holds while `enable` is low and copies `d` while it is high, whatever the call before was; its vector
is `d`, then `enable` in bit 0. -/
def Obligations.DLatchHoldsAndPasses : Prop :=
  ∀ (s : State) (x : Inst) (q d : Bool), s.find x = some (.dLatch q) →
    Completes (.dlHold x d) s (CallDone s x (.dLatch q) .ok) ∧
    Completes (.dlPass x d) s (CallDone s x (.dLatch d) .ok) ∧
    decode .dl x (2 * d.toNat) = .ok (.dlHold x d) ∧ decode .dl x (2 * d.toNat + 1) = .ok (.dlPass x d)

/-! ### Flip-flops -/

/-- The D flip-flop takes `data` on a rising edge and on nothing else; the line is sampled in every call; its vector
is `data`, then the clock sample in bit 0. -/
def Obligations.DFlipFlopCapturesOnRisingEdge : Prop :=
  ∀ (s : State) (x : Inst) (f : FlipFlop) (d clk : Bool), s.find x = some (.dff f) →
    Completes (.dffStep x d clk) s
      (CallDone s x (.dff ⟨if rises f.clkLine clk then d else f.value, lineAfter f.clkLine clk⟩) .ok) ∧
    decode .dff x (2 * d.toNat + clk.toNat) = .ok (.dffStep x d clk)

/-- After a low call and a high call the flip-flop holds the second call's data, whatever it held. -/
def Obligations.DFlipFlopCaptureLaw : Prop :=
  ∀ (s : State) (x : Inst) (f : FlipFlop) (d d' : Bool), s.find x = some (.dff f) →
    RunCompletes [.dffStep x d false, .dffStep x d' true, .dffRead x] s (fun t => t.reply = .bit d')

/-- The JK flip-flop on a rising edge: hold, reset, set, toggle; without one the value stays (the table is the spec's
own, from general knowledge, D22, log 19). -/
def Obligations.JkFlipFlopFollowsItsTable : Prop :=
  ∀ (s : State) (x : Inst) (f : FlipFlop) (clk : Bool), s.find x = some (.jkff f) →
    Completes (.jkffHold x clk) s (CallDone s x (.jkff ⟨f.value, lineAfter f.clkLine clk⟩) .ok) ∧
    Completes (.jkffReset x clk) s
      (CallDone s x (.jkff ⟨if rises f.clkLine clk then false else f.value, lineAfter f.clkLine clk⟩) .ok) ∧
    Completes (.jkffSet x clk) s
      (CallDone s x (.jkff ⟨if rises f.clkLine clk then true else f.value, lineAfter f.clkLine clk⟩) .ok) ∧
    Completes (.jkffToggle x clk) s
      (CallDone s x (.jkff ⟨if rises f.clkLine clk then !f.value else f.value, lineAfter f.clkLine clk⟩) .ok)

/-- The T flip-flop toggles on a rising edge with `t = 1` only, and `n` pulses toggle it when `n` is odd; its vector
is `t`, then the clock sample in bit 0. -/
def Obligations.TFlipFlopTogglesOnRisingEdges : Prop :=
  ∀ (s : State) (x : Inst) (f : FlipFlop), s.find x = some (.tff f) →
    (∀ clk, Completes (.tffHold x clk) s (CallDone s x (.tff ⟨f.value, lineAfter f.clkLine clk⟩) .ok)) ∧
    (∀ clk, Completes (.tffToggle x clk) s
      (CallDone s x (.tff ⟨if rises f.clkLine clk then !f.value else f.value, lineAfter f.clkLine clk⟩) .ok)) ∧
    (∀ n c, RunCompletes (times n (pulse (.tffToggle x c)) ++ [.tffRead x]) s
      (fun t => t.reply = .bit (if n % 2 = 0 then f.value else !f.value))) ∧
    (∀ clk : Bool, decode .tff x clk.toNat = .ok (.tffHold x clk) ∧
      decode .tff x (2 + clk.toNat) = .ok (.tffToggle x clk))

/-! ### Register -/

/-- A load samples the clock; on a rising edge with `enable = 1` all cells take the bits of `value`, which a read then
returns; in every other call no cell changes. The vector is `value`, then `enable`, then the clock sample in bit 0. -/
def Obligations.RegisterLoadsOnRisingEdge : Prop :=
  ∀ (s : State) (x : Inst) (w : Nat) (b : CellBank) (value : Word) (clk : Bool),
    s.find x = some (.register w b) → value < 2 ^ w →
    Completes (.regLoad x value clk) s (CallDone s x (.register w
      ⟨if rises b.clkLine clk then (List.range w).map (fun i => value.testBit i) else b.cells,
        lineAfter b.clkLine clk⟩) .ok) ∧
    Completes (.regHold x value clk) s (CallDone s x (.register w ⟨b.cells, lineAfter b.clkLine clk⟩) .ok) ∧
    (rises b.clkLine clk = true →
      RunCompletes [.regLoad x value clk, .regRead x] s (fun t => t.reply = .word value)) ∧
    decode (.reg w) x (4 * value + 2 + clk.toNat) = .ok (.regLoad x value clk)

/-- A load with `enable = 0` never changes the stored value, in one call or over any number of calls; each call
samples the clock. Its vector has `enable = 0` in bit 1. -/
def Obligations.DisabledLoadsNeverChangeTheValue : Prop :=
  ∀ (s : State) (x : Inst) (w : Nat) (b : CellBank), s.find x = some (.register w b) →
    (∀ value clk, value < 2 ^ w →
      Completes (.regHold x value clk) s (CallDone s x (.register w ⟨b.cells, lineAfter b.clkLine clk⟩) .ok)) ∧
    (∀ calls : List (Word × Bool), (∀ c ∈ calls, c.1 < 2 ^ w) →
      RunCompletes (calls.map (fun c => .regHold x c.1 c.2)) s (fun t =>
        ∃ l, t.find x = some (.register w ⟨b.cells, l⟩) ∧
          l.current = (calls.getLast?.map (·.2)).getD b.clkLine.current ∧
          ∀ y, y ≠ x → t.find y = s.find y)) ∧
    (∀ (value : Word) (clk : Bool), value < 2 ^ w →
      decode (.reg w) x (4 * value + clk.toNat) = .ok (.regHold x value clk))

/-- A Register is a bank of D flip-flops: cell `i` and its line stay equal to a D flip-flop that is stepped with bit
`i` of `value` when the load is enabled and with its own value when it is not (43_register.md R169 (d)). -/
def Obligations.RegisterIsABankOfFlipFlops : Prop :=
  ∀ (s : State) (x y : Inst) (w i : Nat) (b : CellBank) (c enable clk : Bool) (value : Word),
    x ≠ y → value < 2 ^ w → b.cells.length = w → b.cells[i]? = some c →
    s.find x = some (.register w b) → s.find y = some (.dff ⟨c, b.clkLine⟩) →
    RunCompletes [if enable then .regLoad x value clk else .regHold x value clk,
        .dffStep y (if enable then value.testBit i else c) clk] s (fun t =>
      ∃ b' c', t.find x = some (.register w b') ∧ t.find y = some (.dff ⟨c', b'.clkLine⟩) ∧ b'.cells[i]? = some c')

/-! ### ShiftRegister -/

/-- The whole `shift`: on a rising edge every cell moves one place toward the exit end and the incoming bit enters;
`serial_in = None` under `Serial` raises `InvalidState` and changes nothing; the form named for the parameters does
the same. -/
def Obligations.ShiftMovesEveryCellOnePlace : Prop :=
  ∀ (s : State) (x : Inst) (p : ShiftParams) (b : CellBank) (serialIn : Option Bool) (clk : Bool),
    s.find x = some (.shiftRegister p b) → b.cells.length = p.width → 1 ≤ p.width →
    exec (.shrShift x serialIn clk) s = exec (shiftForm x p.dir p.fill serialIn clk) s ∧
    (p.fill = .serial → serialIn = none →
      Completes (.shrShift x serialIn clk) s (CallRaised s x .invalidState)) ∧
    (p.fill ≠ .serial ∨ serialIn ≠ none →
      Completes (.shrShift x serialIn clk) s (fun t => ∃ cells,
        CallDone s x (.shiftRegister p ⟨cells, lineAfter b.clkLine clk⟩) .ok t ∧ cells.length = p.width ∧
        (rises b.clkLine clk = false → cells = b.cells) ∧
        (rises b.clkLine clk = true →
          (p.dir = .right → (∀ i, i + 1 < p.width → cells[i]? = b.cells[i + 1]?) ∧
            cells[p.width - 1]? = (match p.fill with
              | .zero => some false
              | .serial => serialIn
              | .ring => b.cells[0]?
              | .johnson => b.cells[0]?.map (fun o => !o))) ∧
          (p.dir = .left → (∀ i, i + 1 < p.width → cells[i + 1]? = b.cells[i]?) ∧
            cells[0]? = (match p.fill with
              | .zero => some false
              | .serial => serialIn
              | .ring => b.cells[p.width - 1]?
              | .johnson => b.cells[p.width - 1]?.map (fun o => !o))))))

/-- Zero fill: a rising edge is a logical shift by one, and after `W` pulses the value is 0 from any state. -/
def Obligations.ZeroFillShiftsOutEverything : Prop :=
  ∀ (s : State) (x : Inst) (p : ShiftParams) (b : CellBank) (serialIn : Option Bool) (clk : Bool),
    s.find x = some (.shiftRegister p b) → b.cells.length = p.width → 1 ≤ p.width → p.fill = .zero →
    (p.dir = .right →
      Completes (.shrShiftRZero x serialIn clk) s (fun t => ∃ cells,
        CallDone s x (.shiftRegister p ⟨cells, lineAfter b.clkLine clk⟩) .ok t ∧ cells.length = p.width ∧
        val cells = if rises b.clkLine clk then val b.cells / 2 else val b.cells) ∧
      RunCompletes (times p.width (pulse (.shrShiftRZero x serialIn clk)) ++ [.shrRead x]) s
        (fun t => t.reply = .word 0)) ∧
    (p.dir = .left →
      Completes (.shrShiftLZero x serialIn clk) s (fun t => ∃ cells,
        CallDone s x (.shiftRegister p ⟨cells, lineAfter b.clkLine clk⟩) .ok t ∧ cells.length = p.width ∧
        val cells = if rises b.clkLine clk then (2 * val b.cells) % 2 ^ p.width else val b.cells) ∧
      RunCompletes (times p.width (pulse (.shrShiftLZero x serialIn clk)) ++ [.shrRead x]) s
        (fun t => t.reply = .word 0))

/-- Serial fill: a rising edge takes the serial bit at the entry end, and after `W` pulses the cells are the `W` bits
sent, the first one at the exit end. -/
def Obligations.SerialFillTakesTheSerialBit : Prop :=
  ∀ (s : State) (x : Inst) (p : ShiftParams) (b : CellBank) (bit clk : Bool),
    s.find x = some (.shiftRegister p b) → b.cells.length = p.width → 1 ≤ p.width → p.fill = .serial →
    (p.dir = .right →
      Completes (.shrShiftRSerial x (some bit) clk) s (fun t => ∃ cells,
        CallDone s x (.shiftRegister p ⟨cells, lineAfter b.clkLine clk⟩) .ok t ∧ cells.length = p.width ∧
        val cells =
          if rises b.clkLine clk then val b.cells / 2 + bit.toNat * 2 ^ (p.width - 1) else val b.cells) ∧
      (∀ bits : List Bool, bits.length = p.width →
        RunCompletes (bits.flatMap (fun c => pulse (.shrShiftRSerial x (some c) clk))) s (fun t =>
          ∃ l, t.find x = some (.shiftRegister p ⟨bits, l⟩)))) ∧
    (p.dir = .left →
      Completes (.shrShiftLSerial x (some bit) clk) s (fun t => ∃ cells,
        CallDone s x (.shiftRegister p ⟨cells, lineAfter b.clkLine clk⟩) .ok t ∧ cells.length = p.width ∧
        val cells =
          if rises b.clkLine clk then (2 * val b.cells) % 2 ^ p.width + bit.toNat else val b.cells) ∧
      (∀ bits : List Bool, bits.length = p.width →
        RunCompletes (bits.flatMap (fun c => pulse (.shrShiftLSerial x (some c) clk))) s (fun t =>
          ∃ l, t.find x = some (.shiftRegister p ⟨bits.reverse, l⟩))))

/-- A serial form without a serial bit is refused as the error it is: `InvalidState`, nothing sampled, nothing
changed (44_shift_register.md R190, the spec's decision D8). -/
def Obligations.SerialFormsNeedASerialBit : Prop :=
  ∀ (s : State) (x : Inst) (p : ShiftParams) (b : CellBank) (clk : Bool),
    s.find x = some (.shiftRegister p b) → p.fill = .serial →
    (p.dir = .right → Completes (.shrShiftRSerial x none clk) s (CallRaised s x .invalidState)) ∧
    (p.dir = .left → Completes (.shrShiftLSerial x none clk) s (CallRaised s x .invalidState))

/-- Ring fill: a rising edge rotates the cells by one. -/
def Obligations.RingFillRotates : Prop :=
  ∀ (s : State) (x : Inst) (p : ShiftParams) (b : CellBank) (serialIn : Option Bool) (clk : Bool),
    s.find x = some (.shiftRegister p b) → b.cells.length = p.width → 1 ≤ p.width → p.fill = .ring →
    (p.dir = .right →
      Completes (.shrShiftRRing x serialIn clk) s (fun t => ∃ cells,
        CallDone s x (.shiftRegister p ⟨cells, lineAfter b.clkLine clk⟩) .ok t ∧ cells.length = p.width ∧
        val cells = if rises b.clkLine clk then val b.cells / 2 + (val b.cells % 2) * 2 ^ (p.width - 1)
          else val b.cells)) ∧
    (p.dir = .left →
      Completes (.shrShiftLRing x serialIn clk) s (fun t => ∃ cells,
        CallDone s x (.shiftRegister p ⟨cells, lineAfter b.clkLine clk⟩) .ok t ∧ cells.length = p.width ∧
        val cells = if rises b.clkLine clk then (2 * val b.cells) % 2 ^ p.width + val b.cells / 2 ^ (p.width - 1)
          else val b.cells))

/-- Johnson fill: a rising edge feeds the complement of the outgoing bit back. -/
def Obligations.JohnsonFillFeedsBackTheComplement : Prop :=
  ∀ (s : State) (x : Inst) (p : ShiftParams) (b : CellBank) (serialIn : Option Bool) (clk : Bool),
    s.find x = some (.shiftRegister p b) → b.cells.length = p.width → 1 ≤ p.width → p.fill = .johnson →
    (p.dir = .right →
      Completes (.shrShiftRJohnson x serialIn clk) s (fun t => ∃ cells,
        CallDone s x (.shiftRegister p ⟨cells, lineAfter b.clkLine clk⟩) .ok t ∧ cells.length = p.width ∧
        val cells = if rises b.clkLine clk then val b.cells / 2 + (1 - val b.cells % 2) * 2 ^ (p.width - 1)
          else val b.cells)) ∧
    (p.dir = .left →
      Completes (.shrShiftLJohnson x serialIn clk) s (fun t => ∃ cells,
        CallDone s x (.shiftRegister p ⟨cells, lineAfter b.clkLine clk⟩) .ok t ∧ cells.length = p.width ∧
        val cells = if rises b.clkLine clk then (2 * val b.cells) % 2 ^ p.width + (1 - val b.cells / 2 ^ (p.width - 1))
          else val b.cells))

/-- Ring laws, either direction and any state: no pulse changes the number of ones, and `W` pulses give the cells
back (44_shift_register.md R196 (a), (b)). -/
def Obligations.RingShiftsReturnAfterWidthPulses : Prop :=
  ∀ (s : State) (x : Inst) (p : ShiftParams) (b : CellBank) (c : Bool),
    s.find x = some (.shiftRegister p b) → b.cells.length = p.width → 1 ≤ p.width → p.fill = .ring →
    (∀ n, RunCompletes (times n (pulse (.shrShift x none c))) s (fun t =>
      ∃ cells l, t.find x = some (.shiftRegister p ⟨cells, l⟩) ∧ cells.count true = b.cells.count true)) ∧
    RunCompletes (times p.width (pulse (.shrShift x none c))) s (fun t =>
      ∃ l, t.find x = some (.shiftRegister p ⟨b.cells, l⟩))

/-- The ring counter: from `INIT = 1` the single one walks through the `W` places with period `W`, upward for `Left`
and downward for `Right` (44_shift_register.md R196 (c), a derivation of the spec). The construction under a name
already bound is the model's choice (log 5). -/
def Obligations.RingCounterWalksOneBit : Prop :=
  ∀ (s : State) (x : Inst) (w n : Nat) (c : Bool), 1 ≤ w →
    RunCompletes (.shrNew x w .left .ring (some 1) :: times n (pulse (.shrShiftLRing x none c)) ++ [.shrRead x]) s
      (fun t => t.reply = .word (2 ^ (n % w))) ∧
    RunCompletes (.shrNew x w .right .ring (some 1) :: times n (pulse (.shrShiftRRing x none c)) ++ [.shrRead x]) s
      (fun t => t.reply = .word (2 ^ ((w - n % w) % w)))

/-- Johnson laws, either direction and any state: `W` pulses give the complement, `2W` the cells themselves
(44_shift_register.md R197 (a), (b)). -/
def Obligations.JohnsonShiftsComplementAfterWidthPulses : Prop :=
  ∀ (s : State) (x : Inst) (p : ShiftParams) (b : CellBank) (c : Bool),
    s.find x = some (.shiftRegister p b) → b.cells.length = p.width → 1 ≤ p.width → p.fill = .johnson →
    RunCompletes (times p.width (pulse (.shrShift x none c))) s (fun t =>
      ∃ l, t.find x = some (.shiftRegister p ⟨b.cells.map (fun v => !v), l⟩)) ∧
    RunCompletes (times (2 * p.width) (pulse (.shrShift x none c))) s (fun t =>
      ∃ l, t.find x = some (.shiftRegister p ⟨b.cells, l⟩))

/-- The Johnson counter from the all-zero state, either direction, runs through `2W` pairwise distinct states
(44_shift_register.md R197 (c), a derivation of the spec): for `Left` `k` ones at the low end for the first `W` pulses,
then zeros fill from the low end; for `Right` the mirror image, from the high end. The construction under a name already
bound is the model's choice (log 5). -/
def Obligations.JohnsonCounterCycleFromZero : Prop :=
  ∀ (s : State) (x : Inst) (w n : Nat) (c : Bool), 1 ≤ w → n < 2 * w →
    RunCompletes (.shrNew x w .left .johnson none :: times n (pulse (.shrShiftLJohnson x none c)) ++ [.shrRead x]) s
      (fun t => t.reply = .word (if n ≤ w then 2 ^ n - 1 else 2 ^ w - 2 ^ (n - w))) ∧
    (∀ m, m < n → ∀ t u : State,
      execAll (.shrNew x w .left .johnson none :: times n (pulse (.shrShiftLJohnson x none c)) ++ [.shrRead x]) s
        = .next t →
      execAll (.shrNew x w .left .johnson none :: times m (pulse (.shrShiftLJohnson x none c)) ++ [.shrRead x]) s
        = .next u → t.reply ≠ u.reply) ∧
    RunCompletes (.shrNew x w .right .johnson none :: times n (pulse (.shrShiftRJohnson x none c)) ++ [.shrRead x]) s
      (fun t => t.reply = .word (if n ≤ w then 2 ^ w - 2 ^ (w - n) else 2 ^ (2 * w - n) - 1)) ∧
    (∀ m, m < n → ∀ t u : State,
      execAll (.shrNew x w .right .johnson none :: times n (pulse (.shrShiftRJohnson x none c)) ++ [.shrRead x]) s
        = .next t →
      execAll (.shrNew x w .right .johnson none :: times m (pulse (.shrShiftRJohnson x none c)) ++ [.shrRead x]) s
        = .next u → t.reply ≠ u.reply)

/-- A serial shift register is a `W`-stage delay line: after any sequence of serial bits `sout` shows the bit sent `W`
pulses ago, and before that a cell of the start state (44_shift_register.md R198). -/
def Obligations.SerialShiftIsADelayLine : Prop :=
  ∀ (s : State) (x : Inst) (p : ShiftParams) (b : CellBank) (c : Bool) (bits : List Bool),
    s.find x = some (.shiftRegister p b) → b.cells.length = p.width → 1 ≤ p.width → p.fill = .serial →
    RunCompletes (bits.flatMap (fun v => pulse (.shrShift x (some v) c)) ++ [.shrSout x]) s (fun t =>
      t.reply = .bit (if p.width ≤ bits.length then bits.getD (bits.length - p.width) false
        else b.cells.getD (if p.dir = .right then bits.length else p.width - 1 - bits.length) false))

/-- The inherited `load` of a ShiftRegister is a Register's, on the same line as `shift` (44_shift_register.md R191,
R192, the spec's decision D6). -/
def Obligations.ShiftRegisterLoadsAndHolds : Prop :=
  ∀ (s : State) (x : Inst) (p : ShiftParams) (b : CellBank) (value : Word) (clk : Bool),
    s.find x = some (.shiftRegister p b) → value < 2 ^ p.width →
    Completes (.shrLoad x value clk) s (CallDone s x (.shiftRegister p
      ⟨if rises b.clkLine clk then (List.range p.width).map (fun i => value.testBit i) else b.cells,
        lineAfter b.clkLine clk⟩) .ok) ∧
    Completes (.shrLhold x value clk) s
      (CallDone s x (.shiftRegister p ⟨b.cells, lineAfter b.clkLine clk⟩) .ok)

/-! ### Counter -/

/-- A tick, in either style: on a rising edge up is `(count + 1) mod M`, down is `(count + M - 1) mod M`, which is one
more or less with a wrap to 0 and to `M - 1`; no direction is the default direction; without a rising edge the count
stays; the line is sampled in every call. The vector has the direction in bit 2, whether it is given in bit 1, and the
clock sample in bit 0 (45_counter.md R212 to R214; the vector R87, decision D9). That the counts stay in range and a
chain settled is the spec's own derivation (R216, R223), the chain of a ripple Counter its decision D17 (log 13). -/
def Obligations.CounterTicksModuloM : Prop :=
  ∀ (s : State) (x : Inst) (p : CounterParams) (c : CounterState) (clk : Bool),
    s.find x = some (.counter p c) → counterOk p c = true →
    let m := p.modulus.getD (2 ^ p.width)
    let count := countOf c
    Completes (.cntTickup x clk) s (fun t => ∃ c', CallDone s x (.counter p c') .ok t ∧ counterOk p c' = true ∧
      externalLine c' = lineAfter (externalLine c) clk ∧
      countOf c' = if rises (externalLine c) clk then (count + 1) % m else count) ∧
    Completes (.cntTickdn x clk) s (fun t => ∃ c', CallDone s x (.counter p c') .ok t ∧ counterOk p c' = true ∧
      externalLine c' = lineAfter (externalLine c) clk ∧
      countOf c' = if rises (externalLine c) clk then (count + (m - 1)) % m else count) ∧
    Completes (.cntTick x clk) s (fun t => ∃ c', CallDone s x (.counter p c') .ok t ∧ counterOk p c' = true ∧
      externalLine c' = lineAfter (externalLine c) clk ∧
      countOf c' = if rises (externalLine c) clk then
        (count + (if p.defaultDir = .up then 1 else m - 1)) % m else count) ∧
    (count + 1) % m = (if count < m - 1 then count + 1 else 0) ∧
    (count + (m - 1)) % m = (if 0 < count then count - 1 else m - 1) ∧
    decode .cnt x clk.toNat = .ok (.cntTick x clk) ∧ decode .cnt x (4 + clk.toNat) = .ok (.cntTick x clk) ∧
    decode .cnt x (2 + clk.toNat) = .ok (.cntTickup x clk) ∧ decode .cnt x (6 + clk.toNat) = .ok (.cntTickdn x clk)

/-- The settle process of a ripple chain started in a settled state ends in a settled state and computes the
synchronous result, for an up and a down tick, with or without a rising edge (45_counter.md R223, a derivation of the
spec). -/
def Obligations.RippleSettleComputesTheSynchronousResult : Prop :=
  ∀ (s : State) (x : Inst) (p : CounterParams) (cells : List Bool) (lines : List ClockLine) (clk : Bool) (l : ClockLine),
    s.find x = some (.counter p (.chained cells lines)) → counterOk p (.chained cells lines) = true →
    lines.head? = some l →
    Completes (.cntTickup x clk) s (fun t => ∃ cells' lines',
      CallDone s x (.counter p (.chained cells' lines')) .ok t ∧ counterOk p (.chained cells' lines') = true ∧
      lines'.head? = some (lineAfter l clk) ∧
      val cells' = if rises l clk then (val cells + 1) % 2 ^ p.width else val cells) ∧
    Completes (.cntTickdn x clk) s (fun t => ∃ cells' lines',
      CallDone s x (.counter p (.chained cells' lines')) .ok t ∧ counterOk p (.chained cells' lines') = true ∧
      lines'.head? = some (lineAfter l clk) ∧
      val cells' = if rises l clk then (val cells + (2 ^ p.width - 1)) % 2 ^ p.width else val cells)

/-- For every parameter tuple and every sequence of calls, a ripple Counter reads as a synchronous Counter with the
same parameters and the same calls (45_counter.md R222). The construction under a name already bound is the model's
choice (log 5). -/
def Obligations.RippleReadsAsSynchronous : Prop :=
  ∀ (s : State) (x : Inst) (w : Nat) (m : Option Nat) (d : Option CountDir) (ticks : List (Option CountDir × Bool)),
    1 ≤ w → (∀ k, m = some k → 1 ≤ k ∧ k ≤ 2 ^ w) →
    let calls := ticks.map (fun k => match k.1 with
      | none => Instr.cntTick x k.2
      | some .up => Instr.cntTickup x k.2
      | some .down => Instr.cntTickdn x k.2) ++ [Instr.cntRead x]
    ∃ v, RunCompletes (.cntNew x w m d (some .synchronous) :: calls) s (fun t => t.reply = .word v) ∧
      RunCompletes (.cntNew x w m d (some .ripple) :: calls) s (fun t => t.reply = .word v)

/-- The wraparound law: `n` up pulses add `n` modulo `M`, `n` down pulses add `n * (M - 1)`, which is to take `n` away
modulo `M` on the integers; so `M` pulses of either direction bring the count back. -/
def Obligations.CounterWrapsAround : Prop :=
  ∀ (s : State) (x : Inst) (p : CounterParams) (c : CounterState) (n : Nat) (clk : Bool),
    s.find x = some (.counter p c) → counterOk p c = true →
    RunCompletes (times n (pulse (.cntTickup x clk)) ++ [.cntRead x]) s
      (fun t => t.reply = .word ((countOf c + n) % effectiveModulus p)) ∧
    RunCompletes (times n (pulse (.cntTickdn x clk)) ++ [.cntRead x]) s
      (fun t => t.reply = .word ((countOf c + n * (effectiveModulus p - 1)) % effectiveModulus p)) ∧
    (((countOf c + n * (effectiveModulus p - 1)) % effectiveModulus p : Nat) : Int) =
      ((countOf c : Int) - n) % (effectiveModulus p : Int) ∧
    RunCompletes (times (effectiveModulus p) (pulse (.cntTickup x clk)) ++ [.cntRead x]) s
      (fun t => t.reply = .word (countOf c)) ∧
    RunCompletes (times (effectiveModulus p) (pulse (.cntTickdn x clk)) ++ [.cntRead x]) s
      (fun t => t.reply = .word (countOf c))

/-- The inverse law: an up pulse then a down pulse, or down then up, restores the count. -/
def Obligations.UpThenDownRestoresTheCount : Prop :=
  ∀ (s : State) (x : Inst) (p : CounterParams) (c : CounterState) (clk : Bool),
    s.find x = some (.counter p c) → counterOk p c = true →
    RunCompletes (pulse (.cntTickup x clk) ++ pulse (.cntTickdn x clk) ++ [.cntRead x]) s
      (fun t => t.reply = .word (countOf c)) ∧
    RunCompletes (pulse (.cntTickdn x clk) ++ pulse (.cntTickup x clk) ++ [.cntRead x]) s
      (fun t => t.reply = .word (countOf c))

/-- The golden vector, for any number of pulses: a new 4-bit Counter without modulus reads `k mod 16` after `k` pulses
(45_counter.md R219). The construction under a name already bound is the model's choice (log 5). -/
def Obligations.FourBitCounterGoldenVector : Prop :=
  ∀ (s : State) (x : Inst) (k : Nat) (clk : Bool),
    RunCompletes (.cntNew x 4 none none none :: times k (pulse (.cntTick x clk)) ++ [.cntRead x]) s
      (fun t => t.reply = .word (k % 16))

/-! ### RegisterFile -/

/-- A write in range: on a rising edge the named slot takes the word unless it is the zero index; every other slot is
unchanged; the line is sampled whatever the index is. A write with `enable = 0` changes no slot (that the zero index
samples the clock is the spec's decision D13, log 18). -/
def Obligations.WriteChangesOnlyTheNamedSlot : Prop :=
  ∀ (s : State) (x : Inst) (p : FileParams) (f : FileState) (index : Nat) (value : Word) (clk : Bool),
    s.find x = some (.registerFile p f) → index < p.slots → value < 2 ^ p.wordWidth →
    Completes (.rfWrite x index value clk) s (fun t => ∃ f',
      CallDone s x (.registerFile p f') .ok t ∧ f'.clkLine = lineAfter f.clkLine clk ∧
      ∀ i, Memory.read f'.slots i =
        if rises f.clkLine clk ∧ i = index ∧ p.zeroIndex ≠ some index then value else Memory.read f.slots i) ∧
    Completes (.rfWhold x index value clk) s
      (CallDone s x (.registerFile p ⟨f.slots, lineAfter f.clkLine clk⟩) .ok)

/-- A write outside the file raises `IndexOutOfBounds` whatever the enable and the clock are, and changes nothing, the
line not sampled (the spec's decisions D14 and D15). -/
def Obligations.WriteOutOfRangeRaises : Prop :=
  ∀ (s : State) (x : Inst) (p : FileParams) (f : FileState) (index : Nat) (value : Word) (clk : Bool),
    s.find x = some (.registerFile p f) → p.slots ≤ index → value < 2 ^ p.wordWidth →
    Completes (.rfWrite x index value clk) s (fun t => CallRaised s x .indexOutOfBounds t ∧ werrPort t x = some 2) ∧
    Completes (.rfWhold x index value clk) s (fun t => CallRaised s x .indexOutOfBounds t ∧ werrPort t x = some 2)

/-- A read: `IndexOutOfBounds` outside the file, never a zero; 0 at the zero index; the slot's word elsewhere; nothing
but the reply changes, and every read port answers the same (46_register_file.md R247, 20_memory.md R69). The vector is
the index and the error code 2 (30_encoding.md R89, R94, the spec's decisions D2, D21); that a read leaves `werr` as it
is, is the model's choice (log 3). -/
def Obligations.FileReadChecksItsIndex : Prop :=
  ∀ (s : State) (x : Inst) (p : FileParams) (f : FileState) (index : Nat), s.find x = some (.registerFile p f) →
    (p.slots ≤ index → exec (.rfRead x index) s = .next { s with reply := .error .indexOutOfBounds } ∧
      ∀ k, k < p.readPorts → rerrPort s x k index = some 2) ∧
    (index < p.slots → p.zeroIndex = some index → exec (.rfRead x index) s = .next { s with reply := .word 0 } ∧
      ∀ k, k < p.readPorts → rdataPort s x k index = some 0) ∧
    (index < p.slots → p.zeroIndex ≠ some index →
      exec (.rfRead x index) s = .next { s with reply := .word (Memory.read f.slots index) } ∧
      ∀ k, k < p.readPorts → rdataPort s x k index = some (Memory.read f.slots index)) ∧
    ∀ a, index < 2 ^ a → decode (.rfr a) x index = .ok (.rfRead x index)

/-- After a write pulse to an ordinary slot, a read of that slot returns the word and a read of another what it
returned before (46_register_file.md R248 (a), (b)). -/
def Obligations.ReadAfterWritePulse : Prop :=
  ∀ (s : State) (x : Inst) (p : FileParams) (f : FileState) (index j : Nat) (value : Word) (c : Bool),
    s.find x = some (.registerFile p f) → index < p.slots → p.zeroIndex ≠ some index → value < 2 ^ p.wordWidth →
    RunCompletes (pulse (.rfWrite x index value c) ++ [.rfRead x index]) s (fun t => t.reply = .word value) ∧
    (j ≠ index → ∀ r, (∃ u, exec (.rfRead x j) s = .next u ∧ u.reply = r) →
      RunCompletes (pulse (.rfWrite x index value c) ++ [.rfRead x j]) s (fun t => t.reply = r))

/-- Any sequence of writes to the zero index leaves every slot as it was, samples the clock in every call, and is
followed by a read of 0 (46_register_file.md R244, the spec's decision D13). -/
def Obligations.ZeroIndexWritesAreDiscarded : Prop :=
  ∀ (s : State) (x : Inst) (p : FileParams) (f : FileState) (z : Nat) (calls : List (Word × Bool)),
    s.find x = some (.registerFile p f) → p.zeroIndex = some z → z < p.slots →
    (∀ c ∈ calls, c.1 < 2 ^ p.wordWidth) →
    RunCompletes (calls.map (fun c => .rfWrite x z c.1 c.2)) s (fun t => ∃ l,
      t.find x = some (.registerFile p ⟨f.slots, l⟩) ∧
      l.current = (calls.getLast?.map (·.2)).getD f.clkLine.current ∧
      Completes (.rfRead x z) t (fun u => u.reply = .word 0))

/-- One clock for the whole file: of two writes in a row with a high sample the second changes no slot, whatever the
two indexes are (46_register_file.md R248 (f), a derivation of the spec). Where the first is to the zero index this rests
on the spec's decision D13 that such a write samples the clock (log 18). -/
def Obligations.HeldHighClockWritesOnce : Prop :=
  ∀ (s t : State) (x : Inst) (i j : Nat) (v w : Word) (p : FileParams) (f : FileState),
    exec (.rfWrite x i v true) s = .next t → t.reply = .ok → t.find x = some (.registerFile p f) →
    j < p.slots → w < 2 ^ p.wordWidth →
    Completes (.rfWrite x j w true) t (CallDone t x (.registerFile p ⟨f.slots, lineAfter f.clkLine true⟩) .ok)

/-! ### The whole machine -/

/-- A call that returns an error changes no instance, stored data and ClockLines alike (60_exceptions.md R266, the
spec's decision D14). -/
def Obligations.ErrorsChangeNoInstance : Prop :=
  ∀ (i : Instr) (s t : State) (k : ErrorKind), exec i s = .next t → t.reply = .error k →
    t.elems = s.elems ∧ t.calls = s.calls

/-- A call changes no instance but the one it names, and not the driver's remaining calls. -/
def Obligations.CallsTouchOnlyTheirInstance : Prop :=
  ∀ (i : Instr) (s t : State), exec i s = .next t →
    t.calls = s.calls ∧ ∀ y, y ≠ i.inst → t.find y = s.find y ∧ t.errOf y = s.errOf y

/-- Interleaving is harmless: in any sequence of calls, an instance ends as it does when its own calls are made alone,
and answers any further call of its own in the same way. -/
def Obligations.InterleavingGivesEachInstanceItsOwnRun : Prop :=
  ∀ (is : List Instr) (s t : State) (x : Inst), execAll is s = .next t →
    RunCompletes (is.filter (fun i => decide (i.inst = x))) s (fun u =>
      u.find x = t.find x ∧ u.errOf x = t.errOf x ∧
      ∀ (j : Instr) (t' : State), j.inst = x → exec j t = .next t' →
        Completes j u (fun u' => u'.reply = t'.reply ∧ u'.find x = t'.find x))

/-- An operation on a name that denotes no instance stops by name, unless it is a construction (the model's choice,
log 6). -/
def Obligations.CallsWithoutAnInstanceFault : Prop :=
  ∀ (i : Instr) (s : State), isConstruction i = false → s.find i.inst = none →
    exec i s = .fault (.noInstance i.inst)

/-- An operation on an instance of another kind is refused by name, unless it is a construction (the model's choice,
log 7). -/
def Obligations.CallsOnAnotherKindAreRefused : Prop :=
  ∀ (i : Instr) (s : State) (e : Element), isConstruction i = false → s.find i.inst = some e →
    elementKind e ≠ operationKind i → exec i s = .refused (.wrongKind i.inst)

/-- A data operand wider than its field is refused by name, and so is a shift form that is not the instance's; nothing
is truncated (30_encoding.md R88 with the spec's decision D33; logs 8, 9). -/
def Obligations.OperandsThatDoNotFitAreRefused : Prop :=
  ∀ (s : State) (x : Inst) (value : Word) (clk : Bool),
    (∀ w b, s.find x = some (.register w b) → 2 ^ w ≤ value →
      exec (.regLoad x value clk) s = .refused (.operandTooWide x) ∧
      exec (.regHold x value clk) s = .refused (.operandTooWide x)) ∧
    (∀ p b, s.find x = some (.shiftRegister p b) → 2 ^ p.width ≤ value →
      exec (.shrLoad x value clk) s = .refused (.operandTooWide x) ∧
      exec (.shrLhold x value clk) s = .refused (.operandTooWide x)) ∧
    (∀ p f index, s.find x = some (.registerFile p f) → 2 ^ p.wordWidth ≤ value →
      exec (.rfWrite x index value clk) s = .refused (.operandTooWide x) ∧
      exec (.rfWhold x index value clk) s = .refused (.operandTooWide x)) ∧
    (∀ p b d q serialIn, s.find x = some (.shiftRegister p b) → (p.dir ≠ d ∨ p.fill ≠ q) →
      exec (shiftForm x d q serialIn clk) s = .refused (.otherForm x))
end

