-- ==== Sys2Proof/Laws/State.lean ====
section
/-! SUPPORT. Laws/State.lean: one lemma per field and update of the records, so that no proof unfolds an update. -/

namespace Sys2Proof.Machine

/-! ### The machine -/

@[simp] theorem reset_elems : State.reset.elems = [] := rfl
@[simp] theorem reset_reply : State.reset.reply = .idle := rfl
@[simp] theorem reset_errs : State.reset.errs = [] := rfl
@[simp] theorem reset_calls : State.reset.calls = [] := rfl

@[simp] theorem done_elems (s : State) (x : Inst) (e : Element) (r : Reply) :
    (s.done x e r).elems = Table.set s.elems x e := rfl
@[simp] theorem done_reply (s : State) (x : Inst) (e : Element) (r : Reply) : (s.done x e r).reply = r := rfl
@[simp] theorem done_errs (s : State) (x : Inst) (e : Element) (r : Reply) :
    (s.done x e r).errs = Table.erase s.errs x := rfl
@[simp] theorem done_calls (s : State) (x : Inst) (e : Element) (r : Reply) : (s.done x e r).calls = s.calls := rfl

@[simp] theorem raised_elems (s : State) (x : Inst) (k : ErrorKind) : (s.raised x k).elems = s.elems := rfl
@[simp] theorem raised_reply (s : State) (x : Inst) (k : ErrorKind) : (s.raised x k).reply = .error k := rfl
@[simp] theorem raised_errs (s : State) (x : Inst) (k : ErrorKind) :
    (s.raised x k).errs = Table.set s.errs x k := rfl
@[simp] theorem raised_calls (s : State) (x : Inst) (k : ErrorKind) : (s.raised x k).calls = s.calls := rfl

@[simp] theorem told_elems (s : State) (r : Reply) : (s.told r).elems = s.elems := rfl
@[simp] theorem told_reply (s : State) (r : Reply) : (s.told r).reply = r := rfl
@[simp] theorem told_errs (s : State) (r : Reply) : (s.told r).errs = s.errs := rfl
@[simp] theorem told_calls (s : State) (r : Reply) : (s.told r).calls = s.calls := rfl

@[simp] theorem withCall_elems (s : State) (c : Call) : (withCall s c).elems = s.elems := rfl
@[simp] theorem withCall_reply (s : State) (c : Call) : (withCall s c).reply = s.reply := rfl
@[simp] theorem withCall_errs (s : State) (c : Call) : (withCall s c).errs = s.errs := rfl
@[simp] theorem withCall_calls (s : State) (c : Call) : (withCall s c).calls = c :: s.calls := rfl

/-! ### The elements -/

@[simp] theorem sampled_current (l : ClockLine) (c : Bool) : (sampled l c).current = c := rfl
@[simp] theorem sampled_previous (l : ClockLine) (c : Bool) : (sampled l c).previous = l.current := rfl

@[simp] theorem flipFlop_clocked_value (f : FlipFlop) (c : Bool) (u : Bool → Bool) :
    (f.clocked c u).value = onRising f.clkLine c u f.value := rfl
@[simp] theorem flipFlop_clocked_clkLine (f : FlipFlop) (c : Bool) (u : Bool → Bool) :
    (f.clocked c u).clkLine = sampled f.clkLine c := rfl

@[simp] theorem cellBank_clocked_cells (b : CellBank) (c : Bool) (u : List Bool → List Bool) :
    (b.clocked c u).cells = onRising b.clkLine c u b.cells := rfl
@[simp] theorem cellBank_clocked_clkLine (b : CellBank) (c : Bool) (u : List Bool → List Bool) :
    (b.clocked c u).clkLine = sampled b.clkLine c := rfl

@[simp] theorem fileState_clocked_slots (f : FileState) (c : Bool) (u : Memory → Memory) :
    (f.clocked c u).slots = onRising f.clkLine c u f.slots := rfl
@[simp] theorem fileState_clocked_clkLine (f : FileState) (c : Bool) (u : Memory → Memory) :
    (f.clocked c u).clkLine = sampled f.clkLine c := rfl

/-! ### What an operation sees of an instance of its kind -/

@[simp] theorem asClockLine_clockLine (l : ClockLine) : (Element.clockLine l).asClockLine = some l := rfl
@[simp] theorem asSrLatch_srLatch (q : Bool) : (Element.srLatch q).asSrLatch = some q := rfl
@[simp] theorem asDLatch_dLatch (q : Bool) : (Element.dLatch q).asDLatch = some q := rfl
@[simp] theorem asDff_dff (f : FlipFlop) : (Element.dff f).asDff = some f := rfl
@[simp] theorem asJkff_jkff (f : FlipFlop) : (Element.jkff f).asJkff = some f := rfl
@[simp] theorem asTff_tff (f : FlipFlop) : (Element.tff f).asTff = some f := rfl
@[simp] theorem asRegister_register (w : Nat) (b : CellBank) : (Element.register w b).asRegister = some (w, b) := rfl
@[simp] theorem asShiftRegister_shiftRegister (p : ShiftParams) (b : CellBank) :
    (Element.shiftRegister p b).asShiftRegister = some (p, b) := rfl
@[simp] theorem asCounter_counter (p : CounterParams) (c : CounterState) :
    (Element.counter p c).asCounter = some (p, c) := rfl
@[simp] theorem asFile_registerFile (p : FileParams) (f : FileState) :
    (Element.registerFile p f).asFile = some (p, f) := rfl

end Sys2Proof.Machine
end

