-- ==== Sys2Proof/Laws/Ops.lean ====
section
/-! SUPPORT. Laws/Ops.lean: what each shared operation can do, said once. -/

namespace Sys2Proof.Machine

/-! ### Tables -/

@[simp] theorem find_nil {α : Type} (k : Nat) : Table.find ([] : Table α) k = none := rfl

@[simp] theorem find_set_same {α : Type} (t : Table α) (k : Nat) (a : α) : (Table.set t k a).find k = some a := by
  induction t with
  | nil => simp [Table.set, Table.find]
  | cons e r ih =>
    obtain ⟨j, b⟩ := e
    unfold Table.set
    split
    · simp [Table.find]
    · split
      · simp [Table.find]
      · rename_i h
        simp [Table.find, Ne.symm h, ih]

theorem find_set_other {α : Type} (t : Table α) (k i : Nat) (a : α) (h : i ≠ k) :
    (Table.set t k a).find i = t.find i := by
  induction t with
  | nil => simp [Table.set, Table.find, Ne.symm h]
  | cons e r ih =>
    obtain ⟨j, b⟩ := e
    unfold Table.set
    split
    · simp [Table.find, Ne.symm h]
    · split
      · rename_i hjk
        subst hjk
        simp [Table.find, Ne.symm h]
      · simp [Table.find, ih]

theorem find_set {α : Type} (t : Table α) (k i : Nat) (a : α) :
    (Table.set t k a).find i = if i = k then some a else t.find i := by
  split
  · next h => rw [h, find_set_same]
  · next h => exact find_set_other t k i a h

theorem erase_cons {α : Type} (j : Nat) (b : α) (r : Table α) (k : Nat) :
    Table.erase ((j, b) :: r) k = if j = k then Table.erase r k else (j, b) :: Table.erase r k := by
  by_cases h : j = k <;> simp [Table.erase, h]

theorem find_erase {α : Type} (t : Table α) (k i : Nat) :
    (Table.erase t k).find i = if i = k then none else t.find i := by
  induction t with
  | nil => simp [Table.erase, Table.find]
  | cons e r ih =>
    obtain ⟨j, b⟩ := e
    rw [erase_cons]
    by_cases hj : j = k
    · rw [if_pos hj, ih]
      by_cases hi : i = k
      · simp [hi]
      · simp [Table.find, hi, hj, Ne.symm hi]
    · rw [if_neg hj]
      by_cases hji : j = i
      · simp [Table.find, ← hji, hj]
      · simp [Table.find, hji, ih]

@[simp] theorem find_erase_same {α : Type} (t : Table α) (k : Nat) : (Table.erase t k).find k = none := by
  simp [find_erase]

theorem find_erase_other {α : Type} (t : Table α) (k i : Nat) (h : i ≠ k) : (Table.erase t k).find i = t.find i := by
  simp [find_erase, h]

theorem risingFrom_mono {α : Type} {b c : Nat} {t : Table α} (h : Table.risingFrom c t = true) (hbc : b ≤ c) :
    Table.risingFrom b t = true := by
  cases t with
  | nil => rfl
  | cons e r =>
    simp only [Table.risingFrom, Bool.and_eq_true, decide_eq_true_eq] at h ⊢
    exact ⟨by omega, h.2⟩

theorem risingFrom_set {α : Type} {t : Table α} {b k : Nat} {a : α} (h : Table.risingFrom b t = true) (hb : b ≤ k) :
    Table.risingFrom b (Table.set t k a) = true := by
  induction t generalizing b with
  | nil => simp [Table.set, Table.risingFrom, hb]
  | cons e r ih =>
    obtain ⟨j, c⟩ := e
    simp only [Table.risingFrom, Bool.and_eq_true, decide_eq_true_eq] at h
    unfold Table.set
    split
    · simp only [Table.risingFrom, Bool.and_eq_true, decide_eq_true_eq]
      exact ⟨hb, by omega, h.2⟩
    · split
      · next hkj => subst hkj; simp [Table.risingFrom, hb, h.2]
      · simp only [Table.risingFrom, Bool.and_eq_true, decide_eq_true_eq]
        exact ⟨h.1, ih h.2 (by omega)⟩

theorem risingFrom_erase {α : Type} {t : Table α} {b k : Nat} (h : Table.risingFrom b t = true) :
    Table.risingFrom b (Table.erase t k) = true := by
  induction t generalizing b with
  | nil => rfl
  | cons e r ih =>
    obtain ⟨j, c⟩ := e
    simp only [Table.risingFrom, Bool.and_eq_true, decide_eq_true_eq] at h
    have hr : Table.risingFrom (j + 1) (Table.erase r k) = true := ih h.2
    rw [erase_cons]
    split
    · exact risingFrom_mono hr (by omega)
    · simp only [Table.risingFrom, Bool.and_eq_true, decide_eq_true_eq]
      exact ⟨h.1, hr⟩

theorem wf_set {α : Type} {t : Table α} (k : Nat) (a : α) (h : Table.wf t = true) : Table.wf (Table.set t k a) = true :=
  risingFrom_set h (Nat.zero_le k)

theorem wf_erase {α : Type} {t : Table α} (k : Nat) (h : Table.wf t = true) : Table.wf (Table.erase t k) = true :=
  risingFrom_erase h

/-- Every entry of `t.set k a` is the new one or an entry of `t`. -/
theorem mem_set {α : Type} {t : Table α} {k : Nat} {a : α} {e : Nat × α} (h : e ∈ Table.set t k a) :
    e = (k, a) ∨ e ∈ t := by
  induction t with
  | nil => simpa [Table.set] using h
  | cons f r ih =>
    obtain ⟨j, b⟩ := f
    unfold Table.set at h
    split at h
    · simpa using h
    · split at h
      · next hkj => rcases List.mem_cons.1 h with h | h <;> simp [h]
      · rcases List.mem_cons.1 h with h | h
        · simp [h]
        · rcases ih h with h | h <;> simp [h]

theorem mem_erase {α : Type} {t : Table α} {k : Nat} {e : Nat × α} (h : e ∈ Table.erase t k) : e ∈ t :=
  List.mem_of_mem_filter h

/-! ### Slots -/

@[simp] theorem read_nil (i : Nat) : Memory.read [] i = 0 := rfl

/-- Reading a slot after a write. -/
theorem read_write (m : Memory) (k i : Nat) (v : Word) :
    Memory.read (Memory.write m k v) i = if i = k then v else Memory.read m i := by
  unfold Memory.write Memory.read
  split
  · next hv => rw [find_erase]; split <;> simp [hv]
  · rw [find_set]; split <;> simp

/-- A write keeps the canonical form of the slots. -/
theorem memory_wf_write {m : Memory} (k : Nat) (v : Word) (h : Memory.wf m = true) :
    Memory.wf (Memory.write m k v) = true := by
  simp only [Memory.wf, Bool.and_eq_true, List.all_eq_true, decide_eq_true_eq] at h ⊢
  unfold Memory.write
  split
  · exact ⟨wf_erase k h.1, fun e he => h.2 e (mem_erase he)⟩
  · next hv =>
    refine ⟨wf_set k v h.1, fun e he => ?_⟩
    rcases mem_set he with he | he
    · simpa [he] using hv
    · exact h.2 e he

/-- The slots of a new file are in canonical form, and a new machine has none. -/
theorem memory_wf_new : Memory.wf newFileState.slots = true := rfl

/-! ### How a call ends -/

/-- What `commit` leaves. -/
theorem commit_spec (x : Inst) (e : Element) (r : Reply) (s : State) :
    ∃ t, commit x e r s = .next t ∧ CallDone s x e r t :=
  ⟨s.done x e r, rfl,
    { elem := find_set_same _ _ _
      reply := rfl
      err := find_erase_same _ _
      otherElems := fun _ h => find_set_other _ _ _ _ h
      otherErrs := fun _ h => find_erase_other _ _ _ h
      calls := rfl }⟩

/-- What `raise` leaves. -/
theorem raise_spec (x : Inst) (k : ErrorKind) (s : State) : ∃ t, raise x k s = .next t ∧ CallRaised s x k t :=
  ⟨s.raised x k, rfl,
    { elems := rfl
      reply := rfl
      err := find_set_same _ _ _
      otherErrs := fun _ h => find_set_other _ _ _ _ h
      calls := rfl }⟩

/-- What `inspect` leaves. -/
theorem inspect_spec (r : Reply) (s : State) : inspect r s = .next { s with reply := r } := rfl

/-- What `construct` leaves. -/
theorem construct_legal (x : Inst) (e : Element) (s : State) : construct x true e s = commit x e .ok s := rfl

theorem construct_illegal (x : Inst) (e : Element) (s : State) :
    construct x false e s = inspect (.error .invalidConfiguration) s := rfl

/-- Everything `withElem` can do: run its continuation on what it sees of the instance, fault on a free name, or
refuse another kind. -/
theorem withElem_cases {α : Type} (view : Element → Option α) (x : Inst) (s : State) (k : α → Result) :
    (s.find x = none ∧ withElem view x s k = .fault (.noInstance x)) ∨
    (∃ e, s.find x = some e ∧ view e = none ∧ withElem view x s k = .refused (.wrongKind x)) ∨
    (∃ e a, s.find x = some e ∧ view e = some a ∧ withElem view x s k = k a) := by
  unfold withElem
  cases hf : s.find x with
  | none => exact .inl ⟨rfl, rfl⟩
  | some e =>
    cases hv : view e with
    | none => exact .inr (.inl ⟨e, rfl, hv, by simp [hv]⟩)
    | some a => exact .inr (.inr ⟨e, a, rfl, hv, by simp [hv]⟩)

/-- If `withElem` answers a next state, its continuation did. -/
theorem withElem_next {α : Type} {view : Element → Option α} {x : Inst} {s t : State} {k : α → Result}
    (h : withElem view x s k = .next t) : ∃ e a, s.find x = some e ∧ view e = some a ∧ k a = .next t := by
  rcases withElem_cases view x s k with ⟨_, h'⟩ | ⟨_, _, _, h'⟩ | ⟨e, a, he, ha, h'⟩
  · simp [h'] at h
  · simp [h'] at h
  · exact ⟨e, a, he, ha, h' ▸ h⟩

/-- `withElem` on an instance of the right kind. -/
theorem withElem_some {α : Type} {view : Element → Option α} {x : Inst} {s : State} {k : α → Result} {e : Element}
    {a : α} (he : s.find x = some e) (ha : view e = some a) : withElem view x s k = k a := by
  simp [withElem, he, ha]

/-- A data operand that fits its field is presented. -/
theorem presented_fits {x : Inst} {w : Nat} {v : Word} {r : Result} (h : v < 2 ^ w) : presented x w v r = r := by
  simp [presented, fitsIn, h]

/-- If `presented` answers a next state, the operand fits and its continuation answered it. -/
theorem presented_next {x : Inst} {w : Nat} {v : Word} {r : Result} {t : State} (h : presented x w v r = .next t) :
    v < 2 ^ w ∧ r = .next t := by
  unfold presented at h
  split at h
  · next hf => exact ⟨by simpa [fitsIn] using hf, h⟩
  · cases h

/-! ### The clock -/

/-- `onRising` on the two ways a call can go: the update happens exactly when the line is low and the sample high. -/
theorem onRising_eq {α : Type} (l : ClockLine) (c : Bool) (u : α → α) (a : α) :
    onRising l c u a = if l.current = false ∧ c = true then u a else a := by
  unfold onRising sample edgeBetween
  cases l.current <;> cases c <;> simp

/-- `onRising` in the terms of the claims. -/
theorem onRising_rises {α : Type} (l : ClockLine) (c : Bool) (u : α → α) (a : α) :
    onRising l c u a = if rises l c then u a else a := by
  rw [onRising_eq]
  cases h : l.current <;> cases c <;> simp [rises, h]

/-- The line after a call, in the terms of the claims. -/
theorem sampled_eq (l : ClockLine) (c : Bool) : sampled l c = lineAfter l c := rfl

@[simp] theorem onRising_low {α : Type} (l : ClockLine) (u : α → α) (a : α) : onRising l false u a = a := by
  simp [onRising_eq]

@[simp] theorem onRising_trigger {α : Type} (l : ClockLine) (u : α → α) (a : α) :
    onRising (sampled l false) true u a = u a := by
  simp [onRising_eq]

/-! ### Cells -/

@[simp] theorem length_cellsOf (w v : Nat) : (cellsOf w v).length = w := by
  induction w generalizing v with
  | zero => rfl
  | succ w ih => simp [cellsOf, ih]

end Sys2Proof.Machine
end

