-- ==== Sys2Proof/Laws/Exec.lean ====
section
/-! SUPPORT. Laws/Exec.lean: everything a call can do, said once. A meaning looks its instance up and then ends in one
of three ways; later proofs cite `exec_next` instead of unfolding the meanings. -/

namespace Sys2Proof.Machine

/-- The three ways a call on `x` that answers a next state leaves the machine. -/
inductive Ends (s : State) (x : Inst) : State → Prop where
  /-- a mutation or a construction is done, with a result that is no error -/
  | done (e : Element) (r : Reply) (ok : ∀ k, r ≠ .error k) : Ends s x (s.done x e r)
  /-- a mutation of an existing instance raised an error of its own -/
  | raised (e : Element) (k : ErrorKind) (found : s.find x = some e) (own : k ≠ .invalidConfiguration) :
      Ends s x (s.raised x k)
  /-- an inspection, or a construction that failed -/
  | told (r : Reply) : Ends s x (s.told r)

theorem ends_commit {x : Inst} {e : Element} {r : Reply} {s t : State} (hr : ∀ k, r ≠ .error k)
    (h : commit x e r s = .next t) : Ends s x t := by
  cases h; exact .done e r hr

theorem ends_inspect {x : Inst} {r : Reply} {s t : State} (h : inspect r s = .next t) : Ends s x t := by
  cases h; exact .told r

theorem ends_construct {x : Inst} {l : Bool} {e : Element} {s t : State} (h : construct x l e s = .next t) :
    Ends s x t := by
  cases l
  · exact ends_inspect h
  · exact ends_commit (by simp) h

theorem ends_srStep {x : Inst} {a b : Bool} {s t : State} (h : srStep x a b s = .next t) : Ends s x t := by
  obtain ⟨e, q, hf, _, h⟩ := withElem_next h
  cases a <;> cases b <;> simp only [srNext] at h
  · exact ends_commit (by simp) h
  · exact ends_commit (by simp) h
  · exact ends_commit (by simp) h
  · cases h; exact .raised e _ hf (by simp)

theorem ends_dlStep {x : Inst} {a b : Bool} {s t : State} (h : dlStep x a b s = .next t) : Ends s x t := by
  obtain ⟨_, _, _, _, h⟩ := withElem_next h
  exact ends_commit (by simp) h

theorem ends_jkStep {x : Inst} {a b c : Bool} {s t : State} (h : jkStep x a b c s = .next t) : Ends s x t := by
  obtain ⟨_, _, _, _, h⟩ := withElem_next h
  exact ends_commit (by simp) h

theorem ends_tStep {x : Inst} {a b : Bool} {s t : State} (h : tStep x a b s = .next t) : Ends s x t := by
  obtain ⟨_, _, _, _, h⟩ := withElem_next h
  exact ends_commit (by simp) h

theorem ends_regStep {x : Inst} {v : Word} {a b : Bool} {s t : State} (h : regStep x v a b s = .next t) :
    Ends s x t := by
  obtain ⟨_, _, _, _, h⟩ := withElem_next h
  exact ends_commit (by simp) (presented_next h).2

theorem ends_shiftBank {x : Inst} {p : ShiftParams} {b : CellBank} {i : Option Bool} {c : Bool} {s t : State}
    {e : Element} (hf : s.find x = some e) (h : shiftBank x p b i c s = .next t) : Ends s x t := by
  unfold shiftBank at h
  split at h
  · cases h; exact .raised e _ hf (by simp)
  · exact ends_commit (by simp) h

theorem ends_shiftFormStep {x : Inst} {d : Dir} {p : Fill} {i : Option Bool} {c : Bool} {s t : State}
    (h : shiftFormStep x d p i c s = .next t) : Ends s x t := by
  obtain ⟨e, _, hf, _, h⟩ := withElem_next h
  split at h
  · exact ends_shiftBank hf h
  · cases h

theorem ends_shrLoadStep {x : Inst} {v : Word} {a b : Bool} {s t : State} (h : shrLoadStep x v a b s = .next t) :
    Ends s x t := by
  obtain ⟨_, _, _, _, h⟩ := withElem_next h
  exact ends_commit (by simp) (presented_next h).2

theorem ends_tickStep {x : Inst} {d : Option CountDir} {c : Bool} {s t : State} (h : tickStep x d c s = .next t) :
    Ends s x t := by
  obtain ⟨_, _, _, _, h⟩ := withElem_next h
  exact ends_commit (by simp) h

theorem ends_writeStep {x : Inst} {k : Nat} {v : Word} {a b : Bool} {s t : State}
    (h : writeStep x k v a b s = .next t) : Ends s x t := by
  obtain ⟨e, _, hf, _, h⟩ := withElem_next h
  have h := (presented_next h).2
  split at h
  · cases h; exact .raised e _ hf (by simp)
  · exact ends_commit (by simp) h

/-- Everything a call can do when it answers a next state. -/
theorem exec_next {i : Instr} {s t : State} (h : exec i s = .next t) : Ends s i.inst t := by
  cases i with
  | clNew x => simp only [exec, execClNew] at h; exact ends_construct (x := x) h
  | clSample x v => obtain ⟨_, _, _, _, h⟩ := withElem_next h; exact ends_commit (by simp) h
  | clRead x => obtain ⟨_, _, _, _, h⟩ := withElem_next h; exact ends_inspect (x := x) h
  | srlNew x => simp only [exec, execSrlNew] at h; exact ends_construct (x := x) h
  | srlHold x => simp only [exec, execSrlHold] at h; exact ends_srStep (x := x) h
  | srlReset x => simp only [exec, execSrlReset] at h; exact ends_srStep (x := x) h
  | srlSet x => simp only [exec, execSrlSet] at h; exact ends_srStep (x := x) h
  | srlInvalid x => simp only [exec, execSrlInvalid] at h; exact ends_srStep (x := x) h
  | srlRead x => obtain ⟨_, _, _, _, h⟩ := withElem_next h; exact ends_inspect (x := x) h
  | dlNew x => simp only [exec, execDlNew] at h; exact ends_construct (x := x) h
  | dlHold x d => simp only [exec, execDlHold] at h; exact ends_dlStep (x := x) h
  | dlPass x d => simp only [exec, execDlPass] at h; exact ends_dlStep (x := x) h
  | dlRead x => obtain ⟨_, _, _, _, h⟩ := withElem_next h; exact ends_inspect (x := x) h
  | dffNew x => simp only [exec, execDffNew] at h; exact ends_construct (x := x) h
  | dffStep x d c => obtain ⟨_, _, _, _, h⟩ := withElem_next h; exact ends_commit (by simp) h
  | dffRead x => obtain ⟨_, _, _, _, h⟩ := withElem_next h; exact ends_inspect (x := x) h
  | jkffNew x => simp only [exec, execJkffNew] at h; exact ends_construct (x := x) h
  | jkffHold x c => simp only [exec, execJkffHold] at h; exact ends_jkStep (x := x) h
  | jkffReset x c => simp only [exec, execJkffReset] at h; exact ends_jkStep (x := x) h
  | jkffSet x c => simp only [exec, execJkffSet] at h; exact ends_jkStep (x := x) h
  | jkffToggle x c => simp only [exec, execJkffToggle] at h; exact ends_jkStep (x := x) h
  | jkffRead x => obtain ⟨_, _, _, _, h⟩ := withElem_next h; exact ends_inspect (x := x) h
  | tffNew x => simp only [exec, execTffNew] at h; exact ends_construct (x := x) h
  | tffHold x c => simp only [exec, execTffHold] at h; exact ends_tStep (x := x) h
  | tffToggle x c => simp only [exec, execTffToggle] at h; exact ends_tStep (x := x) h
  | tffRead x => obtain ⟨_, _, _, _, h⟩ := withElem_next h; exact ends_inspect (x := x) h
  | regNew x w => simp only [exec, execRegNew] at h; exact ends_construct (x := x) h
  | regHold x v c => simp only [exec, execRegHold] at h; exact ends_regStep (x := x) h
  | regLoad x v c => simp only [exec, execRegLoad] at h; exact ends_regStep (x := x) h
  | regRead x => obtain ⟨_, _, _, _, h⟩ := withElem_next h; exact ends_inspect (x := x) h
  | shrNew x w d p i => simp only [exec, execShrNew] at h; exact ends_construct (x := x) h
  | shrShift x b c => obtain ⟨_, _, hf, _, h⟩ := withElem_next h; exact ends_shiftBank (x := x) hf h
  | shrShiftRZero x b c => simp only [exec, execShrShiftRZero] at h; exact ends_shiftFormStep (x := x) h
  | shrShiftRSerial x b c => simp only [exec, execShrShiftRSerial] at h; exact ends_shiftFormStep (x := x) h
  | shrShiftRRing x b c => simp only [exec, execShrShiftRRing] at h; exact ends_shiftFormStep (x := x) h
  | shrShiftRJohnson x b c => simp only [exec, execShrShiftRJohnson] at h; exact ends_shiftFormStep (x := x) h
  | shrShiftLZero x b c => simp only [exec, execShrShiftLZero] at h; exact ends_shiftFormStep (x := x) h
  | shrShiftLSerial x b c => simp only [exec, execShrShiftLSerial] at h; exact ends_shiftFormStep (x := x) h
  | shrShiftLRing x b c => simp only [exec, execShrShiftLRing] at h; exact ends_shiftFormStep (x := x) h
  | shrShiftLJohnson x b c => simp only [exec, execShrShiftLJohnson] at h; exact ends_shiftFormStep (x := x) h
  | shrLhold x v c => simp only [exec, execShrLhold] at h; exact ends_shrLoadStep (x := x) h
  | shrLoad x v c => simp only [exec, execShrLoad] at h; exact ends_shrLoadStep (x := x) h
  | shrRead x => obtain ⟨_, _, _, _, h⟩ := withElem_next h; exact ends_inspect (x := x) h
  | shrSout x => obtain ⟨_, _, _, _, h⟩ := withElem_next h; exact ends_inspect (x := x) h
  | cntNew x w m d y => simp only [exec, execCntNew] at h; exact ends_construct (x := x) h
  | cntTick x c => simp only [exec, execCntTick] at h; exact ends_tickStep (x := x) h
  | cntTickup x c => simp only [exec, execCntTickup] at h; exact ends_tickStep (x := x) h
  | cntTickdn x c => simp only [exec, execCntTickdn] at h; exact ends_tickStep (x := x) h
  | cntRead x => obtain ⟨_, _, _, _, h⟩ := withElem_next h; exact ends_inspect (x := x) h
  | rfNew x n z w r => simp only [exec, execRfNew] at h; exact ends_construct (x := x) h
  | rfWhold x k v c => simp only [exec, execRfWhold] at h; exact ends_writeStep (x := x) h
  | rfWrite x k v c => simp only [exec, execRfWrite] at h; exact ends_writeStep (x := x) h
  | rfRead x k => obtain ⟨_, _, _, _, h⟩ := withElem_next h; exact ends_inspect (x := x) h

/-- Everything an encoding of calls says: the first call has an encoding and completes, and the rest is encoded in the
state it leaves. -/
theorem encodeCalls_cons {s : State} {c : Call} {r : List Call} {vs : List Nat}
    (h : encodeCalls s (c :: r) = some vs) :
    ∃ us t ws, callVectors s c = some us ∧ perform c s = .next t ∧ encodeCalls t r = some ws ∧ vs = us ++ ws := by
  simp only [encodeCalls] at h
  split at h
  · rename_i us t hu ht
    obtain ⟨ws, hw, rfl⟩ := Option.map_eq_some_iff.1 h
    exact ⟨us, t, ws, hu, ht, hw, rfl⟩
  all_goals cases h

end Sys2Proof.Machine
end

