-- ==== Sys2Proof/Laws/PerInstr.lean ====
section
/-! SUPPORT. Laws/PerInstr.lean: statements made per instruction. `EncodeFits`: a vector of the operation has no bit
above its format's width (30_encoding.md R80, R88). -/

namespace Sys2Proof.Laws

/-- The operation's vector, in any format that carries it, is below `2 ^ width` (30_encoding.md R88). -/
def EncodeFits.Statement (i : Instr) : Prop := ∀ f v, encode f i = some v → v < 2 ^ f.width

/-- A packed triple of bits is below 8. -/
theorem packBits_lt (a b c : Bool) : packBits a b c < 8 := by cases a <;> cases b <;> cases c <;> decide

/-- With the highest of the three bits 0 it is below 4. -/
theorem packBits_low_lt (b c : Bool) : packBits false b c < 4 := by cases b <;> cases c <;> decide

/-- An SHR shift vector is below 16, so inside every SHR format. -/
theorem packShift_lt (b : Option Bool) (c : Bool) : packShift b c < 16 := by
  cases b with
  | none => cases c <;> decide
  | some b => cases b <;> cases c <;> decide

/-- What `encode` answers. -/
theorem encode_eq_some {f : Format} {i : Instr} {v : Nat} :
    encode f i = some v ↔ wellFormed f i = true ∧ packFields f i = v := by
  unfold encode
  split <;> simp_all

/-- Data above a format's control bits stay inside the format. -/
theorem data_lt {w d k a : Nat} (hd : d < 2 ^ w) (ha : a < 2 ^ k) : 2 ^ k * d + a < 2 ^ (w + k) := by
  have h : 2 ^ k * (d + 1) ≤ 2 ^ k * 2 ^ w := Nat.mul_le_mul_left _ hd
  rw [Nat.pow_add, Nat.mul_comm (2 ^ w)]
  rw [Nat.mul_add] at h
  omega

/-- Every shift vector fits its SHR format. -/
theorem shift_fits {f : Format} {w : Nat} {d : Dir} {p : Fill} (hf : f = .shr w d p) (b : Option Bool) (c : Bool) :
    packShift b c < 2 ^ f.width := by
  subst hf
  have h := packShift_lt b c
  have h2 : 2 ^ 4 ≤ 2 ^ (w + 4) := Nat.pow_le_pow_right (by decide) (by omega)
  simp only [Format.width]
  omega

/-- The formats that carry shift form (`d`, `p`) are SHR formats. -/
theorem shiftFits_shr {f : Format} {d : Dir} {p : Fill} {b : Option Bool} (h : f.shiftFits d p b = true) :
    ∃ w d' p', f = .shr w d' p' := by
  cases f <;> simp_all [Format.shiftFits]

theorem EncodeFits.clNew (x : Inst) :
    EncodeFits.Statement (.clNew x) := by
  intro f v h
  simp [encode, wellFormed] at h

theorem EncodeFits.clSample (x : Inst) (newValue : Bool) :
    EncodeFits.Statement (.clSample x newValue) := by
  intro f v h
  obtain ⟨hw, rfl⟩ := encode_eq_some.1 h
  obtain rfl : f = .cl := by simpa [wellFormed] using hw
  cases newValue <;> simp [packFields, packBits, Format.width]

theorem EncodeFits.clRead (x : Inst) :
    EncodeFits.Statement (.clRead x) := by
  intro f v h
  simp [encode, wellFormed] at h

theorem EncodeFits.srlNew (x : Inst) :
    EncodeFits.Statement (.srlNew x) := by
  intro f v h
  simp [encode, wellFormed] at h

theorem EncodeFits.srlHold (x : Inst) :
    EncodeFits.Statement (.srlHold x) := by
  intro f v h
  obtain ⟨hw, rfl⟩ := encode_eq_some.1 h
  obtain rfl : f = .srl := by simpa [wellFormed] using hw
  exact packBits_low_lt _ _

theorem EncodeFits.srlReset (x : Inst) :
    EncodeFits.Statement (.srlReset x) := by
  intro f v h
  obtain ⟨hw, rfl⟩ := encode_eq_some.1 h
  obtain rfl : f = .srl := by simpa [wellFormed] using hw
  exact packBits_low_lt _ _

theorem EncodeFits.srlSet (x : Inst) :
    EncodeFits.Statement (.srlSet x) := by
  intro f v h
  obtain ⟨hw, rfl⟩ := encode_eq_some.1 h
  obtain rfl : f = .srl := by simpa [wellFormed] using hw
  exact packBits_low_lt _ _

theorem EncodeFits.srlInvalid (x : Inst) :
    EncodeFits.Statement (.srlInvalid x) := by
  intro f v h
  obtain ⟨hw, rfl⟩ := encode_eq_some.1 h
  obtain rfl : f = .srl := by simpa [wellFormed] using hw
  exact packBits_low_lt _ _

theorem EncodeFits.srlRead (x : Inst) :
    EncodeFits.Statement (.srlRead x) := by
  intro f v h
  simp [encode, wellFormed] at h

theorem EncodeFits.dlNew (x : Inst) :
    EncodeFits.Statement (.dlNew x) := by
  intro f v h
  simp [encode, wellFormed] at h

theorem EncodeFits.dlHold (x : Inst) (d : Bool) :
    EncodeFits.Statement (.dlHold x d) := by
  intro f v h
  obtain ⟨hw, rfl⟩ := encode_eq_some.1 h
  obtain rfl : f = .dl := by simpa [wellFormed] using hw
  exact packBits_low_lt _ _

theorem EncodeFits.dlPass (x : Inst) (d : Bool) :
    EncodeFits.Statement (.dlPass x d) := by
  intro f v h
  obtain ⟨hw, rfl⟩ := encode_eq_some.1 h
  obtain rfl : f = .dl := by simpa [wellFormed] using hw
  exact packBits_low_lt _ _

theorem EncodeFits.dlRead (x : Inst) :
    EncodeFits.Statement (.dlRead x) := by
  intro f v h
  simp [encode, wellFormed] at h

theorem EncodeFits.dffNew (x : Inst) :
    EncodeFits.Statement (.dffNew x) := by
  intro f v h
  simp [encode, wellFormed] at h

theorem EncodeFits.dffStep (x : Inst) (data clk : Bool) :
    EncodeFits.Statement (.dffStep x data clk) := by
  intro f v h
  obtain ⟨hw, rfl⟩ := encode_eq_some.1 h
  obtain rfl : f = .dff := by simpa [wellFormed] using hw
  exact packBits_low_lt _ _

theorem EncodeFits.dffRead (x : Inst) :
    EncodeFits.Statement (.dffRead x) := by
  intro f v h
  simp [encode, wellFormed] at h

theorem EncodeFits.jkffNew (x : Inst) :
    EncodeFits.Statement (.jkffNew x) := by
  intro f v h
  simp [encode, wellFormed] at h

theorem EncodeFits.jkffHold (x : Inst) (clk : Bool) :
    EncodeFits.Statement (.jkffHold x clk) := by
  intro f v h
  obtain ⟨hw, rfl⟩ := encode_eq_some.1 h
  obtain rfl : f = .jkff := by simpa [wellFormed] using hw
  exact packBits_lt _ _ _

theorem EncodeFits.jkffReset (x : Inst) (clk : Bool) :
    EncodeFits.Statement (.jkffReset x clk) := by
  intro f v h
  obtain ⟨hw, rfl⟩ := encode_eq_some.1 h
  obtain rfl : f = .jkff := by simpa [wellFormed] using hw
  exact packBits_lt _ _ _

theorem EncodeFits.jkffSet (x : Inst) (clk : Bool) :
    EncodeFits.Statement (.jkffSet x clk) := by
  intro f v h
  obtain ⟨hw, rfl⟩ := encode_eq_some.1 h
  obtain rfl : f = .jkff := by simpa [wellFormed] using hw
  exact packBits_lt _ _ _

theorem EncodeFits.jkffToggle (x : Inst) (clk : Bool) :
    EncodeFits.Statement (.jkffToggle x clk) := by
  intro f v h
  obtain ⟨hw, rfl⟩ := encode_eq_some.1 h
  obtain rfl : f = .jkff := by simpa [wellFormed] using hw
  exact packBits_lt _ _ _

theorem EncodeFits.jkffRead (x : Inst) :
    EncodeFits.Statement (.jkffRead x) := by
  intro f v h
  simp [encode, wellFormed] at h

theorem EncodeFits.tffNew (x : Inst) :
    EncodeFits.Statement (.tffNew x) := by
  intro f v h
  simp [encode, wellFormed] at h

theorem EncodeFits.tffHold (x : Inst) (clk : Bool) :
    EncodeFits.Statement (.tffHold x clk) := by
  intro f v h
  obtain ⟨hw, rfl⟩ := encode_eq_some.1 h
  obtain rfl : f = .tff := by simpa [wellFormed] using hw
  exact packBits_low_lt _ _

theorem EncodeFits.tffToggle (x : Inst) (clk : Bool) :
    EncodeFits.Statement (.tffToggle x clk) := by
  intro f v h
  obtain ⟨hw, rfl⟩ := encode_eq_some.1 h
  obtain rfl : f = .tff := by simpa [wellFormed] using hw
  exact packBits_low_lt _ _

theorem EncodeFits.tffRead (x : Inst) :
    EncodeFits.Statement (.tffRead x) := by
  intro f v h
  simp [encode, wellFormed] at h

theorem EncodeFits.regNew (x : Inst) (width : Nat) :
    EncodeFits.Statement (.regNew x width) := by
  intro f v h
  simp [encode, wellFormed] at h

theorem EncodeFits.regHold (x : Inst) (value : Word) (clk : Bool) :
    EncodeFits.Statement (.regHold x value clk) := by
  intro f v h
  obtain ⟨hw, rfl⟩ := encode_eq_some.1 h
  cases f <;> simp [wellFormed, Format.regFits, fitsIn] at hw
  exact data_lt (k := 2) hw (packBits_low_lt _ _)

theorem EncodeFits.regLoad (x : Inst) (value : Word) (clk : Bool) :
    EncodeFits.Statement (.regLoad x value clk) := by
  intro f v h
  obtain ⟨hw, rfl⟩ := encode_eq_some.1 h
  cases f <;> simp [wellFormed, Format.regFits, fitsIn] at hw
  exact data_lt (k := 2) hw (packBits_low_lt _ _)

theorem EncodeFits.regRead (x : Inst) :
    EncodeFits.Statement (.regRead x) := by
  intro f v h
  simp [encode, wellFormed] at h

theorem EncodeFits.shrNew (x : Inst) (width : Nat) (dir : Dir) (fill : Fill) (init : Option Word) :
    EncodeFits.Statement (.shrNew x width dir fill init) := by
  intro f v h
  simp [encode, wellFormed] at h

theorem EncodeFits.shrShift (x : Inst) (serialIn : Option Bool) (clk : Bool) :
    EncodeFits.Statement (.shrShift x serialIn clk) := by
  intro f v h
  obtain ⟨hw, rfl⟩ := encode_eq_some.1 h
  cases f <;> simp [wellFormed, Format.anyShiftFits] at hw
  exact shift_fits rfl _ _

theorem EncodeFits.shrShiftRZero (x : Inst) (serialIn : Option Bool) (clk : Bool) :
    EncodeFits.Statement (.shrShiftRZero x serialIn clk) := by
  intro f v h
  obtain ⟨hw, rfl⟩ := encode_eq_some.1 h
  obtain ⟨_, _, _, hf⟩ := shiftFits_shr hw
  exact shift_fits hf _ _

theorem EncodeFits.shrShiftRSerial (x : Inst) (serialIn : Option Bool) (clk : Bool) :
    EncodeFits.Statement (.shrShiftRSerial x serialIn clk) := by
  intro f v h
  obtain ⟨hw, rfl⟩ := encode_eq_some.1 h
  obtain ⟨_, _, _, hf⟩ := shiftFits_shr hw
  exact shift_fits hf _ _

theorem EncodeFits.shrShiftRRing (x : Inst) (serialIn : Option Bool) (clk : Bool) :
    EncodeFits.Statement (.shrShiftRRing x serialIn clk) := by
  intro f v h
  obtain ⟨hw, rfl⟩ := encode_eq_some.1 h
  obtain ⟨_, _, _, hf⟩ := shiftFits_shr hw
  exact shift_fits hf _ _

theorem EncodeFits.shrShiftRJohnson (x : Inst) (serialIn : Option Bool) (clk : Bool) :
    EncodeFits.Statement (.shrShiftRJohnson x serialIn clk) := by
  intro f v h
  obtain ⟨hw, rfl⟩ := encode_eq_some.1 h
  obtain ⟨_, _, _, hf⟩ := shiftFits_shr hw
  exact shift_fits hf _ _

theorem EncodeFits.shrShiftLZero (x : Inst) (serialIn : Option Bool) (clk : Bool) :
    EncodeFits.Statement (.shrShiftLZero x serialIn clk) := by
  intro f v h
  obtain ⟨hw, rfl⟩ := encode_eq_some.1 h
  obtain ⟨_, _, _, hf⟩ := shiftFits_shr hw
  exact shift_fits hf _ _

theorem EncodeFits.shrShiftLSerial (x : Inst) (serialIn : Option Bool) (clk : Bool) :
    EncodeFits.Statement (.shrShiftLSerial x serialIn clk) := by
  intro f v h
  obtain ⟨hw, rfl⟩ := encode_eq_some.1 h
  obtain ⟨_, _, _, hf⟩ := shiftFits_shr hw
  exact shift_fits hf _ _

theorem EncodeFits.shrShiftLRing (x : Inst) (serialIn : Option Bool) (clk : Bool) :
    EncodeFits.Statement (.shrShiftLRing x serialIn clk) := by
  intro f v h
  obtain ⟨hw, rfl⟩ := encode_eq_some.1 h
  obtain ⟨_, _, _, hf⟩ := shiftFits_shr hw
  exact shift_fits hf _ _

theorem EncodeFits.shrShiftLJohnson (x : Inst) (serialIn : Option Bool) (clk : Bool) :
    EncodeFits.Statement (.shrShiftLJohnson x serialIn clk) := by
  intro f v h
  obtain ⟨hw, rfl⟩ := encode_eq_some.1 h
  obtain ⟨_, _, _, hf⟩ := shiftFits_shr hw
  exact shift_fits hf _ _

theorem EncodeFits.shrLhold (x : Inst) (value : Word) (clk : Bool) :
    EncodeFits.Statement (.shrLhold x value clk) := by
  intro f v h
  obtain ⟨hw, rfl⟩ := encode_eq_some.1 h
  cases f <;> simp [wellFormed, Format.shrFits, fitsIn] at hw
  exact data_lt (k := 4) hw (Nat.lt_trans (packBits_lt _ _ _) (by decide))

theorem EncodeFits.shrLoad (x : Inst) (value : Word) (clk : Bool) :
    EncodeFits.Statement (.shrLoad x value clk) := by
  intro f v h
  obtain ⟨hw, rfl⟩ := encode_eq_some.1 h
  cases f <;> simp [wellFormed, Format.shrFits, fitsIn] at hw
  exact data_lt (k := 4) hw (Nat.lt_trans (packBits_lt _ _ _) (by decide))

theorem EncodeFits.shrRead (x : Inst) :
    EncodeFits.Statement (.shrRead x) := by
  intro f v h
  simp [encode, wellFormed] at h

theorem EncodeFits.shrSout (x : Inst) :
    EncodeFits.Statement (.shrSout x) := by
  intro f v h
  simp [encode, wellFormed] at h

theorem EncodeFits.cntNew (x : Inst) (width : Nat) (modulus : Option Nat) (defaultDir : Option CountDir) (style : Option Style) :
    EncodeFits.Statement (.cntNew x width modulus defaultDir style) := by
  intro f v h
  simp [encode, wellFormed] at h

theorem EncodeFits.cntTick (x : Inst) (clk : Bool) :
    EncodeFits.Statement (.cntTick x clk) := by
  intro f v h
  obtain ⟨hw, rfl⟩ := encode_eq_some.1 h
  obtain rfl : f = .cnt := by simpa [wellFormed] using hw
  exact packBits_lt _ _ _

theorem EncodeFits.cntTickup (x : Inst) (clk : Bool) :
    EncodeFits.Statement (.cntTickup x clk) := by
  intro f v h
  obtain ⟨hw, rfl⟩ := encode_eq_some.1 h
  obtain rfl : f = .cnt := by simpa [wellFormed] using hw
  exact packBits_lt _ _ _

theorem EncodeFits.cntTickdn (x : Inst) (clk : Bool) :
    EncodeFits.Statement (.cntTickdn x clk) := by
  intro f v h
  obtain ⟨hw, rfl⟩ := encode_eq_some.1 h
  obtain rfl : f = .cnt := by simpa [wellFormed] using hw
  exact packBits_lt _ _ _

theorem EncodeFits.cntRead (x : Inst) :
    EncodeFits.Statement (.cntRead x) := by
  intro f v h
  simp [encode, wellFormed] at h

theorem EncodeFits.rfNew (x : Inst) (slots : Nat) (zeroIndex : Option Nat) (wordWidth readPorts : Option Nat) :
    EncodeFits.Statement (.rfNew x slots zeroIndex wordWidth readPorts) := by
  intro f v h
  simp [encode, wellFormed] at h

theorem EncodeFits.rfWhold (x : Inst) (index : Nat) (value : Word) (clk : Bool) :
    EncodeFits.Statement (.rfWhold x index value clk) := by
  intro f v h
  obtain ⟨hw, rfl⟩ := encode_eq_some.1 h
  cases f <;> simp [wellFormed, Format.rfwFits, fitsIn] at hw
  rename_i a w
  have hd := data_lt (k := a) hw.2 hw.1
  rw [Nat.mul_comm] at hd
  have h := data_lt (k := 2) hd (packBits_low_lt false clk)
  rw [Nat.add_comm w a] at h
  exact h

theorem EncodeFits.rfWrite (x : Inst) (index : Nat) (value : Word) (clk : Bool) :
    EncodeFits.Statement (.rfWrite x index value clk) := by
  intro f v h
  obtain ⟨hw, rfl⟩ := encode_eq_some.1 h
  cases f <;> simp [wellFormed, Format.rfwFits, fitsIn] at hw
  rename_i a w
  have hd := data_lt (k := a) hw.2 hw.1
  rw [Nat.mul_comm] at hd
  have h := data_lt (k := 2) hd (packBits_low_lt true clk)
  rw [Nat.add_comm w a] at h
  exact h

theorem EncodeFits.rfRead (x : Inst) (index : Nat) :
    EncodeFits.Statement (.rfRead x index) := by
  intro f v h
  obtain ⟨hw, rfl⟩ := encode_eq_some.1 h
  cases f <;> simp [wellFormed, Format.rfrFits, fitsIn] at hw
  exact hw

end Sys2Proof.Laws
end

