-- ==== Sys2Proof/Machine/Text.lean ====
section
/-! DEFINITION. Text.lean: the textual syntax of constructions, mutations, inspections and pseudo-operations
(30_encoding.md R100 to R104), as a rendering of the abstract syntax. Instance names are written `x` and the number;
numbers are decimal, booleans `0` and `1` (R101). No operation depends on it. -/

namespace Sys2Proof.Machine

/-- An instance's name (log 4). -/
def nameText (x : Inst) : String := "x" ++ toString x

/-- A boolean operand (30_encoding.md R101). -/
def boolText (b : Bool) : String := if b then "1" else "0"

/-- An optional operand: `None` or `Some(..)` (30_encoding.md R101). -/
def optText {α : Type} (f : α → String) (o : Option α) : String :=
  match o with
  | none => "None"
  | some a => "Some(" ++ f a ++ ")"

/-- `DIR` (30_encoding.md R100). -/
def dirText (d : Dir) : String :=
  match d with
  | .right => "Right"
  | .left => "Left"

/-- `FILL` (30_encoding.md R100). -/
def fillText (f : Fill) : String :=
  match f with
  | .zero => "Zero"
  | .serial => "Serial"
  | .ring => "Ring"
  | .johnson => "Johnson"

/-- A Counter direction (30_encoding.md R100, R101). -/
def countDirText (d : CountDir) : String :=
  match d with
  | .up => "Up"
  | .down => "Down"

/-- `STYLE` (30_encoding.md R100). -/
def styleText (y : Style) : String :=
  match y with
  | .synchronous => "Synchronous"
  | .ripple => "Ripple"

/-- A trailing named argument, left out when it is absent (30_encoding.md R100). -/
def namedText {α : Type} (name : String) (f : α → String) (o : Option α) : String :=
  match o with
  | none => ""
  | some a => ", " ++ name ++ "=" ++ f a

/-- `name = Kind::new(arguments)` (30_encoding.md R100). -/
def newText (x : Inst) (kind args : String) : String := nameText x ++ " = " ++ kind ++ "::new(" ++ args ++ ")"

/-- `name.op(arguments)` (30_encoding.md R101, R102). -/
def callText (x : Inst) (op : String) (args : List String) : String :=
  nameText x ++ "." ++ op ++ "(" ++ String.intercalate ", " args ++ ")"

/-- The arguments that end in the clock sample, which a pseudo-operation leaves out (30_encoding.md R103). -/
def clocked (withClk : Bool) (args : List String) (clk : Bool) : List String :=
  if withClk then args ++ [boolText clk] else args

/-- A line's operation, with or without its clock operand (30_encoding.md R100 to R103). -/
def instrText (withClk : Bool) (i : Instr) : String :=
  match i with
  | .clNew x => newText x "ClockLine" ""
  | .clSample x v => callText x "sample" [boolText v]
  | .srlNew x => newText x "SrLatch" ""
  | .srlHold x => callText x "step" ["0", "0"]
  | .srlReset x => callText x "step" ["0", "1"]
  | .srlSet x => callText x "step" ["1", "0"]
  | .srlInvalid x => callText x "step" ["1", "1"]
  | .dlNew x => newText x "DLatch" ""
  | .dlHold x d => callText x "step" [boolText d, "0"]
  | .dlPass x d => callText x "step" [boolText d, "1"]
  | .dffNew x => newText x "BitCell" ""
  | .dffStep x d c => callText x "step" (clocked withClk [boolText d] c)
  | .jkffNew x => newText x "JkCell" ""
  | .jkffHold x c => callText x "step" (clocked withClk ["0", "0"] c)
  | .jkffReset x c => callText x "step" (clocked withClk ["0", "1"] c)
  | .jkffSet x c => callText x "step" (clocked withClk ["1", "0"] c)
  | .jkffToggle x c => callText x "step" (clocked withClk ["1", "1"] c)
  | .tffNew x => newText x "TCell" ""
  | .tffHold x c => callText x "step" (clocked withClk ["0"] c)
  | .tffToggle x c => callText x "step" (clocked withClk ["1"] c)
  | .regNew x w => newText x "Register" (toString w)
  | .regHold x v c => callText x "load" (clocked withClk [toString v, "0"] c)
  | .regLoad x v c => callText x "load" (clocked withClk [toString v, "1"] c)
  | .shrNew x w d f init =>
    newText x "ShiftRegister" (toString w ++ ", " ++ dirText d ++ ", " ++ fillText f ++ namedText "init" toString init)
  | .shrShift x b c => callText x "shift" (clocked withClk [optText boolText b] c)
  | .shrShiftRZero x b c => callText x "shift" (clocked withClk [optText boolText b] c)
  | .shrShiftRSerial x b c => callText x "shift" (clocked withClk [optText boolText b] c)
  | .shrShiftRRing x b c => callText x "shift" (clocked withClk [optText boolText b] c)
  | .shrShiftRJohnson x b c => callText x "shift" (clocked withClk [optText boolText b] c)
  | .shrShiftLZero x b c => callText x "shift" (clocked withClk [optText boolText b] c)
  | .shrShiftLSerial x b c => callText x "shift" (clocked withClk [optText boolText b] c)
  | .shrShiftLRing x b c => callText x "shift" (clocked withClk [optText boolText b] c)
  | .shrShiftLJohnson x b c => callText x "shift" (clocked withClk [optText boolText b] c)
  | .shrLhold x v c => callText x "load" (clocked withClk [toString v, "0"] c)
  | .shrLoad x v c => callText x "load" (clocked withClk [toString v, "1"] c)
  | .shrSout x => callText x "sout" []
  | .cntNew x w m d y =>
    newText x "Counter" (toString w ++ ", " ++ optText toString m ++ namedText "default_dir" countDirText d ++
      namedText "style" styleText y)
  | .cntTick x c => callText x "tick" (if withClk then [boolText c, "None"] else ["None"])
  | .cntTickup x c => callText x "tick" (if withClk then [boolText c, "Some(Up)"] else ["Some(Up)"])
  | .cntTickdn x c => callText x "tick" (if withClk then [boolText c, "Some(Down)"] else ["Some(Down)"])
  | .rfNew x n z w r =>
    newText x "RegisterFile" (toString n ++ ", " ++ optText toString z ++ namedText "word_w" toString w ++
      namedText "nread" toString r)
  | .rfWhold x k v c => callText x "write" (clocked withClk [toString k, toString v, "0"] c)
  | .rfWrite x k v c => callText x "write" (clocked withClk [toString k, toString v, "1"] c)
  | .rfRead x k => callText x "read" [toString k]
  | .clRead x | .srlRead x | .dlRead x | .dffRead x | .jkffRead x | .tffRead x => callText x "read" []
  | .regRead x | .shrRead x | .cntRead x => callText x "read" []

/-- `peek` in place of `read` (30_encoding.md R102). -/
def peekText (i : Instr) : String :=
  match i with
  | .rfRead x k => callText x "peek" [toString k]
  | i => callText i.inst "peek" []

/-- A line of a program (30_encoding.md R103, R104); a call given as a vector has no spelling and is written as its
number. -/
def lineText (l : Line) : String :=
  match l with
  | .call (.op i) => instrText true i
  | .call (.vector x .inputs v) => nameText x ++ " <- " ++ toString v
  | .call (.vector x (.read k) v) => nameText x ++ ".raddr_" ++ toString k ++ " <- " ++ toString v
  | .pulse i => "pulse " ++ instrText false i
  | .low i => "low " ++ instrText false i
  | .high i => "high " ++ instrText false i
  | .peek i => peekText i
  | .repeated n l => "repeat " ++ toString n ++ ": " ++ lineText l

end Sys2Proof.Machine
end

