-- ==== Sys2Proof/Tests/Slice0.lean ====
section
/-! SUPPORT. Tests/Slice0.lean: own tests. Expected values are those of 95_test_vectors.md, of the encoding tables
of 30_encoding.md, or worked by hand from the rule named; none is the model's own answer. Parts: ill-formed terms
the checks refuse; words that decode; one call on a small state; the witnesses of the statements' hypotheses. -/

namespace Sys2Proof.Tests

open Sys2Proof Sys2Proof.Machine

/-! ### Helpers -/

/-- A machine with the one instance 0. -/
def one (e : Element) : State := { elems := [(0, e)], reply := .idle, errs := [], calls := [] }

/-- Instance 0 after the operations `is` on the machine with the one instance `e`; `none` where they stop. -/
def after (e : Element) (is : List Instr) : Option Element :=
  match execAll is (one e) with
  | .next t => t.find 0
  | .fault _ => none
  | .refused _ => none

/-- The last reply after the operations `is` on `s`; `none` where they stop. -/
def replyFrom (s : State) (is : List Instr) : Option Reply :=
  match execAll is s with
  | .next t => some t.reply
  | .fault _ => none
  | .refused _ => none

/-- The last reply after the operations `is` on the machine with the one instance `e`. -/
def reply (e : Element) (is : List Instr) : Option Reply := replyFrom (one e) is

/-- The state a step answers; `none` where it stops. -/
def nextOf (r : Host.Outcome State Fault Refusal) : Option State :=
  match r with
  | .next t => some t
  | .fault _ => none
  | .refused _ => none

/-- A step stops with a fault. -/
def faultOf (r : Host.Outcome State Fault Refusal) : Option Fault :=
  match r with
  | .next _ => none
  | .fault f => some f
  | .refused _ => none

/-- A step stops with a refusal. -/
def refusalOf (r : Host.Outcome State Fault Refusal) : Option Refusal :=
  match r with
  | .next _ => none
  | .fault _ => none
  | .refused q => some q

/-- The operation a vector decodes to. -/
def decoded (f : Format) (v : Nat) : Option Instr := (decode f 0 v).toOption

/-- A line whose last sample was high (or low). -/
def line (current : Bool) : ClockLine := { current := current, previous := false }

/-- The four cells `1011` of V-SHR, bit 0 first, with the line low. -/
def bank : CellBank := { cells := [true, true, false, true], clkLine := line false }

/-- Parameters of a four-bit ShiftRegister. -/
def shift4 (d : Dir) (p : Fill) : ShiftParams := { width := 4, dir := d, fill := p, init := 0 }

/-- A four-bit ShiftRegister that holds `1011`. -/
def shr (d : Dir) (p : Fill) : Element := .shiftRegister (shift4 d p) bank

/-- The same ShiftRegister holding other cells after a pulse. -/
def shrAt (d : Dir) (p : Fill) (cells : List Bool) : Element :=
  .shiftRegister (shift4 d p) { cells := cells, clkLine := { current := true, previous := false } }

/-- Parameters of a four-bit Counter. -/
def count4 (m : Option Nat) (y : Style) : CounterParams :=
  { width := 4, modulus := m, defaultDir := .up, style := y }

/-- A four-bit decade Counter at `n`, its line low. -/
def decade (n : Nat) : Element := .counter (count4 (some 10) .synchronous) (.paired n (line false))

/-- A settled four-bit ripple Counter at 7, its external line low (45_counter.md R221, R223). -/
def chain7 : CounterState :=
  .chained [true, true, true, false] [line false, line true, line true, line true]

/-- The small file of V-RF: four slots, zero index 0, words of 8 bits. -/
def file4 : FileParams := { slots := 4, zeroIndex := some 0, wordWidth := 8, readPorts := 2 }

/-- That file with `0x11` in slot 1, its line low. -/
def fileState : FileState := { slots := [(1, 0x11)], clkLine := line false }

/-- That file as an instance. -/
def file : Element := .registerFile file4 fileState

/-! ### WellFormed: an ill-formed term for each check -/

theorem test_ill_formed_wrong_format : wellFormed (.srl) (.clSample 0 true) = false := by decide
theorem test_ill_formed_register_value_too_wide : wellFormed (.reg 4) (.regLoad 0 16 true) = false := by decide
theorem test_ill_formed_disabled_register_value_too_wide : wellFormed (.reg 4) (.regHold 0 16 true) = false := by decide
theorem test_ill_formed_register_operation_in_shift_format : wellFormed (.shr 4 .right .zero) (.regLoad 0 3 true) = false := by decide
theorem test_ill_formed_shift_load_value_too_wide : wellFormed (.shr 4 .right .zero) (.shrLoad 0 16 true) = false := by decide
theorem test_ill_formed_disabled_shift_load_value_too_wide : wellFormed (.shr 4 .right .zero) (.shrLhold 0 16 true) = false := by decide
theorem test_ill_formed_shift_of_the_other_direction : wellFormed (.shr 4 .left .zero) (.shrShiftRZero 0 none true) = false := by decide
theorem test_ill_formed_shift_of_the_other_fill : wellFormed (.shr 4 .right .ring) (.shrShiftRZero 0 none true) = false := by decide
theorem test_ill_formed_serial_form_without_bit : wellFormed (.shr 4 .right .serial) (.shrShiftRSerial 0 none true) = false := by decide
theorem test_ill_formed_serial_shift_without_bit : wellFormed (.shr 4 .left .serial) (.shrShift 0 none true) = false := by decide
theorem test_ill_formed_write_index_too_wide : wellFormed (.rfw 2 8) (.rfWrite 0 4 0 true) = false := by decide
theorem test_ill_formed_write_data_too_wide : wellFormed (.rfw 2 8) (.rfWrite 0 3 256 true) = false := by decide
theorem test_ill_formed_disabled_write_index_too_wide : wellFormed (.rfw 2 8) (.rfWhold 0 4 0 true) = false := by decide
theorem test_ill_formed_read_index_too_wide : wellFormed (.rfr 2) (.rfRead 0 4) = false := by decide
theorem test_ill_formed_construction_has_no_vector : wellFormed (.reg 4) (.regNew 0 4) = false := by decide
theorem test_ill_formed_inspection_has_no_vector : wellFormed (.cl) (.clRead 0) = false := by decide
theorem test_ill_formed_serial_output_has_no_vector : wellFormed (.shr 4 .right .zero) (.shrSout 0) = false := by decide
theorem test_ill_formed_tick_in_flip_flop_format : wellFormed (.jkff) (.cntTick 0 true) = false := by decide
theorem test_well_formed_boundary_values :
    wellFormed (.reg 4) (.regLoad 0 15 true) = true ∧ wellFormed (.rfw 2 8) (.rfWrite 0 3 255 true) = true ∧
    wellFormed (.rfr 2) (.rfRead 0 3) = true ∧ wellFormed (.shr 4 .right .serial) (.shrShift 0 (some false) true) = true :=
  by decide

/-! ### Decode: a word for every operation that has a vector, written out from the encoding tables of 30_encoding.md
R82 to R89 and R95 -/

theorem test_decode_cl_sample : decoded (.cl) 0b1 = some (.clSample 0 true) := by decide
theorem test_decode_srl_hold : decoded (.srl) 0b00 = some (.srlHold 0) := by decide
theorem test_decode_srl_reset : decoded (.srl) 0b01 = some (.srlReset 0) := by decide
theorem test_decode_srl_set : decoded (.srl) 0b10 = some (.srlSet 0) := by decide
theorem test_decode_srl_invalid : decoded (.srl) 0b11 = some (.srlInvalid 0) := by decide
theorem test_decode_dl_hold : decoded (.dl) 0b10 = some (.dlHold 0 true) := by decide
theorem test_decode_dl_pass : decoded (.dl) 0b01 = some (.dlPass 0 false) := by decide
theorem test_decode_dff_step : decoded (.dff) 0b10 = some (.dffStep 0 true false) := by decide
theorem test_decode_jkff_hold : decoded (.jkff) 0b001 = some (.jkffHold 0 true) := by decide
theorem test_decode_jkff_reset : decoded (.jkff) 0b010 = some (.jkffReset 0 false) := by decide
theorem test_decode_jkff_set : decoded (.jkff) 0b101 = some (.jkffSet 0 true) := by decide
theorem test_decode_jkff_toggle : decoded (.jkff) 0b110 = some (.jkffToggle 0 false) := by decide
theorem test_decode_tff_hold : decoded (.tff) 0b01 = some (.tffHold 0 true) := by decide
theorem test_decode_tff_toggle : decoded (.tff) 0b10 = some (.tffToggle 0 false) := by decide
theorem test_decode_reg_hold : decoded (.reg 4) 0b010101 = some (.regHold 0 0b0101 true) := by decide
theorem test_decode_reg_load : decoded (.reg 4) 0x2A = some (.regLoad 0 0b1010 false) := by decide
theorem test_decode_shr_shift_right_zero : decoded (.shr 4 .right .zero) 0b00001001 = some (.shrShiftRZero 0 (some true) true) := by decide
theorem test_decode_shr_shift_right_serial : decoded (.shr 4 .right .serial) 0b00001001 = some (.shrShiftRSerial 0 (some true) true) := by decide
theorem test_decode_shr_shift_right_ring : decoded (.shr 4 .right .ring) 0b00001001 = some (.shrShiftRRing 0 (some true) true) := by decide
theorem test_decode_shr_shift_right_johnson : decoded (.shr 4 .right .johnson) 0b00001001 = some (.shrShiftRJohnson 0 (some true) true) := by decide
theorem test_decode_shr_shift_left_zero : decoded (.shr 4 .left .zero) 0b00000001 = some (.shrShiftLZero 0 (some false) true) := by decide
theorem test_decode_shr_shift_left_serial : decoded (.shr 4 .left .serial) 0b00000001 = some (.shrShiftLSerial 0 (some false) true) := by decide
theorem test_decode_shr_shift_left_ring : decoded (.shr 4 .left .ring) 0b00000001 = some (.shrShiftLRing 0 (some false) true) := by decide
theorem test_decode_shr_shift_left_johnson : decoded (.shr 4 .left .johnson) 0b00000001 = some (.shrShiftLJohnson 0 (some false) true) := by decide
theorem test_decode_shr_lhold : decoded (.shr 4 .right .ring) 0b10110010 = some (.shrLhold 0 0b1011 false) := by decide
theorem test_decode_shr_load : decoded (.shr 4 .left .zero) 0xB7 = some (.shrLoad 0 0b1011 true) := by decide
theorem test_decode_shr_ignored_fields_of_a_shift : decoded (.shr 4 .right .zero) 0b11110101 = some (.shrShiftRZero 0 (some false) true) := by decide
theorem test_decode_cnt_tick : decoded (.cnt) 0b101 = some (.cntTick 0 true) := by decide
theorem test_decode_cnt_tickup : decoded (.cnt) 0b010 = some (.cntTickup 0 false) := by decide
theorem test_decode_cnt_tickdn : decoded (.cnt) 0b111 = some (.cntTickdn 0 true) := by decide
theorem test_decode_rf_whold : decoded (.rfw 2 8) 0x445 = some (.rfWhold 0 1 0x44 true) := by decide
theorem test_decode_rf_write : decoded (.rfw 2 8) 0x33E = some (.rfWrite 0 3 0x33 false) := by decide
theorem test_decode_rf_write_64_bit : decoded (.rfw 5 64) 0x6F56DF77FF = some (.rfWrite 0 31 0xDEADBEEF true) := by decide
theorem test_decode_rf_read : decoded (.rfr 5) 0x1F = some (.rfRead 0 31) := by decide

/-- The whole `shift` is written as its form is (30_encoding.md R95), and `None` as `sin = 0` (R88). -/
theorem test_encode_shift :
    encode (.shr 4 .right .serial) (.shrShift 0 (some true) true) = some 0x09 ∧
    encode (.shr 4 .left .ring) (.shrShift 0 none false) = some 0x00 := by decide

/-- A bit above the format's width (30_encoding.md R80). -/
theorem test_decode_too_wide : decoded .cl 2 = none ∧ decoded (.reg 4) 0x40 = none ∧ decoded (.rfr 2) 4 = none := by
  decide

/-- No two rows of the operation map of one format share a three-bit word (30_encoding.md R96). -/
theorem test_operation_map_rows_are_disjoint :
    (List.range 8).all (fun v => ["CL", "SRL", "DL", "DFF", "JKFF", "TFF", "REG", "SHR", "CNT", "RFW", "RFR"].all (fun f =>
      decide ((opMap.filter (fun r => decide (r.format = f) && r.selects v)).length = 1))) = true := by decide

/-- Words of the opcode table, read in the default format (log 11), and the step that runs one. -/
theorem test_table_words :
    decodeTableWord 8 3 = some (.srlInvalid 0) ∧ decodeTableWord 8 6 = some (.jkffToggle 0 false) ∧
    decodeTableWord 8 0x2B = some (.regLoad 0 0b1010 true) ∧ decodeTableWord 8 256 = none ∧
    (nextOf (step (State.reset.withFetchWord 8 6))).map State.reply = some .ok := by decide

/-! ### One call of each operation (95_test_vectors.md; the rule where the vectors have none) -/

/-- 40_clockline.md R120. -/
theorem test_cl_new :
    nextOf (exec (.clNew 3) State.reset) =
      some { elems := [(3, .clockLine ⟨false, false⟩)], reply := .ok, errs := [], calls := [] } := by decide
/-- V-CL, row 2. -/
theorem test_cl_sample_rising : reply (.clockLine (line false)) [.clSample 0 true] = some (.edge .rising) := by decide
/-- V-CL, row 4. -/
theorem test_cl_sample_fields :
    after (.clockLine ⟨true, true⟩) [.clSample 0 false] =
      some (.clockLine ⟨false, true⟩) := by decide
/-- 40_clockline.md R125. -/
theorem test_cl_read : reply (.clockLine ⟨false, true⟩) [.clRead 0] = some (.lines false true) := by decide
/-- 41_latch.md R130. -/
theorem test_srl_new : (nextOf (exec (.srlNew 0) State.reset)).map (fun u => qPort u 0) = some (some 0) := by decide
/-- V-SRL, row 3. -/
theorem test_srl_hold : after (.srLatch true) [.srlHold 0] = some (.srLatch true) := by decide
/-- V-SRL, row 5. -/
theorem test_srl_reset : after (.srLatch true) [.srlReset 0] = some (.srLatch false) := by decide
/-- V-SRL, row 2. -/
theorem test_srl_set : after (.srLatch false) [.srlSet 0] = some (.srLatch true) := by decide
/-- V-SRL, row 8. -/
theorem test_srl_invalid_error : reply (.srLatch true) [.srlInvalid 0] = some (.error .invalidState) := by decide
/-- V-SRL, rows 8 and 9. -/
theorem test_srl_invalid_then_reset :
    after (.srLatch true) [.srlInvalid 0, .srlReset 0] =
      some (.srLatch false) := by decide
/-- 41_latch.md R136. -/
theorem test_srl_read : reply (.srLatch true) [.srlRead 0] = some (.bit true) := by decide
/-- 41_latch.md R137. -/
theorem test_dl_new : (nextOf (exec (.dlNew 0) State.reset)).map (fun u => qPort u 0) = some (some 0) := by decide
/-- V-DL, row 5. -/
theorem test_dl_hold : after (.dLatch true) [.dlHold 0 false] = some (.dLatch true) := by decide
/-- V-DL, rows 3 and 4: no edge is needed. -/
theorem test_dl_pass_twice : after (.dLatch true) [.dlPass 0 false, .dlPass 0 true] = some (.dLatch true) := by decide
/-- 41_latch.md R141. -/
theorem test_dl_read : reply (.dLatch true) [.dlRead 0] = some (.bit true) := by decide
/-- 42_bitcell.md R145. -/
theorem test_dff_new : (nextOf (exec (.dffNew 0) State.reset)).map (fun u => qPort u 0) = some (some 0) := by decide
/-- V-DFF, row 5. -/
theorem test_dff_step_captures :
    after (.dff ⟨true, line false⟩) [.dffStep 0 false true] =
      some (.dff ⟨false, ⟨true, false⟩⟩) := by decide
/-- V-DFF, row 3. -/
theorem test_dff_step_clock_held_high :
    after (.dff ⟨true, ⟨true, false⟩⟩) [.dffStep 0 false true] =
      some (.dff ⟨true, ⟨true, true⟩⟩) := by decide
/-- 42_bitcell.md R147. -/
theorem test_dff_read : reply (.dff ⟨true, line false⟩) [.dffRead 0] = some (.bit true) := by decide
/-- 42_bitcell.md R150. -/
theorem test_jkff_new : (nextOf (exec (.jkffNew 0) State.reset)).map (fun u => qPort u 0) = some (some 0) := by decide
/-- V-JK, pulse 2. -/
theorem test_jkff_hold :
    reply (.jkff ⟨true, line true⟩) (pulse (.jkffHold 0 false) ++ [.jkffRead 0]) =
      some (.bit true) := by decide
/-- V-JK, pulse 5. -/
theorem test_jkff_reset :
    reply (.jkff ⟨true, line true⟩) (pulse (.jkffReset 0 false) ++ [.jkffRead 0]) =
      some (.bit false) := by decide
/-- V-JK, pulse 1. -/
theorem test_jkff_set :
    reply (.jkff ⟨false, line false⟩) (pulse (.jkffSet 0 false) ++ [.jkffRead 0]) =
      some (.bit true) := by decide
/-- V-JK, pulse 3. -/
theorem test_jkff_toggle :
    reply (.jkff ⟨true, line true⟩) (pulse (.jkffToggle 0 false) ++ [.jkffRead 0]) =
      some (.bit false) := by decide
/-- V-JK, corner case. -/
theorem test_jkff_toggle_held_high :
    reply (.jkff ⟨true, line true⟩) [.jkffToggle 0 true, .jkffRead 0] =
      some (.bit true) := by decide
/-- 42_bitcell.md R156. -/
theorem test_jkff_read : reply (.jkff ⟨false, line true⟩) [.jkffRead 0] = some (.bit false) := by decide
/-- 42_bitcell.md R158. -/
theorem test_tff_new : (nextOf (exec (.tffNew 0) State.reset)).map (fun u => qPort u 0) = some (some 0) := by decide
/-- 42_bitcell.md R160. -/
theorem test_tff_hold :
    after (.tff ⟨true, line false⟩) [.tffHold 0 true] =
      some (.tff ⟨true, ⟨true, false⟩⟩) := by decide
/-- V-T, row 5. -/
theorem test_tff_toggle :
    after (.tff ⟨true, line false⟩) [.tffToggle 0 true] =
      some (.tff ⟨false, ⟨true, false⟩⟩) := by decide
/-- V-T, row 3. -/
theorem test_tff_toggle_held_high :
    after (.tff ⟨true, line true⟩) [.tffToggle 0 true] =
      some (.tff ⟨true, ⟨true, true⟩⟩) := by decide
/-- 42_bitcell.md R162. -/
theorem test_tff_read : reply (.tff ⟨true, line true⟩) [.tffRead 0] = some (.bit true) := by decide
/-- 43_register.md R165. -/
theorem test_reg_new :
    after (.srLatch true) [.regNew 0 2] =
      some (.register 2 ⟨[false, false], ⟨false, false⟩⟩) := by decide
/-- V-REG, corner case. -/
theorem test_reg_new_illegal : replyFrom State.reset [.regNew 0 0] = some (.error .invalidConfiguration) := by decide
/-- V-REG, row 4. -/
theorem test_reg_hold :
    reply (.register 4 ⟨[false, true, false, true], line false⟩) [.regHold 0 0b0101 true, .regRead 0] =
      some (.word 0b1010) := by decide
/-- V-REG, row 7. -/
theorem test_reg_load :
    reply (.register 4 ⟨[false, true, false, true], line false⟩) [.regLoad 0 0b0101 true, .regRead 0] =
      some (.word 0b0101) := by decide
/-- 43_register.md R166: cell 0 is bit 0. -/
theorem test_reg_load_bits :
    after (.register 4 ⟨[false, false, false, false], line false⟩) [.regLoad 0 0b0011 true] =
      some (.register 4 ⟨[true, true, false, false], ⟨true, false⟩⟩) := by decide
/-- V-REG, corner case (D33). -/
theorem test_reg_load_too_wide :
    refusalOf (exec (.regLoad 0 16 true) (one (.register 4 ⟨[false, false, false, false], line false⟩))) =
      some (.operandTooWide 0) := by decide
/-- 43_register.md R168: bit 0 first. -/
theorem test_reg_read :
    reply (.register 4 ⟨[false, false, true, true], line false⟩) [.regRead 0] =
      some (.word 0b1100) := by decide
/-- 44_shift_register.md R180. -/
theorem test_shr_new :
    after (.srLatch true) [.shrNew 0 4 .right .zero (some 0b1011)] =
      some (.shiftRegister ⟨4, .right, .zero, 0b1011⟩ ⟨[true, true, false, true], ⟨false, false⟩⟩) := by decide
/-- V-SHR-7, pulse 1. -/
theorem test_shr_shift :
    after (shr .left .ring) (pulse (.shrShift 0 none false)) =
      some (shrAt .left .ring [true, true, true, false]) := by decide
/-- V-ERR, row 2. -/
theorem test_shr_shift_serial_missing :
    reply (shr .left .serial) [.shrShift 0 none true] =
      some (.error .invalidState) := by decide
/-- V-SHR-1, pulse 1. -/
theorem test_shr_shift_right_zero :
    after (shr .right .zero) (pulse (.shrShiftRZero 0 none false)) =
      some (shrAt .right .zero [true, false, true, false]) := by decide
/-- V-SHR-2, pulse 1. -/
theorem test_shr_shift_right_serial :
    after (shr .right .serial) (pulse (.shrShiftRSerial 0 (some true) false)) =
      some (shrAt .right .serial [true, false, true, true]) := by decide
/-- V-SHR-3, pulse 1. -/
theorem test_shr_shift_right_ring :
    after (shr .right .ring) (pulse (.shrShiftRRing 0 none false)) =
      some (shrAt .right .ring [true, false, true, true]) := by decide
/-- V-SHR-4, pulse 1. -/
theorem test_shr_shift_right_johnson :
    after (shr .right .johnson) (pulse (.shrShiftRJohnson 0 none false)) =
      some (shrAt .right .johnson [true, false, true, false]) := by decide
/-- V-SHR-5, pulse 1. -/
theorem test_shr_shift_left_zero :
    after (shr .left .zero) (pulse (.shrShiftLZero 0 none false)) =
      some (shrAt .left .zero [false, true, true, false]) := by decide
/-- V-SHR-6, pulse 1. -/
theorem test_shr_shift_left_serial :
    after (shr .left .serial) (pulse (.shrShiftLSerial 0 (some true) false)) =
      some (shrAt .left .serial [true, true, true, false]) := by decide
/-- V-SHR-7, pulse 1. -/
theorem test_shr_shift_left_ring :
    after (shr .left .ring) (pulse (.shrShiftLRing 0 none false)) =
      some (shrAt .left .ring [true, true, true, false]) := by decide
/-- V-SHR-8, pulse 1. -/
theorem test_shr_shift_left_johnson :
    after (shr .left .johnson) (pulse (.shrShiftLJohnson 0 none false)) =
      some (shrAt .left .johnson [false, true, true, false]) := by decide
/-- V-SHR-8, pulse 2. -/
theorem test_shr_shift_johnson_second_pulse :
    reply (shr .left .johnson) (times 2 (pulse (.shrShiftLJohnson 0 none false)) ++ [.shrRead 0]) =
      some (.word 0b1101) := by decide
/-- Log 9. -/
theorem test_shr_other_form :
    refusalOf (exec (.shrShiftRZero 0 none true) (one (shr .left .zero))) =
      some (.otherForm 0) := by decide
/-- 44_shift_register.md R192. -/
theorem test_shr_lhold :
    reply (shr .right .zero) (pulse (.shrLhold 0 0b0100 false) ++ [.shrRead 0]) =
      some (.word 0b1011) := by decide
/-- P2, the load. -/
theorem test_shr_load :
    reply (shr .left .ring) (pulse (.shrLoad 0 0b0001 false) ++ [.shrRead 0]) =
      some (.word 0b0001) := by decide
/-- 44_shift_register.md R194. -/
theorem test_shr_read : reply (shr .left .ring) [.shrRead 0] = some (.word 0b1011) := by decide
/-- 44_shift_register.md R193: `cells[0]` for `Right`. -/
theorem test_shr_sout :
    reply (shrAt .right .zero [false, true, true, true]) [.shrSout 0] =
      some (.bit false) := by decide
/-- 44_shift_register.md R193: `cells[W-1]` for `Left`. -/
theorem test_shr_sout_left :
    reply (shrAt .left .zero [false, true, true, true]) [.shrSout 0] =
      some (.bit true) := by decide
/-- 45_counter.md R210. -/
theorem test_cnt_new :
    after (.srLatch true) [.cntNew 0 4 (some 10) none none] =
      some (.counter (count4 (some 10) .synchronous) (.paired 0 ⟨false, false⟩)) := by decide
/-- 10_state.md R29, R41. -/
theorem test_cnt_new_ripple :
    after (.srLatch true) [.cntNew 0 1 none (some .down) (some .ripple)] =
      some (.counter ⟨1, none, .down, .ripple⟩ (.chained [false] [⟨false, false⟩])) := by decide
/-- P5, the last pulse. -/
theorem test_cnt_tick : reply (decade 8) [.cntTick 0 true, .cntRead 0] = some (.word 9) := by decide
/-- 45_counter.md R211, R214. -/
theorem test_cnt_tick_default_down :
    reply (.counter ⟨4, some 10, .down, .synchronous⟩ (.paired 0 (line false))) [.cntTick 0 true, .cntRead 0] =
      some (.word 9) := by decide
/-- S3. -/
theorem test_cnt_tickup_wraps : reply (decade 9) [.cntTickup 0 true, .cntRead 0] = some (.word 0) := by decide
/-- 45_counter.md R221: `0111 -> 0110 -> 0100 -> 0000 -> 1000`. -/
theorem test_cnt_tickup_ripple :
    after (.counter (count4 none .ripple) chain7) [.cntTickup 0 true] =
      some (.counter (count4 none .ripple) (.chained [false, false, false, true] [⟨true, false⟩, ⟨false, true⟩, ⟨false, true⟩, ⟨false, true⟩])) := by decide
/-- P5, the second down pulse. -/
theorem test_cnt_tickdn_wraps : reply (decade 0) [.cntTickdn 0 true, .cntRead 0] = some (.word 9) := by decide
/-- V-CNT, ripple: `0000 -> 0001 -> 0011 -> 0111 -> 1111`. -/
theorem test_cnt_tickdn_ripple :
    reply (.counter (count4 none .ripple) (.chained (List.replicate 4 false) (List.replicate 4 (line false))))
      [.cntTickdn 0 true, .cntRead 0] =
      some (.word 15) := by decide
/-- 45_counter.md R215. -/
theorem test_cnt_read : reply (.counter (count4 none .ripple) chain7) [.cntRead 0] = some (.word 7) := by decide
/-- 46_register_file.md R240, 00_scope.md R9. -/
theorem test_rf_new :
    after (.srLatch true) [.rfNew 0 32 (some 31) none none] =
      some (.registerFile ⟨32, some 31, 64, 2⟩ ⟨[], ⟨false, false⟩⟩) := by decide
/-- V-RF, refused constructions. -/
theorem test_rf_new_illegal :
    replyFrom State.reset [.rfNew 0 32 (some 32) none none] =
      some (.error .invalidConfiguration) := by decide
/-- V-RF, row 12. -/
theorem test_rf_whold : reply file [.rfWhold 0 1 0x44 true, .rfRead 0 1] = some (.word 0x11) := by decide
/-- V-RF, row 14. -/
theorem test_rf_whold_out_of_range :
    reply file [.rfWhold 0 4 0x55 true] =
      some (.error .indexOutOfBounds) := by decide
/-- V-RF, row 5. -/
theorem test_rf_write : reply file [.rfWrite 0 2 0x22 true, .rfRead 0 2] = some (.word 0x22) := by decide
/-- V-RF, row 7: discarded, the edge consumed. -/
theorem test_rf_write_zero_index :
    after file [.rfWrite 0 0 0xAA true] =
      some (.registerFile file4 ⟨[(1, 0x11)], ⟨true, false⟩⟩) := by decide
/-- V-RF, row 16. -/
theorem test_rf_read : reply file [.rfRead 0 1] = some (.word 0x11) := by decide
/-- V-RF, row 15. -/
theorem test_rf_read_out_of_range : reply file [.rfRead 0 4] = some (.error .indexOutOfBounds) := by decide

/-! ### The step, the ports, a program -/

/-- A vector is decoded in the format of its port and run; the call is taken from the list. -/
theorem test_step_runs_a_vector :
    (nextOf (step { one (.register 4 ⟨[false, false, false, false], line false⟩) with
      calls := [.vector 0 .inputs 0x2B, .op (.regRead 0)] })).map (fun t => (qPort t 0, t.calls)) =
      some (some 0b1010, [.op (.regRead 0)]) := by decide

/-- The read ports answer together (20_memory.md R69); a port the file does not have answers nothing. -/
theorem test_read_ports :
    rdataPort (one file) 0 0 1 = some 0x11 ∧ rdataPort (one file) 0 1 3 = some 0 ∧
    rerrPort (one file) 0 1 4 = some 2 ∧ rdataPort (one file) 0 2 1 = none := by decide

/-- 30_encoding.md R90: the error port shows the latest call's result. -/
theorem test_error_port :
    (nextOf (exec (.srlInvalid 0) (one (.srLatch true)))).map (fun t => errPort t 0) = some (some 1) ∧
    errPort (one (.srLatch true)) 0 = some 0 := by decide

/-- P5, shortened to two pulses: an up pulse is the vectors `0x2`, `0x3`; a read other than `RF.READ` has none. -/
theorem test_program_encoding :
    encodeProgram [.call (.op (.cntNew 0 4 (some 10) none none)), .repeated 2 (.pulse (.cntTickup 0 false)),
      .peek (.cntRead 0)] = some [0x2, 0x3, 0x2, 0x3] ∧
    lineText (.pulse (.cntTickup 0 false)) = "pulse x0.tick(Some(Up))" := by decide

/-- P3: the formats come from the program's own construction; the read of index 32 has no vector. -/
theorem test_program_encoding_file :
    encodeProgram [.call (.op (.rfNew 0 32 (some 31) none none)), .pulse (.rfWrite 0 31 0xDEADBEEF false),
      .call (.op (.rfRead 0 31)), .call (.op (.rfRead 0 32))] = some [0x6F56DF77FE, 0x6F56DF77FF, 0x1F] := by decide

/-- A name bound anew (log 5) has the format of its new instance: V-REG with `W = 4`, then V-DFF. -/
theorem test_program_encoding_rebound_name :
    encodeProgram [.call (.op (.regNew 0 4)), .call (.op (.regLoad 0 0b1010 true)), .call (.op (.dffNew 0)),
      .call (.op (.dffStep 0 true false))] = some [0x2B, 0b10] := by decide

/-- Log 23: a mutation without a vector, or a name without an instance, leaves the program without an encoding. -/
theorem test_program_without_encoding :
    encodeProgram [.call (.op (.regNew 0 4)), .call (.op (.regLoad 0 16 true))] = none ∧
    encodeProgram [.call (.op (.shrNew 0 4 .right .serial none)), .call (.op (.shrShift 0 none true))] = none ∧
    encodeProgram [.call (.op (.rfNew 0 4 none none none)), .call (.op (.rfWrite 0 4 0 true))] = none ∧
    encodeProgram [.call (.op (.cntTick 0 true))] = none := by decide

/-- The driver's names are bound on demand; a name without an instance faults, another kind is refused. -/
theorem test_stops :
    faultOf (exec (.clRead 1) (one file)) = some (.noInstance 1) ∧
    refusalOf (exec (.clRead 0) (one file)) = some (.wrongKind 0) := by decide

/-! ### Witnesses: for each statement with hypotheses, a state and operands that meet them, clause by clause, at the
boundary values of each range -/

/-- A machine with two instances: a Register of four cells and a D flip-flop that holds the Register's cell 1. -/
def two : State :=
  { elems := [(0, .register 4 bank), (1, .dff ⟨true, bank.clkLine⟩)], reply := .idle, errs := [], calls := [] }

/-- `one e` with the driver's calls `cs` to come. -/
def coming (e : Element) (cs : List Call) : State := { one e with calls := cs }

theorem witness_EncodedOperationsDecodeBack :
    encode (.rfw 1 2) (.rfWrite 7 1 3 true) = some 31 ∧ (Instr.rfWrite 7 1 3 true).mapMnemonic ≠ "SHR.SHIFT" ∧
    encode (.shr 2 .left .ring) (.shrShift 7 none true) = some 1 := by decide

theorem witness_EveryVectorIsOneOperation :
    0 < 2 ^ (Format.shr 3 .left .ring).width ∧ 127 < 2 ^ (Format.shr 3 .left .ring).width ∧
    2 ^ (Format.shr 3 .left .ring).width ≤ 128 := by decide

theorem witness_VectorsEncodeBack :
    0 < 2 ^ (Format.reg 4).width ∧ 63 < 2 ^ (Format.reg 4).width ∧ (Format.reg 4).name ≠ "SHR" ∧
    (Format.reg 4).name ≠ "CNT" := by decide

theorem witness_AddressWidthIsLeast : 1 ≤ 1 ∧ 1 ≤ 5 ∧ 1 ≤ 3 ∧ 5 ≤ 2 ^ 3 := by decide

theorem witness_StepRunsTheNextCall :
    (coming file [.op (.rfRead 0 1)]).calls = .op (.rfRead 0 1) :: [] ∧
    (coming file [.vector 0 .inputs 0x22B]).calls = .vector 0 .inputs 0x22B :: [] ∧
    (coming file [.vector 0 .inputs 0x22B]).find 0 = some file ∧ file.format .inputs = some (.rfw 2 8) ∧
    decoded (.rfw 2 8) 0x22B = some (.rfWrite 0 2 0x22 true) ∧ State.reset.calls = [] := by decide

theorem witness_UnreadableVectorsStopTheStep :
    (coming file [.vector 1 .inputs 0]).find 1 = none ∧ (coming file [.vector 0 (.read 2) 0]).find 0 = some file ∧
    file.format (.read 2) = none ∧ file.format (.read 1) = some (.rfr 2) ∧ 2 ^ (Format.rfr 2).width ≤ 4 := by decide

theorem witness_StepKeepsTheInvariant :
    (coming file [.op (.rfWrite 0 3 255 true)]).ok = true ∧
    nextOf (step (coming file [.op (.rfWrite 0 3 255 true)])) ≠ none := by decide

theorem witness_SlotsStayInRange :
    (one file).ok = true ∧ (one file).find 0 = some (.registerFile file4 fileState) ∧ file4.zeroIndex = some 0 ∧
    file4.slots ≤ 4 := by decide

theorem witness_ConstructionsMakeResetInstances :
    1 ≤ 1 ∧ (some 1).getD 0 < 2 ^ 1 ∧ (∀ k, some 1 = some k → 1 ≤ k ∧ k ≤ 2 ^ 1) ∧
    (∀ k, some 2 = some k → 1 ≤ k ∧ k ≤ 2 ^ 1) ∧ (some Style.ripple = some .ripple → some 1 ≠ (none : Option Nat)) ∧
    (∀ k, some 0 = some k → k < 1) ∧ some 1 ≠ some 0 := by
  simp

/-- Every disjunct of every clause on its own, each bound missed by one. -/
theorem witness_IllegalTuplesMakeNothing :
    (0 = 0 ∨ ∃ v, (none : Option Nat) = some v ∧ 2 ^ 0 ≤ v) ∧ (1 = 0 ∨ ∃ v, some 2 = some v ∧ 2 ^ 1 ≤ v) ∧
    (0 = 0 ∨ (none : Option Nat) = some 0 ∨ ∃ k, (none : Option Nat) = some k ∧ 2 ^ 0 < k) ∧
    (1 = 0 ∨ some 0 = some 0 ∨ ∃ k, some 0 = some k ∧ 2 ^ 1 < k) ∧
    (1 = 0 ∨ some 3 = some 0 ∨ ∃ k, some 3 = some k ∧ 2 ^ 1 < k) ∧
    (0 = 0 ∨ (∃ k, (none : Option Nat) = some k ∧ 0 ≤ k) ∨ (none : Option Nat) = some 0 ∨ (none : Option Nat) = some 0) ∧
    (2 = 0 ∨ (∃ k, some 2 = some k ∧ 2 ≤ k) ∨ (none : Option Nat) = some 0 ∨ (none : Option Nat) = some 0) ∧
    (2 = 0 ∨ (∃ k, (none : Option Nat) = some k ∧ 2 ≤ k) ∨ some 0 = some 0 ∨ (none : Option Nat) = some 0) ∧
    (2 = 0 ∨ (∃ k, (none : Option Nat) = some k ∧ 2 ≤ k) ∨ (none : Option Nat) = some 0 ∨ some 0 = some 0) := by
  simp

theorem witness_ReadsReturnTheStoredValue :
    (one (.srLatch true)).find 0 = some (.srLatch true) ∧ (one (.dLatch true)).find 0 = some (.dLatch true) ∧
    (one (.dff ⟨true, line true⟩)).find 0 = some (.dff ⟨true, line true⟩) ∧
    (one (.jkff ⟨true, line true⟩)).find 0 = some (.jkff ⟨true, line true⟩) ∧
    (one (.tff ⟨true, line true⟩)).find 0 = some (.tff ⟨true, line true⟩) ∧
    (one (decade 9)).find 0 = some (.counter (count4 (some 10) .synchronous) (.paired 9 (line false))) ∧
    (one (.counter (count4 none .ripple) chain7)).find 0 = some (.counter (count4 none .ripple)
      (.chained [true, true, true, false] [line false, line true, line true, line true])) := by decide

theorem witness_BankReadsAreBinaryValues :
    (one (.register 4 bank)).find 0 = some (.register 4 bank) ∧
    (one (shr .left .ring)).find 0 = some (.shiftRegister (shift4 .left .ring) bank) := by decide

theorem witness_LineAndSerialOutputReads :
    (one (.clockLine (line true))).find 0 = some (.clockLine (line true)) ∧
    (one (shr .right .ring)).find 0 = some (.shiftRegister (shift4 .right .ring) bank) ∧
    bank.cells.length = (shift4 .right .ring).width ∧ 1 ≤ (shift4 .right .ring).width := by decide

theorem witness_InspectionsArePure :
    isInspection (.rfRead 0 4) ∧ isInspection (.shrSout 0) ∧ nextOf (exec (.rfRead 0 4) (one file)) ≠ none :=
  ⟨.inl rfl, .inr rfl, by decide⟩

theorem witness_SampleReportsTheEdge :
    (one (.clockLine (line true))).find 0 = some (.clockLine (line true)) ∧
    nextOf (exec (.clSample 0 false) (one (.clockLine (line true)))) ≠ none := by decide

/-- Each of the three edges. -/
theorem witness_EdgePortShowsTheLatestSample :
    (one (.clockLine (line true))).find 0 = some (.clockLine (line true)) ∧
    (one (.clockLine (line false))).find 0 = some (.clockLine (line false)) ∧
    (line true).current = true ∧ (line false).current = false ∧
    nextOf (exec (.clSample 0 true) (one (.clockLine (line true)))) ≠ none ∧
    nextOf (exec (.clSample 0 false) (one (.clockLine (line true)))) ≠ none ∧
    nextOf (exec (.clSample 0 true) (one (.clockLine (line false)))) ≠ none := by decide

/-- The kinds of `OutputPortsShowTheState`; the latches, flip-flops and Counters are those of
`witness_ReadsReturnTheStoredValue`. -/
theorem witness_OutputPortsShowTheState :
    (one (.clockLine (line true))).find 0 = some (.clockLine (line true)) ∧
    (one (.register 4 bank)).find 0 = some (.register 4 bank) ∧
    (one (shr .left .ring)).find 0 = some (.shiftRegister (shift4 .left .ring) bank) ∧
    bank.cells.length = (shift4 .left .ring).width ∧ 1 ≤ (shift4 .left .ring).width ∧ 1 ≤ 1 := by decide

/-- The ports on values worked by hand: `1011` is 11, its exit ends are 1 and 1, a new line shows code 0. -/
theorem test_output_ports :
    qPort (one (.register 4 bank)) 0 = some 11 ∧ qPort (one (shr .left .zero)) 0 = some 11 ∧
    soutPort (one (shrAt .left .zero [true, false, true, false])) 0 = some false ∧
    soutPort (one (shrAt .right .zero [true, false, true, false])) 0 = some true ∧
    countPort (one (decade 9)) 0 = some 9 ∧ countPort (one (.counter (count4 none .ripple) chain7)) 0 = some 7 := by
  decide

/-- `UpTicksCountRisingEdges`, `CounterWrapsAround`, `UpThenDownRestoresTheCount`: both kinds of Counter state, the
count at its last value. -/
theorem witness_counters :
    (one (decade 9)).find 0 = some (.counter (count4 (some 10) .synchronous) (.paired 9 (line false))) ∧
    counterOk (count4 (some 10) .synchronous) (.paired 9 (line false)) = true ∧
    (one (.counter (count4 none .ripple) chain7)).find 0 = some (.counter (count4 none .ripple) chain7) ∧
    counterOk (count4 none .ripple) chain7 = true := by decide

/-- `SrLatchHoldsResetsSets`, `ForbiddenSrInputRaises`. -/
theorem witness_SrLatch : (one (.srLatch true)).find 0 = some (.srLatch true) := by decide

theorem witness_DLatchHoldsAndPasses : (one (.dLatch true)).find 0 = some (.dLatch true) := by decide

/-- `DFlipFlopCapturesOnRisingEdge`, `DFlipFlopCaptureLaw`. -/
theorem witness_DFlipFlop : (one (.dff ⟨true, line true⟩)).find 0 = some (.dff ⟨true, line true⟩) := by decide

theorem witness_JkFlipFlopFollowsItsTable : (one (.jkff ⟨true, line true⟩)).find 0 = some (.jkff ⟨true, line true⟩) := by
  decide

theorem witness_TFlipFlopTogglesOnRisingEdges : (one (.tff ⟨true, line true⟩)).find 0 = some (.tff ⟨true, line true⟩) := by
  decide

/-- `RegisterLoadsOnRisingEdge`, `DisabledLoadsNeverChangeTheValue`: the widest value. -/
theorem witness_Register :
    (one (.register 4 bank)).find 0 = some (.register 4 bank) ∧ 15 < 2 ^ 4 ∧
    (∀ c ∈ [(15, true), (0, false)], c.1 < 2 ^ 4) := by decide

theorem witness_RegisterIsABankOfFlipFlops :
    (0 : Inst) ≠ 1 ∧ 15 < 2 ^ 4 ∧ bank.cells.length = 4 ∧ bank.cells[1]? = some true ∧
    two.find 0 = some (.register 4 bank) ∧ two.find 1 = some (.dff ⟨true, bank.clkLine⟩) := by decide

/-- `ShiftMovesEveryCellOnePlace`, `ZeroFillShiftsOutEverything`, `SerialFillTakesTheSerialBit`,
`SerialFormsNeedASerialBit`, `RingFillRotates`, `JohnsonFillFeedsBackTheComplement`,
`RingShiftsReturnAfterWidthPulses`, `JohnsonShiftsComplementAfterWidthPulses`, `SerialShiftIsADelayLine`: an instance
for every direction and fill policy. -/
theorem witness_shift_forms :
    ([Dir.right, Dir.left].all (fun d => [Fill.zero, Fill.serial, Fill.ring, Fill.johnson].all (fun q =>
      decide ((one (shr d q)).find 0 = some (.shiftRegister (shift4 d q) bank)) &&
      decide (bank.cells.length = (shift4 d q).width) && decide (1 ≤ (shift4 d q).width) &&
      decide ((shift4 d q).fill = q) && decide ((shift4 d q).dir = d)))) = true := by decide

/-- The `W` bits of `SerialFillTakesTheSerialBit`; the two cases of `ShiftMovesEveryCellOnePlace`. -/
theorem witness_serial_operands :
    [true, false, true, true].length = (shift4 .right .serial).width ∧ (shift4 .right .serial).fill = .serial ∧
    (some true ≠ (none : Option Bool)) ∧ (shift4 .right .zero).fill ≠ .serial := by decide

/-- The narrowest instance: one cell, shifted either way. -/
theorem witness_shift_width_one :
    (one (.shiftRegister ⟨1, .left, .ring, 1⟩ ⟨[true], line false⟩)).find 0 =
      some (.shiftRegister ⟨1, .left, .ring, 1⟩ ⟨[true], line false⟩) ∧ [true].length = 1 ∧ 1 ≤ 1 := by decide

/-- `RingCounterWalksOneBit`, `JohnsonCounterCycleFromZero`: the narrowest width and the last pulse of a period, and the
runs that the distinctness clause compares. -/
theorem witness_ring_and_johnson_counters :
    1 ≤ 1 ∧ 1 < 2 * 1 ∧ 0 < 1 ∧
    replyFrom State.reset (.shrNew 0 1 .left .johnson none :: times 1 (pulse (.shrShiftLJohnson 0 none true)) ++
      [.shrRead 0]) = some (.word 1) ∧
    replyFrom State.reset (.shrNew 0 1 .right .johnson none :: times 0 (pulse (.shrShiftRJohnson 0 none true)) ++
      [.shrRead 0]) = some (.word 0) := by decide

/-- V-SHR-10, `Right`, the last three of a period: `0111`, `0011`, `0001`. -/
theorem test_johnson_right_cycle :
    [5, 6, 7].map (fun n => replyFrom State.reset (.shrNew 0 4 .right .johnson none ::
      times n (pulse (.shrShiftRJohnson 0 none true)) ++ [.shrRead 0])) =
      [some (.word 0b0111), some (.word 0b0011), some (.word 0b0001)] := by decide

theorem witness_ShiftRegisterLoadsAndHolds :
    (one (shr .left .ring)).find 0 = some (.shiftRegister (shift4 .left .ring) bank) ∧
    15 < 2 ^ (shift4 .left .ring).width := by decide

theorem witness_CounterTicksModuloM :
    (one (decade 9)).find 0 = some (.counter (count4 (some 10) .synchronous) (.paired 9 (line false))) ∧
    (one (.counter ⟨4, none, .down, .synchronous⟩ (.paired 0 (line true)))).find 0 =
      some (.counter ⟨4, none, .down, .synchronous⟩ (.paired 0 (line true))) ∧
    (count4 (some 10) .synchronous).defaultDir = .up ∧ 9 < (some 10).getD (2 ^ 4) ∧ 0 < (none : Option Nat).getD (2 ^ 4) :=
  by decide

theorem witness_RippleSettleComputesTheSynchronousResult :
    (one (.counter (count4 none .ripple) chain7)).find 0 = some (.counter (count4 none .ripple)
      (.chained [true, true, true, false] [line false, line true, line true, line true])) ∧
    counterOk (count4 none .ripple) chain7 = true ∧
    [line false, line true, line true, line true].head? = some (line false) := by decide

theorem witness_RippleReadsAsSynchronous : 1 ≤ 1 ∧ (∀ k, some 2 = some k → 1 ≤ k ∧ k ≤ 2 ^ 1) := by simp

/-- `WriteChangesOnlyTheNamedSlot`, `ReadAfterWritePulse`: the last slot, the widest word, another slot. -/
theorem witness_file_write_in_range :
    (one file).find 0 = some (.registerFile file4 fileState) ∧ 3 < file4.slots ∧ 255 < 2 ^ file4.wordWidth ∧
    file4.zeroIndex ≠ some 3 ∧ (2 : Nat) ≠ 3 ∧ nextOf (exec (.rfRead 0 2) (one file)) ≠ none := by decide

theorem witness_WriteOutOfRangeRaises :
    (one file).find 0 = some (.registerFile file4 fileState) ∧ file4.slots ≤ 4 ∧ 255 < 2 ^ file4.wordWidth := by decide

theorem witness_FileReadChecksItsIndex :
    (one file).find 0 = some (.registerFile file4 fileState) ∧ file4.slots ≤ 4 ∧
    (0 < file4.slots ∧ file4.zeroIndex = some 0) ∧ (3 < file4.slots ∧ file4.zeroIndex ≠ some 3) := by decide

theorem witness_ZeroIndexWritesAreDiscarded :
    (one file).find 0 = some (.registerFile file4 fileState) ∧ file4.zeroIndex = some 0 ∧ 0 < file4.slots ∧
    (∀ c ∈ [(255, true), (0, false)], c.1 < 2 ^ file4.wordWidth) := by decide

theorem witness_HeldHighClockWritesOnce :
    (nextOf (exec (.rfWrite 0 1 0x22 true) (one file))).map State.reply = some .ok ∧
    (nextOf (exec (.rfWrite 0 1 0x22 true) (one file))).bind (fun t => t.find 0) =
      some (.registerFile file4 ⟨[(1, 0x22)], ⟨true, false⟩⟩) ∧ 3 < file4.slots ∧ 255 < 2 ^ file4.wordWidth := by decide

theorem witness_ErrorsChangeNoInstance :
    (nextOf (exec (.rfWrite 0 4 0x22 true) (one file))).map State.reply = some (.error .indexOutOfBounds) := by decide

theorem witness_CallsTouchOnlyTheirInstance :
    nextOf (exec (.regLoad 0 15 true) two) ≠ none ∧ (1 : Inst) ≠ (Instr.regLoad 0 15 true).inst := by decide

theorem witness_InterleavingGivesEachInstanceItsOwnRun :
    nextOf (execAll [.regLoad 0 15 true, .dffStep 1 false true] two) ≠ none ∧ (Instr.dffRead 1).inst = 1 ∧
    (nextOf (execAll [.regLoad 0 15 true, .dffStep 1 false true] two)).bind (fun t => nextOf (exec (.dffRead 1) t)) ≠
      none := by decide

theorem witness_CallsWithoutAnInstanceFault :
    isConstruction (.clRead 1) = false ∧ (one file).find (Instr.clRead 1).inst = none := by decide

theorem witness_CallsOnAnotherKindAreRefused :
    isConstruction (.clRead 0) = false ∧ (one file).find (Instr.clRead 0).inst = some file ∧
    elementKind file ≠ operationKind (.clRead 0) := by decide

/-- `OperandsThatDoNotFitAreRefused`: the least value that does not fit, and another form. -/
theorem witness_OperandsThatDoNotFitAreRefused :
    (one (.register 4 bank)).find 0 = some (.register 4 bank) ∧ 2 ^ 4 ≤ 16 ∧
    (one (shr .left .ring)).find 0 = some (.shiftRegister (shift4 .left .ring) bank) ∧
    2 ^ (shift4 .left .ring).width ≤ 16 ∧
    (one file).find 0 = some (.registerFile file4 fileState) ∧ 2 ^ file4.wordWidth ≤ 256 ∧
    ((shift4 .left .ring).dir ≠ .right ∨ (shift4 .left .ring).fill ≠ .ring) := by decide

end Sys2Proof.Tests
end

section
/-! PROOFS. The scope family: the address width, the step, the constructions, the frame of a call, and the invariant
of the machine. The laws about the model come first, then the proofs that use them. -/

namespace Sys2Proof.Machine

/-! ### Elements as the spec allows them -/

@[simp] theorem elementOk_register {w : Nat} {b : CellBank} :
    elementOk (.register w b) = true ↔ 1 ≤ w ∧ b.cells.length = w := by
  simp [elementOk, registerLegal]

@[simp] theorem elementOk_shiftRegister {p : ShiftParams} {b : CellBank} :
    elementOk (.shiftRegister p b) = true ↔ shiftLegal p = true ∧ b.cells.length = p.width := by
  simp [elementOk]

@[simp] theorem elementOk_counter {p : CounterParams} {c : CounterState} :
    elementOk (.counter p c) = true ↔ counterOk p c = true := Iff.rfl

@[simp] theorem elementOk_registerFile {p : FileParams} {f : FileState} :
    elementOk (.registerFile p f) = true ↔ fileOk p f = true := Iff.rfl

theorem counterOk_paired {p : CounterParams} {n : Nat} {l : ClockLine} :
    counterOk p (.paired n l) = true ↔ counterLegal p = true ∧ isChained p = false ∧ n < effectiveModulus p := by
  simp [counterOk]

theorem counterOk_chained {p : CounterParams} {cells : List Bool} {lines : List ClockLine} :
    counterOk p (.chained cells lines) = true ↔ counterLegal p = true ∧ isChained p = true ∧
      cells.length = p.width ∧ lines.length = p.width ∧
      (lines.drop 1).map ClockLine.current = cells.dropLast := by
  simp [counterOk, and_assoc]

theorem fileOk_iff {p : FileParams} {f : FileState} :
    fileOk p f = true ↔ fileLegal p = true ∧ Memory.wf f.slots = true ∧ ∀ e ∈ f.slots, slotOk p e = true := by
  simp [fileOk, and_assoc]

theorem slotOk_iff {p : FileParams} {i : Nat} {v : Word} :
    slotOk p (i, v) = true ↔ i < p.slots ∧ p.zeroIndex ≠ some i ∧ v < 2 ^ p.wordWidth := by
  simp [slotOk, fitsIn, and_assoc]

theorem width_pos_of_shiftLegal {p : ShiftParams} (h : shiftLegal p = true) : 1 ≤ p.width := by
  simp only [shiftLegal, Bool.and_eq_true, decide_eq_true_eq] at h
  exact h.1

theorem effectiveModulus_pos {p : CounterParams} (h : counterLegal p = true) : 0 < effectiveModulus p := by
  cases hm : p.modulus with
  | none => simp [effectiveModulus, hm]
  | some m =>
    simp only [counterLegal, modulusLegal, hm, Bool.and_eq_true, decide_eq_true_eq] at h
    simp only [effectiveModulus, hm, Option.getD_some]
    omega

/-! ### What an operation sees, read backwards -/

theorem asRegister_eq_some {e : Element} {wb : Nat × CellBank} (h : e.asRegister = some wb) :
    e = .register wb.1 wb.2 := by
  cases e with
  | register => cases h; rfl
  | _ => cases h

theorem asShiftRegister_eq_some {e : Element} {pb : ShiftParams × CellBank} (h : e.asShiftRegister = some pb) :
    e = .shiftRegister pb.1 pb.2 := by
  cases e with
  | shiftRegister => cases h; rfl
  | _ => cases h

theorem asCounter_eq_some {e : Element} {pc : CounterParams × CounterState} (h : e.asCounter = some pc) :
    e = .counter pc.1 pc.2 := by
  cases e with
  | counter => cases h; rfl
  | _ => cases h

theorem asFile_eq_some {e : Element} {pf : FileParams × FileState} (h : e.asFile = some pf) :
    e = .registerFile pf.1 pf.2 := by
  cases e with
  | registerFile => cases h; rfl
  | _ => cases h

/-! ### Updates keep an element in its ranges -/

/-- What an update keeps, a clocked call keeps. -/
theorem onRising_keeps {α : Type} (P : α → Prop) {l : ClockLine} {c : Bool} {u : α → α} {a : α} (ha : P a)
    (hu : P (u a)) : P (onRising l c u a) := by
  rw [onRising_eq]
  split
  · exact hu
  · exact ha

theorem length_loadCells {w : Nat} {v : Word} {enable : Bool} {cells : List Bool} (h : cells.length = w) :
    (loadCells w v enable cells).length = w := by
  cases enable <;> simp [loadCells, h]

/-- A shift keeps the number of cells, if there is a cell to drop. -/
theorem length_shiftCells {d : Dir} {p : Fill} {i : Option Bool} {cells : List Bool} (h : 1 ≤ cells.length) :
    (shiftCells d p i cells).length = cells.length := by
  cases d with
  | right => simpa [shiftCells, shiftIn] using Nat.sub_add_cancel h
  | left => simpa [shiftCells, shiftIn] using Nat.sub_add_cancel h

theorem nextCount_lt {m : Nat} (hm : 0 < m) (d : CountDir) (n : Nat) : nextCount m d n < m := Nat.mod_lt _ hm

theorem settle_length_cells (d : CountDir) (fire : Bool) (cells : List Bool) (lines : List ClockLine) :
    (settle d fire cells lines).1.length = cells.length := by
  induction cells generalizing fire lines with
  | nil => rfl
  | cons c cs ih =>
    cases lines with
    | nil => rfl
    | cons l ls => simp [settle, ih]

theorem settle_length_lines (d : CountDir) (fire : Bool) (cells : List Bool) (lines : List ClockLine) :
    (settle d fire cells lines).2.length = lines.length := by
  induction cells generalizing fire lines with
  | nil => rfl
  | cons c cs ih =>
    cases lines with
    | nil => rfl
    | cons l ls => simp [settle, ih]

/-- The settle process leaves every later stage's line at the cell before it, whatever the lines held
(45_counter.md R223). -/
theorem settle_settled (d : CountDir) (fire : Bool) (cells : List Bool) (lines : List ClockLine)
    (h : cells.length = lines.length + 1) :
    (settle d fire cells lines).2.map ClockLine.current = (settle d fire cells lines).1.dropLast := by
  induction lines generalizing fire cells with
  | nil =>
    obtain ⟨c, rfl⟩ := List.length_eq_one_iff.1 h
    rfl
  | cons l ls ih =>
    obtain ⟨c, cs, rfl⟩ := List.exists_cons_of_length_eq_add_one h
    have hcs : cs.length = ls.length + 1 := by simpa using h
    have hne : ∀ b, (settle d b cs ls).1 ≠ [] := fun b =>
      List.ne_nil_of_length_eq_add_one ((settle_length_cells d b cs ls).trans hcs)
    simp [settle, ih _ _ hcs, List.dropLast_cons_of_ne_nil (hne _)]

/-- A tick of either representation keeps the Counter as the spec allows it. -/
theorem counterOk_tickState {p : CounterParams} {c : CounterState} (d : CountDir) (clk : Bool)
    (h : counterOk p c = true) : counterOk p (tickState (effectiveModulus p) d clk c) = true := by
  cases c with
  | paired n l =>
    obtain ⟨hp, hc, hn⟩ := counterOk_paired.1 h
    exact counterOk_paired.2
      ⟨hp, hc, onRising_keeps (· < effectiveModulus p) hn (nextCount_lt (effectiveModulus_pos hp) d n)⟩
  | chained cells lines =>
    cases lines with
    | nil => exact h
    | cons l ls =>
      obtain ⟨hp, hc, hcells, hlines, -⟩ := counterOk_chained.1 h
      rw [List.length_cons] at hlines
      refine counterOk_chained.2 ⟨hp, hc, ?_, ?_, ?_⟩
      · rw [settle_length_cells, hcells]
      · rw [List.length_cons, settle_length_lines, hlines]
      · exact settle_settled _ _ _ _ (hcells.trans hlines.symm)

/-- Every slot listed after a write is the one written or was listed before. -/
theorem mem_write {m : Memory} {i : Nat} {v : Word} {e : Nat × Word} (h : e ∈ Memory.write m i v) :
    e = (i, v) ∨ e ∈ m := by
  unfold Memory.write at h
  split at h
  · exact .inr (mem_erase h)
  · exact mem_set h

/-- A write of a word that fits, to a slot that exists, keeps the slots in canonical form, in range and without the
zero index. -/
theorem writeSlots_keeps {p : FileParams} {i : Nat} {v : Word} {enable : Bool} {m : Memory} (hi : i < p.slots)
    (hv : v < 2 ^ p.wordWidth) (h : Memory.wf m = true ∧ ∀ e ∈ m, slotOk p e = true) :
    Memory.wf (writeSlots p i v enable m) = true ∧ ∀ e ∈ writeSlots p i v enable m, slotOk p e = true := by
  obtain ⟨hwf, hslots⟩ := h
  unfold writeSlots
  split
  · next hw =>
    refine ⟨memory_wf_write i v hwf, fun e he => ?_⟩
    rcases mem_write he with rfl | he
    · exact slotOk_iff.2 ⟨hi, hw.2, hv⟩
    · exact hslots e he
  · exact ⟨hwf, hslots⟩

/-! ### New elements -/

theorem counterOk_new {p : CounterParams} (h : counterLegal p = true) : counterOk p (newCounterState p) = true := by
  unfold newCounterState
  split
  · next hc =>
    refine counterOk_chained.2 ⟨h, hc, List.length_replicate, List.length_replicate, ?_⟩
    simp [ClockLine.new]
  · next hc => exact counterOk_paired.2 ⟨h, by simpa using hc, effectiveModulus_pos h⟩

theorem fileOk_new {p : FileParams} (h : fileLegal p = true) : fileOk p newFileState = true :=
  fileOk_iff.2 ⟨h, memory_wf_new, by simp [newFileState]⟩

/-- The cells of a value are its bits (43_register.md R166). -/
theorem cellsOf_eq_map_testBit (w v : Nat) : cellsOf w v = (List.range w).map (fun i => v.testBit i) := by
  induction w generalizing v with
  | zero => rfl
  | succ w ih => simp [cellsOf, ih, List.range_succ_eq_map, Nat.testBit_zero, Nat.testBit_succ, Function.comp_def]

/-! ### What is under a name after a call -/

/-- What the name `x` denotes, if anything, is as the spec allows it. -/
def OkAt (s : State) (x : Inst) : Prop := ∀ e, s.find x = some e → elementOk e = true

/-- If the result is a next state, what `x` denotes there is as the spec allows it. -/
def LeavesOk (x : Inst) (r : Result) : Prop := ∀ t, r = .next t → OkAt t x

section
variable {s : State} {x : Inst}

theorem leavesOk_commit {e : Element} {r : Reply} (he : elementOk e = true) : LeavesOk x (commit x e r s) := by
  rintro _ ⟨⟩ e' hf
  obtain rfl : e = e' := Option.some.inj ((find_set_same s.elems x e).symm.trans hf)
  exact he

theorem leavesOk_raise {k : ErrorKind} (h : OkAt s x) : LeavesOk x (raise x k s) := by
  rintro _ ⟨⟩
  exact h

theorem leavesOk_inspect {r : Reply} (h : OkAt s x) : LeavesOk x (inspect r s) := by
  rintro _ ⟨⟩
  exact h

theorem leavesOk_construct {legal : Bool} {e : Element} (h : OkAt s x) (he : legal = true → elementOk e = true) :
    LeavesOk x (construct x legal e s) := by
  cases legal with
  | false => exact leavesOk_inspect h
  | true => exact leavesOk_commit (he rfl)

theorem leavesOk_withElem {α : Type} {view : Element → Option α} {k : α → Result} (h : OkAt s x)
    (hk : ∀ e a, elementOk e = true → view e = some a → LeavesOk x (k a)) : LeavesOk x (withElem view x s k) := by
  intro t ht
  obtain ⟨e, a, hf, ha, hka⟩ := withElem_next ht
  exact hk e a (h e hf) ha t hka

theorem leavesOk_presented {w : Nat} {v : Word} {r : Result} (h : v < 2 ^ w → LeavesOk x r) :
    LeavesOk x (presented x w v r) := by
  intro t ht
  obtain ⟨hv, hr⟩ := presented_next ht
  exact h hv t hr

/-! ### Each shared operation leaves what it acts on in its ranges -/

theorem leavesOk_read {α : Type} {view : Element → Option α} {f : α → Reply} (h : OkAt s x) :
    LeavesOk x (withElem view x s (fun a => inspect (f a) s)) :=
  leavesOk_withElem h fun _ _ _ _ => leavesOk_inspect h

/-- A mutation whose new element is unconditionally as the spec allows it. -/
theorem leavesOk_update {α : Type} {view : Element → Option α} {f : α → Element} {r : α → Reply} (h : OkAt s x)
    (hf : ∀ a, elementOk (f a) = true) : LeavesOk x (withElem view x s (fun a => commit x (f a) (r a) s)) :=
  leavesOk_withElem h fun _ a _ _ => leavesOk_commit (hf a)

theorem leavesOk_srStep (set reset : Bool) (h : OkAt s x) : LeavesOk x (srStep x set reset s) := by
  refine leavesOk_withElem h fun _ q _ _ => ?_
  cases srNext set reset q with
  | ok q' => exact leavesOk_commit rfl
  | error k => exact leavesOk_raise h

theorem leavesOk_regStep {v : Word} {enable clk : Bool} (h : OkAt s x) : LeavesOk x (regStep x v enable clk s) := by
  refine leavesOk_withElem h fun e wb he hv => leavesOk_presented fun _ => leavesOk_commit ?_
  obtain rfl := asRegister_eq_some hv
  obtain ⟨hw, hl⟩ := elementOk_register.1 he
  exact elementOk_register.2 ⟨hw, onRising_keeps (fun c : List Bool => c.length = wb.1) hl (length_loadCells hl)⟩

theorem leavesOk_shrLoadStep {v : Word} {enable clk : Bool} (h : OkAt s x) :
    LeavesOk x (shrLoadStep x v enable clk s) := by
  refine leavesOk_withElem h fun e pb he hv => leavesOk_presented fun _ => leavesOk_commit ?_
  obtain rfl := asShiftRegister_eq_some hv
  obtain ⟨hp, hl⟩ := elementOk_shiftRegister.1 he
  exact elementOk_shiftRegister.2
    ⟨hp, onRising_keeps (fun c : List Bool => c.length = pb.1.width) hl (length_loadCells hl)⟩

theorem leavesOk_shiftBank {p : ShiftParams} {b : CellBank} {i : Option Bool} {clk : Bool} (h : OkAt s x)
    (he : elementOk (.shiftRegister p b) = true) : LeavesOk x (shiftBank x p b i clk s) := by
  obtain ⟨hp, hl⟩ := elementOk_shiftRegister.1 he
  unfold shiftBank
  split
  · exact leavesOk_raise h
  · have hpos : 1 ≤ b.cells.length := hl ▸ width_pos_of_shiftLegal hp
    exact leavesOk_commit (elementOk_shiftRegister.2
      ⟨hp, onRising_keeps (fun c : List Bool => c.length = p.width) hl ((length_shiftCells hpos).trans hl)⟩)

theorem leavesOk_shift {i : Option Bool} {clk : Bool} (h : OkAt s x) : LeavesOk x (execShrShift x i clk s) :=
  leavesOk_withElem h fun _ _ he hv => leavesOk_shiftBank h (asShiftRegister_eq_some hv ▸ he)

theorem leavesOk_shiftFormStep {d : Dir} {p : Fill} {i : Option Bool} {clk : Bool} (h : OkAt s x) :
    LeavesOk x (shiftFormStep x d p i clk s) := by
  refine leavesOk_withElem h fun e pb he hv => ?_
  split
  · exact leavesOk_shiftBank h (asShiftRegister_eq_some hv ▸ he)
  · rintro _ ⟨⟩

theorem leavesOk_tickStep {d : Option CountDir} {clk : Bool} (h : OkAt s x) : LeavesOk x (tickStep x d clk s) := by
  refine leavesOk_withElem h fun e pc he hv => leavesOk_commit ?_
  obtain rfl := asCounter_eq_some hv
  exact elementOk_counter.2 (counterOk_tickState (tickDir pc.1 d) clk (elementOk_counter.1 he))

theorem leavesOk_writeStep {i : Nat} {v : Word} {enable clk : Bool} (h : OkAt s x) :
    LeavesOk x (writeStep x i v enable clk s) := by
  refine leavesOk_withElem h fun e pf he hv => leavesOk_presented fun hfit => ?_
  obtain rfl := asFile_eq_some hv
  obtain ⟨hp, hslots⟩ := fileOk_iff.1 (elementOk_registerFile.1 he)
  split
  · exact leavesOk_raise h
  · next hi =>
    exact leavesOk_commit (elementOk_registerFile.2 <| fileOk_iff.2
      ⟨hp, onRising_keeps (fun m : Memory => Memory.wf m = true ∧ ∀ e ∈ m, slotOk pf.1 e = true) hslots
        (writeSlots_keeps (Nat.not_le.1 hi) hfit hslots)⟩)

end

/-- Every operation leaves what it names as the spec allows it. -/
theorem exec_leavesOk (i : Instr) {s : State} (h : OkAt s i.inst) : LeavesOk i.inst (exec i s) := by
  cases i with
  | clNew x | srlNew x | dlNew x | dffNew x | jkffNew x | tffNew x =>
    exact leavesOk_construct (legal := true) h fun _ => rfl
  | clSample x v => exact leavesOk_update h fun _ => rfl
  | dlHold x d | dlPass x d => exact leavesOk_update h fun _ => rfl
  | dffStep x d c => exact leavesOk_update h fun _ => rfl
  | jkffHold x c | jkffReset x c | jkffSet x c | jkffToggle x c | tffHold x c | tffToggle x c =>
    exact leavesOk_update h fun _ => rfl
  | clRead x | srlRead x | dlRead x | dffRead x | jkffRead x | tffRead x | regRead x | shrRead x
  | shrSout x | cntRead x => exact leavesOk_read h
  | rfRead x k => exact leavesOk_read h
  | srlHold x => exact leavesOk_srStep false false h
  | srlReset x => exact leavesOk_srStep false true h
  | srlSet x => exact leavesOk_srStep true false h
  | srlInvalid x => exact leavesOk_srStep true true h
  | regNew x w =>
    exact leavesOk_construct h fun hw => elementOk_register.2 ⟨of_decide_eq_true hw, List.length_replicate⟩
  | regHold x v c | regLoad x v c => exact leavesOk_regStep h
  | shrNew x w d p v =>
    exact leavesOk_construct h fun hp => elementOk_shiftRegister.2 ⟨hp, length_cellsOf _ _⟩
  | shrShift x b c => exact leavesOk_shift h
  | shrShiftRZero x b c | shrShiftRSerial x b c | shrShiftRRing x b c | shrShiftRJohnson x b c
  | shrShiftLZero x b c | shrShiftLSerial x b c | shrShiftLRing x b c | shrShiftLJohnson x b c =>
    exact leavesOk_shiftFormStep h
  | shrLhold x v c | shrLoad x v c => exact leavesOk_shrLoadStep h
  | cntNew x w m d y => exact leavesOk_construct h fun hp => elementOk_counter.2 (counterOk_new hp)
  | cntTick x c | cntTickup x c | cntTickdn x c => exact leavesOk_tickStep h
  | rfNew x n z w r => exact leavesOk_construct h fun hp => elementOk_registerFile.2 (fileOk_new hp)
  | rfWhold x k v c | rfWrite x k v c => exact leavesOk_writeStep h

/-! ### The invariant of the machine -/

theorem mem_of_find {α : Type} {t : Table α} {k : Nat} {a : α} (h : Table.find t k = some a) : (k, a) ∈ t := by
  induction t with
  | nil => simp at h
  | cons e r ih =>
    obtain ⟨j, b⟩ := e
    unfold Table.find at h
    split at h
    · next hj => simp [← hj, Option.some.inj h]
    · exact List.mem_cons_of_mem _ (ih h)

theorem ok_iff {s : State} : s.ok = true ↔ Table.wf s.elems = true ∧ (∀ e ∈ s.elems, elementOk e.2 = true) ∧
    Table.wf s.errs = true ∧ ∀ e ∈ s.errs, errOk s.elems e = true := by
  simp [State.ok, and_assoc]

theorem okAt_of_ok {s : State} (h : s.ok = true) (x : Inst) : OkAt s x := by
  obtain ⟨-, helems, -, -⟩ := ok_iff.1 h
  exact fun e hf => helems (x, e) (mem_of_find hf)

theorem errOk_iff {elems : Table Element} {e : Nat × ErrorKind} :
    errOk elems e = true ↔ (Table.find elems e.1).isSome = true ∧ e.2 ≠ .invalidConfiguration := by
  simp [errOk]

/-- Binding a name takes no existing name away, so the error ports stay those of existing names. -/
theorem errOk_set {elems : Table Element} {e : Nat × ErrorKind} (x : Inst) (a : Element)
    (h : errOk elems e = true) : errOk (Table.set elems x a) e = true := by
  obtain ⟨hfound, hown⟩ := errOk_iff.1 h
  refine errOk_iff.2 ⟨?_, hown⟩
  rw [find_set]
  split
  · rfl
  · exact hfound

/-- However a call ends, the invariant is kept if what the call leaves under its name is as the spec allows it. -/
theorem Ends.ok {s t : State} {x : Inst} (he : Ends s x t) (hs : s.ok = true) (ht : OkAt t x) : t.ok = true := by
  obtain ⟨hwf, helems, hwfErrs, herrs⟩ := ok_iff.1 hs
  cases he with
  | done e r _ =>
    refine ok_iff.2 ⟨wf_set x e hwf, fun f hf => ?_, wf_erase x hwfErrs,
      fun f hf => errOk_set x e (herrs f (mem_erase hf))⟩
    rcases mem_set hf with rfl | hf
    · exact ht e (find_set_same _ _ _)
    · exact helems f hf
  | raised e k found own =>
    refine ok_iff.2 ⟨hwf, helems, wf_set x k hwfErrs, fun f hf => ?_⟩
    rcases mem_set hf with rfl | hf
    · exact errOk_iff.2 ⟨Option.isSome_of_eq_some found, own⟩
    · exact herrs f hf
  | told r => exact hs

theorem exec_keeps_ok {i : Instr} {s t : State} (hs : s.ok = true) (h : exec i s = .next t) : t.ok = true :=
  (exec_next h).ok hs (exec_leavesOk i (okAt_of_ok hs i.inst) t h)

/-! ### What a step can do -/

/-- A call without an operation stops the machine. -/
theorem resolve_error_ne_next {c : Call} {s t : State} {r : Result} (h : resolve c s = .error r) : r ≠ .next t := by
  rintro rfl
  cases c with
  | op i => cases h
  | vector x p v =>
    cases he : s.find x with
    | none => simp [resolve, he] at h
    | some e =>
      cases hf : e.format p with
      | none => simp [resolve, he, hf] at h
      | some f => cases hd : decode f x v <;> simp [resolve, he, hf, hd] at h

/-- A call that answers a next state has performed an operation. -/
theorem perform_next {c : Call} {s t : State} (h : perform c s = .next t) : ∃ i, exec i s = .next t := by
  unfold perform at h
  split at h
  · next i _ => exact ⟨i, h⟩
  · next hr => exact absurd h (resolve_error_ne_next hr)

/-- Everything a step can do when it answers a next state. -/
theorem step_next {s t : State} (h : step s = .next t) :
    (s.calls = [] ∧ t = s) ∨ ∃ c rest i, s.calls = c :: rest ∧ exec i { s with calls := rest } = .next t := by
  unfold step at h
  split at h
  · next hc => cases h; exact .inl ⟨hc, rfl⟩
  · next c rest hc =>
    obtain ⟨i, hi⟩ := perform_next h
    exact .inr ⟨c, rest, i, hc, hi⟩

theorem resolve_vector {s : State} {x : Inst} {p : Port} {v : Nat} {e : Element} {f : Format} {i : Instr}
    (he : s.find x = some e) (hf : e.format p = some f) (hi : decode f x v = .ok i) :
    resolve (.vector x p v) s = .ok i := by
  simp [resolve, he, hf, hi]

theorem perform_eq_exec {c : Call} {s : State} {i : Instr} (h : resolve c s = .ok i) : perform c s = exec i s := by
  simp [perform, h]

theorem step_of_calls_cons {s : State} {c : Call} {rest : List Call} (h : s.calls = c :: rest) :
    step s = perform c { s with calls := rest } := by
  simp [step, h]

theorem step_of_calls_nil {s : State} (h : s.calls = []) : step s = .next s := by
  simp [step, h]

/-! ### Constructions -/

/-- An operation that is a construction with a legal tuple completes with the new element under its name. -/
theorem completes_construct {i : Instr} {s : State} {x : Inst} {legal : Bool} {e : Element}
    (h : exec i s = construct x legal e s) (hl : legal = true) : Completes i s (CallDone s x e .ok) := by
  subst hl
  obtain ⟨t, ht, hd⟩ := commit_spec x e .ok s
  exact ⟨t, h.trans ((construct_legal x e s).trans ht), hd⟩

theorem shiftLegal_tuple {w : Nat} {d : Dir} {p : Fill} {init : Option Word} (hw : 1 ≤ w)
    (hi : init.getD 0 < 2 ^ w) : shiftLegal (shiftTuple w d p init) = true := by
  simp [shiftLegal, shiftTuple, fitsIn, Config.defaultInit, hw, hi]

theorem newShiftBank_tuple (w : Nat) (d : Dir) (p : Fill) (init : Option Word) :
    newShiftBank (shiftTuple w d p init) =
      ⟨(List.range w).map (fun i => (init.getD 0).testBit i), ⟨false, false⟩⟩ := by
  simp only [newShiftBank, cellsOf_eq_map_testBit]
  rfl

theorem counterLegal_tuple {w : Nat} {m : Option Nat} {d : Option CountDir} {y : Option Style} (hw : 1 ≤ w)
    (hm : ∀ k, m = some k → 1 ≤ k ∧ k ≤ 2 ^ w) : counterLegal (counterTuple w m d y) = true := by
  cases m with
  | none => simp [counterLegal, counterTuple, modulusLegal, hw]
  | some k => simp [counterLegal, counterTuple, modulusLegal, hw, hm k rfl]

/-- Unless the style is `Ripple` and `MOD` is absent, a new Counter is the pair (10_state.md R28, R29). -/
theorem newCounterState_tuple_paired {w : Nat} {m : Option Nat} {d : Option CountDir} {y : Option Style}
    (h : y = some .ripple → m ≠ none) :
    newCounterState (counterTuple w m d y) = .paired 0 ⟨false, false⟩ := by
  have hc : isChained (counterTuple w m d y) = false := by
    cases y with
    | none => rfl
    | some y =>
      cases y with
      | synchronous => rfl
      | ripple => simp [isChained, counterTuple, Option.ne_none_iff_isSome.1 (h rfl)]
  simp [newCounterState, hc, ClockLine.new]

/-- A width or a number of ports that is not given as 0 is at least 1, its default being so. -/
theorem one_le_getD {o : Option Nat} {k : Nat} (ho : o ≠ some 0) (hk : 1 ≤ k) : 1 ≤ o.getD k := by
  cases o with
  | none => exact hk
  | some j => exact Nat.one_le_iff_ne_zero.2 fun hj => ho (congrArg some hj)

theorem fileLegal_tuple {n : Nat} {z w r : Option Nat} (hn : 1 ≤ n) (hz : ∀ k, z = some k → k < n)
    (hw : w ≠ some 0) (hr : r ≠ some 0) : fileLegal (fileTuple n z w r) = true := by
  have hz' : zeroIndexLegal n z = true := by
    cases z with
    | none => rfl
    | some k => exact decide_eq_true (hz k rfl)
  have hw' : 1 ≤ w.getD Config.defaultWordWidth := one_le_getD hw (by decide)
  have hr' : 1 ≤ r.getD Config.defaultReadPorts := one_le_getD hr (by decide)
  simp [fileLegal, fileTuple, hn, hz', hw', hr']

/-! ### The statements of the family -/

/-- Settles O9: `Ends` says what a call leaves of the tables, `exec_leavesOk` that the element it leaves under its name
is as the spec allows it; the calls still to make are no part of the invariant. -/
theorem stepKeepsTheInvariant : Obligations.StepKeepsTheInvariant := by
  intro s t hs h
  rcases step_next h with ⟨-, rfl⟩ | ⟨c, rest, i, -, hi⟩
  · exact hs
  · exact exec_keeps_ok (s := { s with calls := rest }) hs hi

/-- Settles O5, by the bounds of the binary logarithm of the largest index `n - 1`. -/
theorem addressWidthIsLeast : Obligations.AddressWidthIsLeast := by
  intro n hn
  unfold addrWidth
  refine ⟨Nat.le_add_left 1 _, ?_, fun b hb hnb => ?_⟩
  · have hlt : n - 1 < 2 ^ (Nat.log2 (n - 1) + 1) := Nat.lt_log2_self
    omega
  · by_cases h1 : n - 1 = 0
    · simpa [h1] using hb
    · exact (Nat.log2_lt h1).2 (by omega)

/-- Settles O56, by the three ways a call ends. -/
theorem callsTouchOnlyTheirInstance : Obligations.CallsTouchOnlyTheirInstance := by
  intro i s t h
  cases exec_next h with
  | done e r _ => exact ⟨rfl, fun y hy => ⟨find_set_other _ _ _ _ hy, find_erase_other _ _ _ hy⟩⟩
  | raised e k _ _ => exact ⟨rfl, fun y hy => ⟨rfl, find_set_other _ _ _ _ hy⟩⟩
  | told r => exact ⟨rfl, fun y _ => ⟨rfl, rfl⟩⟩

/-- Settles O6: a typed call is its own operation, a vector the one it decodes to. -/
theorem stepRunsTheNextCall : Obligations.StepRunsTheNextCall := by
  refine ⟨fun s i rest hc => ?_, fun s x p v rest e f i hc he hf hi => ?_, fun s => step_of_calls_nil⟩
  · rw [step_of_calls_cons hc]
    exact perform_eq_exec rfl
  · rw [step_of_calls_cons hc]
    exact perform_eq_exec (resolve_vector he hf hi)

/-- Settles O11: every construction is `construct` of its tuple's legality and its new element. -/
theorem constructionsMakeResetInstances : Obligations.ConstructionsMakeResetInstances := by
  intro s x
  refine ⟨completes_construct rfl rfl, completes_construct rfl rfl, completes_construct rfl rfl,
    completes_construct rfl rfl, completes_construct rfl rfl, completes_construct rfl rfl,
    fun w hw => completes_construct rfl (decide_eq_true hw), ?shr, ?pair, ?chain, ?file⟩
  case shr =>
    intro w d p init hw hi
    rw [← newShiftBank_tuple w d p init]
    exact completes_construct rfl (shiftLegal_tuple hw hi)
  case pair =>
    intro w m d y hw hm hy
    rw [← newCounterState_tuple_paired (w := w) (d := d) hy]
    exact completes_construct rfl (counterLegal_tuple hw hm)
  case chain =>
    intro w d hw
    exact completes_construct rfl (counterLegal_tuple (m := none) hw nofun)
  case file =>
    intro n z w r hn hz hw hr
    exact completes_construct rfl (fileLegal_tuple hn hz hw hr)

end Sys2Proof.Machine
end

section
/-! PROOFS. The state family: the invariant at reset and what it says of a file's slots, the stops of an operation on a
free name or on an element of another kind, reads and output ports, and a Register beside a D flip-flop. The laws about
the model come first, then the proofs that use them. -/

namespace Sys2Proof.Machine

/-! ### Slots of a file as the spec allows it -/

/-- What a slot reads as is 0 or is listed. -/
theorem read_eq_zero_or_mem (m : Memory) (i : Nat) : Memory.read m i = 0 ∨ (i, Memory.read m i) ∈ m := by
  cases h : Table.find m i with
  | none => exact .inl (by simp [Memory.read, h])
  | some v => exact .inr (by simpa [Memory.read, h] using mem_of_find h)

/-- A slot that does not read as 0 is inside the file and not at the zero index, and its word has `WORD_W` bits. -/
theorem read_eq_zero_or_inside {p : FileParams} {f : FileState} (h : fileOk p f = true) (i : Nat) :
    Memory.read f.slots i = 0 ∨
      i < p.slots ∧ p.zeroIndex ≠ some i ∧ Memory.read f.slots i < 2 ^ p.wordWidth := by
  obtain ⟨-, -, hslots⟩ := fileOk_iff.1 h
  exact (read_eq_zero_or_mem f.slots i).imp_right fun hm => slotOk_iff.1 (hslots _ hm)

/-! ### Every operation but a construction looks its element up first -/

theorem withElem_free {α : Type} {view : Element → Option α} {x : Inst} {s : State} {k : α → Result}
    (h : s.find x = none) : withElem view x s k = .fault (.noInstance x) := by
  simp [withElem, h]

theorem withElem_otherKind {α : Type} {view : Element → Option α} {x : Inst} {s : State} {k : α → Result}
    {e : Element} (he : s.find x = some e) (hv : view e = none) :
    withElem view x s k = .refused (.wrongKind x) := by
  simp [withElem, he, hv]

/-- `view` sees the elements of kind `kd` and no others. -/
def Sees {α : Type} (view : Element → Option α) (kd : ElementKind) : Prop :=
  ∀ e, view e = none ↔ elementKind e ≠ kd

theorem sees_clockLine : Sees Element.asClockLine .clockLine := by
  intro e; cases e <;> simp [Element.asClockLine, elementKind]

theorem sees_srLatch : Sees Element.asSrLatch .srLatch := by
  intro e; cases e <;> simp [Element.asSrLatch, elementKind]

theorem sees_dLatch : Sees Element.asDLatch .dLatch := by
  intro e; cases e <;> simp [Element.asDLatch, elementKind]

theorem sees_dff : Sees Element.asDff .dff := by
  intro e; cases e <;> simp [Element.asDff, elementKind]

theorem sees_jkff : Sees Element.asJkff .jkff := by
  intro e; cases e <;> simp [Element.asJkff, elementKind]

theorem sees_tff : Sees Element.asTff .tff := by
  intro e; cases e <;> simp [Element.asTff, elementKind]

theorem sees_register : Sees Element.asRegister .register := by
  intro e; cases e <;> simp [Element.asRegister, elementKind]

theorem sees_shiftRegister : Sees Element.asShiftRegister .shiftRegister := by
  intro e; cases e <;> simp [Element.asShiftRegister, elementKind]

theorem sees_counter : Sees Element.asCounter .counter := by
  intro e; cases e <;> simp [Element.asCounter, elementKind]

theorem sees_registerFile : Sees Element.asFile .registerFile := by
  intro e; cases e <;> simp [Element.asFile, elementKind]

/-- In every state the operation `i` first looks up the element it names, and sees it exactly when it is of the kind
`i` is for. -/
def LooksUp (i : Instr) : Prop :=
  ∃ (α : Type) (view : Element → Option α) (k : State → α → Result),
    Sees view (operationKind i) ∧ ∀ s, exec i s = withElem view i.inst s (k s)

theorem looksUp_of_not_construction {i : Instr} (h : isConstruction i = false) : LooksUp i := by
  cases i with
  | clNew | srlNew | dlNew | dffNew | jkffNew | tffNew | regNew | shrNew | cntNew | rfNew => cases h
  | clSample | clRead => exact ⟨_, _, _, sees_clockLine, fun _ => rfl⟩
  | srlHold | srlReset | srlSet | srlInvalid | srlRead => exact ⟨_, _, _, sees_srLatch, fun _ => rfl⟩
  | dlHold | dlPass | dlRead => exact ⟨_, _, _, sees_dLatch, fun _ => rfl⟩
  | dffStep | dffRead => exact ⟨_, _, _, sees_dff, fun _ => rfl⟩
  | jkffHold | jkffReset | jkffSet | jkffToggle | jkffRead => exact ⟨_, _, _, sees_jkff, fun _ => rfl⟩
  | tffHold | tffToggle | tffRead => exact ⟨_, _, _, sees_tff, fun _ => rfl⟩
  | regHold | regLoad | regRead => exact ⟨_, _, _, sees_register, fun _ => rfl⟩
  | shrShift | shrShiftRZero | shrShiftRSerial | shrShiftRRing | shrShiftRJohnson | shrShiftLZero | shrShiftLSerial
  | shrShiftLRing | shrShiftLJohnson | shrLhold | shrLoad | shrRead | shrSout =>
    exact ⟨_, _, _, sees_shiftRegister, fun _ => rfl⟩
  | cntTick | cntTickup | cntTickdn | cntRead => exact ⟨_, _, _, sees_counter, fun _ => rfl⟩
  | rfWhold | rfWrite | rfRead => exact ⟨_, _, _, sees_registerFile, fun _ => rfl⟩

/-! ### Values and cells -/

/-- `val` is the binary value of the cells, cell 0 the least significant (10_state.md R25). -/
theorem val_eq_sum (cells : List Bool) :
    val cells = ∑ i ∈ Finset.range cells.length, (cells.getD i false).toNat * 2 ^ i := by
  induction cells with
  | nil => rfl
  | cons c r ih =>
    have hr : 2 * val r = ∑ i ∈ Finset.range r.length, (r.getD i false).toNat * 2 ^ (i + 1) := by
      rw [ih, Finset.mul_sum]
      exact Finset.sum_congr rfl fun i _ => by ring
    simp [val, hr, Finset.sum_range_succ', Nat.add_comm]

/-- The bit at the exit end of a bank of `w` cells (44_shift_register.md R193). -/
theorem outgoing_eq_getD {cells : List Bool} {w : Nat} (d : Dir) (h : cells.length = w) :
    outgoing d cells = cells.getD (if d = .right then 0 else w - 1) false := by
  subst h
  cases d with
  | right => cases cells <;> rfl
  | left => simp [outgoing, List.getLastD_eq_getLast?, List.getLast?_eq_getElem?]

theorem getElem?_cellsOf {w i : Nat} (v : Nat) (h : i < w) : (cellsOf w v)[i]? = some (v.testBit i) := by
  simp [cellsOf_eq_map_testBit, h]

/-- Cell `i` after the update of a parallel load (43_register.md R166, R167). -/
theorem getElem?_loadCells {cells : List Bool} {w i : Nat} {c : Bool} (v : Word) (enable : Bool)
    (hw : cells.length = w) (hc : cells[i]? = some c) :
    (loadCells w v enable cells)[i]? = some (if enable then v.testBit i else c) := by
  obtain ⟨hi, -⟩ := List.getElem?_eq_some_iff.1 hc
  cases enable with
  | false => exact hc
  | true => exact getElem?_cellsOf v (hw ▸ hi)

/-- One cell of a bank is clocked as a flip-flop whose data is what the bank's update puts into the cell. -/
theorem getElem?_onRising {l : ClockLine} {clk : Bool} {u : List Bool → List Bool} {cells : List Bool} {i : Nat}
    {c d : Bool} (hc : cells[i]? = some c) (hd : (u cells)[i]? = some d) :
    (onRising l clk u cells)[i]? = some (onRising l clk (fun _ => d) c) := by
  rw [onRising_rises, onRising_rises]
  split
  · exact hd
  · exact hc

/-! ### Operations that complete -/

theorem Completes.imp {i : Instr} {s : State} {P Q : State → Prop} (h : Completes i s P) (hPQ : ∀ t, P t → Q t) :
    Completes i s Q := by
  obtain ⟨t, ht, hP⟩ := h
  exact ⟨t, ht, hPQ t hP⟩

@[simp] theorem runCompletes_nil {s : State} {P : State → Prop} : RunCompletes [] s P ↔ P s := by
  simp [RunCompletes, execAll]

theorem runCompletes_cons {i : Instr} {is : List Instr} {s : State} {P : State → Prop} :
    RunCompletes (i :: is) s P ↔ Completes i s (fun t => RunCompletes is t P) := by
  simp only [RunCompletes, Completes, execAll]
  cases exec i s <;> simp

/-- `CNT.READ`, of either representation (45_counter.md R215). -/
theorem exec_cntRead {s : State} {x : Inst} {p : CounterParams} {c : CounterState}
    (h : s.find x = some (.counter p c)) :
    exec (.cntRead x) s = .next { s with reply := .word (countOf c) } :=
  withElem_some h (asCounter_counter p c)

/-- An operation that ends in `commit` completes. -/
theorem completes_commit {i : Instr} {s : State} {x : Inst} {e : Element} {r : Reply} (h : exec i s = commit x e r s) :
    Completes i s (CallDone s x e r) := by
  obtain ⟨t, ht, hd⟩ := commit_spec x e r s
  exact ⟨t, h.trans ht, hd⟩

/-- `DFF.STEP` (42_bitcell.md R146). -/
theorem completes_dffStep {s : State} {x : Inst} {f : FlipFlop} (data clk : Bool) (h : s.find x = some (.dff f)) :
    Completes (.dffStep x data clk) s (CallDone s x (.dff (f.clocked clk fun _ => data)) .ok) :=
  completes_commit (withElem_some h (asDff_dff f))

theorem regStep_eq_commit {s : State} {x : Inst} {w : Nat} {b : CellBank} {v : Word} (enable clk : Bool)
    (h : s.find x = some (.register w b)) (hv : v < 2 ^ w) :
    regStep x v enable clk s = commit x (.register w (b.clocked clk (loadCells w v enable))) .ok s :=
  (withElem_some h (asRegister_register w b)).trans (presented_fits hv)

/-- `REG.LOAD` and `REG.HOLD` are the two levels of `enable` (43_register.md R166, R167). -/
theorem completes_regStep {s : State} {x : Inst} {w : Nat} {b : CellBank} {v : Word} (enable clk : Bool)
    (h : s.find x = some (.register w b)) (hv : v < 2 ^ w) :
    Completes (if enable then .regLoad x v clk else .regHold x v clk) s
      (CallDone s x (.register w (b.clocked clk (loadCells w v enable))) .ok) := by
  apply completes_commit
  rw [← regStep_eq_commit enable clk h hv]
  cases enable <;> rfl

/-! ### Output ports -/

section
variable {s : State} {x : Inst}

theorem curPort_clockLine {l : ClockLine} (h : s.find x = some (.clockLine l)) : curPort s x = some l.current := by
  simp [curPort, h]

theorem prevPort_clockLine {l : ClockLine} (h : s.find x = some (.clockLine l)) : prevPort s x = some l.previous := by
  simp [prevPort, h]

theorem edgePort_clockLine {l : ClockLine} (h : s.find x = some (.clockLine l)) :
    edgePort s x = some (edgeCode (shownEdge l)) := by
  simp [edgePort, h]

theorem soutPort_shiftRegister {p : ShiftParams} {b : CellBank} (h : s.find x = some (.shiftRegister p b)) :
    soutPort s x = some (outgoing p.dir b.cells) := by
  simp [soutPort, h]

theorem countPort_counter {p : CounterParams} {c : CounterState} (h : s.find x = some (.counter p c)) :
    countPort s x = some (countOf c) := by
  simp [countPort, h]

theorem errPort_srLatch {q : Bool} (h : s.find x = some (.srLatch q)) :
    errPort s x = some (errorCode (s.errOf x)) := by
  simp [errPort, h]

theorem werrPort_registerFile {p : FileParams} {f : FileState} (h : s.find x = some (.registerFile p f)) :
    werrPort s x = some (errorCode (s.errOf x)) := by
  simp [werrPort, h]

/-- What an element shows on the port `q`, if it has one (30_encoding.md R83 to R86). -/
def Element.shownQ (e : Element) : Option Word :=
  match e with
  | .srLatch q | .dLatch q => some q.toNat
  | .dff f | .jkff f | .tff f => some f.value.toNat
  | .register _ b | .shiftRegister _ b => some (val b.cells)
  | .clockLine _ | .counter _ _ | .registerFile _ _ => none

theorem qPort_eq_shownQ {e : Element} (h : s.find x = some e) : qPort s x = e.shownQ := by
  cases e <;> simp [qPort, h, Element.shownQ]

end

/-! ### The statements of the family -/

/-- Settles O30: the load leaves the flip-flop and the step the Register, and `getElem?_onRising` compares what the two
leave. -/
theorem registerIsABankOfFlipFlops : Obligations.RegisterIsABankOfFlipFlops := by
  intro s x y w i b c enable clk value hxy hv hw hc hreg hdff
  refine runCompletes_cons.2 ((completes_regStep enable clk hreg hv).imp fun t hload => ?_)
  have hdff' : t.find y = some (.dff ⟨c, b.clkLine⟩) := (hload.otherElems y hxy.symm).trans hdff
  refine runCompletes_cons.2 ((completes_dffStep _ clk hdff').imp fun u hstep => runCompletes_nil.2 ?_)
  exact ⟨_, _, (hstep.otherElems x hxy).trans hload.elem, hstep.elem,
    getElem?_onRising hc (getElem?_loadCells value enable hw hc)⟩

/-- Settles O10: the invariant says where an entry may stand, and an index without an entry reads 0. -/
theorem slotsStayInRange : Obligations.SlotsStayInRange := by
  intro s x p f hs hx
  have hread := read_eq_zero_or_inside (elementOk_registerFile.1 (okAt_of_ok hs x _ hx))
  refine ⟨fun z hz => ?zero, fun i hi => ?outside, fun i => ?width⟩
  case zero => exact (hread z).resolve_right fun ⟨_, hne, _⟩ => hne hz
  case outside => exact (hread i).resolve_right fun ⟨hlt, _, _⟩ => Nat.not_lt.2 hi hlt
  case width =>
    rcases hread i with h0 | ⟨_, _, hlt⟩
    · rw [h0]
      exact Nat.two_pow_pos p.wordWidth
    · exact hlt

/-- Settles O58: the look-up comes first, and on a free name it faults. -/
theorem callsWithoutAnInstanceFault : Obligations.CallsWithoutAnInstanceFault := by
  intro i s hi hx
  obtain ⟨α, view, k, -, hexec⟩ := looksUp_of_not_construction hi
  rw [hexec, withElem_free hx]

/-- Settles O59: the look-up comes first, and it sees no element of another kind. -/
theorem callsOnAnotherKindAreRefused : Obligations.CallsOnAnotherKindAreRefused := by
  intro i s e hi hx hkind
  obtain ⟨α, view, k, hsees, hexec⟩ := looksUp_of_not_construction hi
  rw [hexec, withElem_otherKind hx ((hsees e).2 hkind)]

/-- Settles O8: both tables are empty at reset. -/
theorem resetHasNoInstanceAndIsOk : Obligations.ResetHasNoInstanceAndIsOk :=
  ⟨ok_iff.2 ⟨rfl, nofun, rfl, nofun⟩, find_nil, find_nil⟩

/-- Settles O13: on an element of its kind every `read` is an inspection of what the look-up finds. -/
theorem readsReturnTheStoredValue : Obligations.ReadsReturnTheStoredValue := by
  intro s x
  refine ⟨fun q h => withElem_some h (asSrLatch_srLatch q), fun q h => withElem_some h (asDLatch_dLatch q),
    fun f h => withElem_some h (asDff_dff f), fun f h => withElem_some h (asJkff_jkff f),
    fun f h => withElem_some h (asTff_tff f), fun p n l h => exec_cntRead h, fun p cells ls h => ?_⟩
  rw [← val_eq_sum]
  exact exec_cntRead h

/-- Settles O16: each port reads the element under the name; the new elements are those of O11. -/
theorem outputPortsShowTheState : Obligations.OutputPortsShowTheState := by
  intro s x
  obtain ⟨hcl, hsrl, -, -, -, -, -, -, -, -, hrf⟩ := constructionsMakeResetInstances s x
  refine ⟨fun l h => ⟨curPort_clockLine h, prevPort_clockLine h⟩, fun q h => qPort_eq_shownQ h,
    fun q h => qPort_eq_shownQ h, fun f h => qPort_eq_shownQ h, fun f h => qPort_eq_shownQ h,
    fun f h => qPort_eq_shownQ h, fun w b h => ?register, fun p b h => ⟨?shiftRegister, fun hw _ => ?sout⟩,
    fun p n l h => countPort_counter h, fun p cells ls h => ?chain, hcl.imp fun t ht => ?edge,
    hsrl.imp fun t ht => ?err, fun n hn => (hrf n none none none hn nofun nofun nofun).imp fun t ht => ?werr⟩
  case register => rw [← val_eq_sum, qPort_eq_shownQ h, Element.shownQ]
  case shiftRegister => rw [← val_eq_sum, qPort_eq_shownQ h, Element.shownQ]
  case sout => rw [soutPort_shiftRegister h, outgoing_eq_getD p.dir hw]
  case chain => rw [← val_eq_sum, countPort_counter h, countOf]
  case edge => exact edgePort_clockLine ht.elem
  case err => rw [errPort_srLatch ht.elem, ht.err, errorCode]
  case werr => rw [werrPort_registerFile ht.elem, ht.err, errorCode]

end Sys2Proof.Machine
end

section
/-! PROOFS. The memory family: inspections are pure, the read of a RegisterFile, and the locality of a call: what a call
does to the element it names depends on that element alone. The laws about the model come first, then the proofs that
use them. -/

namespace Sys2Proof.Machine

/-! ### Inspections -/

/-- The operation `i` only looks at the element it names, and its result is a function of what it sees there. -/
def Inspects (i : Instr) : Prop :=
  ∃ (α : Type) (view : Element → Option α) (f : α → Reply),
    ∀ s, exec i s = withElem view i.inst s (fun a => inspect (f a) s)

theorem inspects_of_isRead {i : Instr} (h : isRead i = true) : Inspects i := by
  cases i with
  | clRead | srlRead | dlRead | dffRead | jkffRead | tffRead | regRead | shrRead | cntRead | rfRead =>
    exact ⟨_, _, _, fun _ => rfl⟩
  | _ => cases h

theorem inspects_shrSout (x : Inst) : Inspects (.shrSout x) := ⟨_, _, _, fun _ => rfl⟩

theorem inspects_of_isInspection {i : Instr} (h : isInspection i) : Inspects i := by
  rcases h with hread | hsout
  · exact inspects_of_isRead hread
  · exact hsout ▸ inspects_shrSout i.inst

/-- An inspection that answers a next state has only told the driver something (20_memory.md R68). -/
theorem Inspects.next {i : Instr} {s t : State} (hi : Inspects i) (h : exec i s = .next t) : ∃ r, t = s.told r := by
  obtain ⟨α, view, f, hexec⟩ := hi
  obtain ⟨e, a, -, -, hk⟩ := withElem_next ((hexec s).symm.trans h)
  cases hk
  exact ⟨f a, rfl⟩

/-! ### The read of a RegisterFile -/

section
variable {p : FileParams} {f : FileState} {index : Nat}

theorem fileRead_outside (h : p.slots ≤ index) : fileRead p f index = .error .indexOutOfBounds := by
  simp [fileRead, h]

theorem fileRead_zeroIndex (h : index < p.slots) (hz : p.zeroIndex = some index) : fileRead p f index = .ok 0 := by
  simp [fileRead, Nat.not_le.2 h, hz]

theorem fileRead_slot (h : index < p.slots) (hz : p.zeroIndex ≠ some index) :
    fileRead p f index = .ok (Memory.read f.slots index) := by
  simp [fileRead, Nat.not_le.2 h, hz]

variable {s : State} {x : Inst}

/-- `RF.READ` (46_register_file.md R247). -/
theorem exec_rfRead (hx : s.find x = some (.registerFile p f)) {r : Except ErrorKind Word}
    (hr : fileRead p f index = r) : exec (.rfRead x index) s = .next { s with reply := readReply r } :=
  (withElem_some hx (asFile_registerFile p f)).trans (hr ▸ rfl)

/-- A read port answers what `RF.READ` returns (20_memory.md R69, 30_encoding.md R89). -/
theorem readPort_registerFile (hx : s.find x = some (.registerFile p f)) {r : Except ErrorKind Word}
    (hr : fileRead p f index = r) {k : Nat} (hk : k < p.readPorts) : readPort s x k index = some r := by
  simp [readPort, hx, hk, hr]

theorem rdataPort_of_ok {k : Nat} {v : Word} (h : readPort s x k index = some (.ok v)) :
    rdataPort s x k index = some v := by
  simp [rdataPort, h, Except.toOption]

theorem rerrPort_of_error {k : Nat} {e : ErrorKind} (h : readPort s x k index = some (.error e)) :
    rerrPort s x k index = some (errorCode (some e)) := by
  simp [rerrPort, h]

end

/-- The vector of a read is its index (30_encoding.md R89). -/
theorem decode_rfr {a index : Nat} (x : Inst) (h : index < 2 ^ a) :
    decode (.rfr a) x index = .ok (.rfRead x index) := by
  simp [decode, Format.width, decodeFields, fieldAt, h, Nat.mod_eq_of_lt h]

/-! ### A call depends on the element it names alone -/

/-- `s` and `u` show the same under the name `x`: the element, if any, and its error port. -/
structure AgreeAt (x : Inst) (s u : State) : Prop where
  find : u.find x = s.find x
  errOf : u.errOf x = s.errOf x

/-- If the first result is a next state then so is the second, with the same reply and the same under `x`. -/
def MatchedAt (x : Inst) (r r' : Result) : Prop :=
  ∀ t, r = .next t → ∃ u, r' = .next u ∧ u.reply = t.reply ∧ AgreeAt x t u

section
variable {s u : State} {x : Inst}

theorem AgreeAt.refl (x : Inst) (s : State) : AgreeAt x s s := ⟨rfl, rfl⟩

/-- A call on another name leaves what `x` shows. -/
theorem AgreeAt.of_exec_other {i : Instr} {t : State} (h : AgreeAt x s u) (hx : x ≠ i.inst)
    (hi : exec i s = .next t) : AgreeAt x t u := by
  obtain ⟨-, hframe⟩ := callsTouchOnlyTheirInstance i s t hi
  obtain ⟨hfind, herr⟩ := hframe x hx
  exact ⟨h.find.trans hfind.symm, h.errOf.trans herr.symm⟩

theorem matchedAt_commit (x : Inst) (e : Element) (r : Reply) (s u : State) :
    MatchedAt x (commit x e r s) (commit x e r u) := by
  rintro _ ⟨⟩
  exact ⟨u.done x e r, rfl, rfl, (find_set_same _ _ _).trans (find_set_same _ _ _).symm,
    (find_erase_same _ _).trans (find_erase_same _ _).symm⟩

theorem matchedAt_raise {k : ErrorKind} (h : AgreeAt x s u) : MatchedAt x (raise x k s) (raise x k u) := by
  rintro _ ⟨⟩
  exact ⟨u.raised x k, rfl, rfl, h.find, (find_set_same _ _ _).trans (find_set_same _ _ _).symm⟩

theorem matchedAt_inspect {r : Reply} (h : AgreeAt x s u) : MatchedAt x (inspect r s) (inspect r u) := by
  rintro _ ⟨⟩
  exact ⟨u.told r, rfl, rfl, h.find, h.errOf⟩

theorem matchedAt_refused {q : Refusal} {r' : Result} : MatchedAt x (.refused q) r' := nofun

theorem matchedAt_construct {legal : Bool} {e : Element} (h : AgreeAt x s u) :
    MatchedAt x (construct x legal e s) (construct x legal e u) := by
  cases legal with
  | false => exact matchedAt_inspect h
  | true => exact matchedAt_commit x e .ok s u

/-- The look-up finds the same in both states, so it is enough to compare the continuations. -/
theorem matchedAt_withElem {α : Type} {view : Element → Option α} {k k' : α → Result} (h : AgreeAt x s u)
    (hk : ∀ a, MatchedAt x (k a) (k' a)) : MatchedAt x (withElem view x s k) (withElem view x u k') := by
  intro t ht
  obtain ⟨e, a, hf, ha, hka⟩ := withElem_next ht
  rw [withElem_some (h.find.trans hf) ha]
  exact hk a t hka

theorem matchedAt_presented {w : Nat} {v : Word} {r r' : Result} (h : MatchedAt x r r') :
    MatchedAt x (presented x w v r) (presented x w v r') := by
  intro t ht
  obtain ⟨hv, hr⟩ := presented_next ht
  rw [presented_fits hv]
  exact h t hr

theorem matchedAt_read {α : Type} {view : Element → Option α} {f : α → Reply} (h : AgreeAt x s u) :
    MatchedAt x (withElem view x s (fun a => inspect (f a) s)) (withElem view x u (fun a => inspect (f a) u)) :=
  matchedAt_withElem h fun _ => matchedAt_inspect h

theorem matchedAt_update {α : Type} {view : Element → Option α} {f : α → Element} {r : α → Reply}
    (h : AgreeAt x s u) :
    MatchedAt x (withElem view x s (fun a => commit x (f a) (r a) s))
      (withElem view x u (fun a => commit x (f a) (r a) u)) :=
  matchedAt_withElem h fun _ => matchedAt_commit x _ _ s u

/-- A mutation with a data operand that has to fit its field. -/
theorem matchedAt_load {α : Type} {view : Element → Option α} {w : α → Nat} {v : Word} {f : α → Element} {r : Reply}
    (h : AgreeAt x s u) :
    MatchedAt x (withElem view x s (fun a => presented x (w a) v (commit x (f a) r s)))
      (withElem view x u (fun a => presented x (w a) v (commit x (f a) r u))) :=
  matchedAt_withElem h fun _ => matchedAt_presented (matchedAt_commit x _ _ s u)

/-! ### Each shared operation that can raise or refuse -/

theorem matchedAt_srStep (set reset : Bool) (h : AgreeAt x s u) :
    MatchedAt x (srStep x set reset s) (srStep x set reset u) := by
  refine matchedAt_withElem h fun q => ?_
  cases srNext set reset q with
  | ok q' => exact matchedAt_commit x (.srLatch q') .ok s u
  | error k => exact matchedAt_raise h

theorem matchedAt_shiftBank {p : ShiftParams} {b : CellBank} {serialIn : Option Bool} {clk : Bool}
    (h : AgreeAt x s u) : MatchedAt x (shiftBank x p b serialIn clk s) (shiftBank x p b serialIn clk u) := by
  unfold shiftBank
  split
  · exact matchedAt_raise h
  · exact matchedAt_commit x _ .ok s u

theorem matchedAt_shift {serialIn : Option Bool} {clk : Bool} (h : AgreeAt x s u) :
    MatchedAt x (execShrShift x serialIn clk s) (execShrShift x serialIn clk u) :=
  matchedAt_withElem h fun _ => matchedAt_shiftBank h

theorem matchedAt_shiftFormStep {d : Dir} {q : Fill} {serialIn : Option Bool} {clk : Bool} (h : AgreeAt x s u) :
    MatchedAt x (shiftFormStep x d q serialIn clk s) (shiftFormStep x d q serialIn clk u) := by
  refine matchedAt_withElem h fun pb => ?_
  split
  · exact matchedAt_shiftBank h
  · exact matchedAt_refused

theorem matchedAt_writeStep {index : Nat} {v : Word} {enable clk : Bool} (h : AgreeAt x s u) :
    MatchedAt x (writeStep x index v enable clk s) (writeStep x index v enable clk u) := by
  refine matchedAt_withElem h fun pf => matchedAt_presented ?_
  split
  · exact matchedAt_raise h
  · exact matchedAt_commit x _ .ok s u

end

/-- The result of a call, and what it leaves under its name, depend only on what that name shows before it
(20_memory.md R77). -/
theorem exec_matchedAt (i : Instr) {s u : State} (h : AgreeAt i.inst s u) :
    MatchedAt i.inst (exec i s) (exec i u) := by
  cases i with
  | clNew | srlNew | dlNew | dffNew | jkffNew | tffNew => exact matchedAt_construct (legal := true) h
  | regNew | shrNew | cntNew | rfNew => exact matchedAt_construct h
  | clRead | srlRead | dlRead | dffRead | jkffRead | tffRead | regRead | shrRead | shrSout | cntRead | rfRead =>
    exact matchedAt_read h
  | clSample | dlHold | dlPass | dffStep | jkffHold | jkffReset | jkffSet | jkffToggle | tffHold | tffToggle
  | cntTick | cntTickup | cntTickdn => exact matchedAt_update h
  | regHold | regLoad | shrLhold | shrLoad => exact matchedAt_load h
  | srlHold => exact matchedAt_srStep false false h
  | srlReset => exact matchedAt_srStep false true h
  | srlSet => exact matchedAt_srStep true false h
  | srlInvalid => exact matchedAt_srStep true true h
  | shrShift => exact matchedAt_shift h
  | shrShiftRZero | shrShiftRSerial | shrShiftRRing | shrShiftRJohnson | shrShiftLZero | shrShiftLSerial
  | shrShiftLRing | shrShiftLJohnson => exact matchedAt_shiftFormStep h
  | rfWhold | rfWrite => exact matchedAt_writeStep h

/-! ### Runs -/

theorem execAll_cons_eq_next {i : Instr} {is : List Instr} {s t : State} :
    execAll (i :: is) s = .next t ↔ ∃ m, exec i s = .next m ∧ execAll is m = .next t := by
  simp only [execAll]
  cases exec i s <;> simp

/-- The calls on `x` alone, made where `x` shows the same, lead to where `x` shows the same. -/
theorem ownRun_agreeAt {is : List Instr} {s t u : State} {x : Inst} (h : AgreeAt x s u)
    (hrun : execAll is s = .next t) :
    RunCompletes (is.filter (fun i => decide (i.inst = x))) u (AgreeAt x t) := by
  induction is generalizing s u with
  | nil =>
    cases hrun
    exact runCompletes_nil.2 h
  | cons i is ih =>
    obtain ⟨m, hi, hrest⟩ := execAll_cons_eq_next.1 hrun
    by_cases hx : i.inst = x
    · subst hx
      rw [List.filter_cons_of_pos (by simp), runCompletes_cons]
      obtain ⟨m', hi', -, hm⟩ := exec_matchedAt i h m hi
      exact ⟨m', hi', ih hm hrest⟩
    · rw [List.filter_cons_of_neg (by simpa using hx)]
      exact ih (h.of_exec_other (Ne.symm hx) hi) hrest

/-! ### The statements of the family -/

/-- Settles O17: an inspection that answers a next state has replaced the reply and nothing else. -/
theorem inspectionsArePure : Obligations.InspectionsArePure := by
  intro i s t hi h
  obtain ⟨r, rfl⟩ := (inspects_of_isInspection hi).next h
  rfl

/-- Settles O57: the calls on other names leave what `x` shows (O56), and the calls on `x` depend on nothing else. -/
theorem interleavingGivesEachInstanceItsOwnRun : Obligations.InterleavingGivesEachInstanceItsOwnRun := by
  intro is s t x hrun
  obtain ⟨u, hu, hagree⟩ := ownRun_agreeAt (AgreeAt.refl x s) hrun
  refine ⟨u, hu, hagree.find, hagree.errOf, fun j t' hj ht' => ?_⟩
  subst hj
  obtain ⟨u', hu', hreply, hagree'⟩ := exec_matchedAt j hagree t' ht'
  exact ⟨u', hu', hreply, hagree'.find⟩

/-- Settles O51: the three cases of `fileRead`, which `RF.READ` and every read port answer alike. -/
theorem fileReadChecksItsIndex : Obligations.FileReadChecksItsIndex := by
  intro s x p f index hx
  refine ⟨fun hout => ?outside, fun hin hz => ?zero, fun hin hz => ?slot, fun a ha => decode_rfr x ha⟩
  case outside =>
    have hread := fileRead_outside (f := f) hout
    exact ⟨exec_rfRead hx hread, fun k hk => rerrPort_of_error (readPort_registerFile hx hread hk)⟩
  case zero =>
    have hread := fileRead_zeroIndex (f := f) hin hz
    exact ⟨exec_rfRead hx hread, fun k hk => rdataPort_of_ok (readPort_registerFile hx hread hk)⟩
  case slot =>
    have hread := fileRead_slot (f := f) hin hz
    exact ⟨exec_rfRead hx hread, fun k hk => rdataPort_of_ok (readPort_registerFile hx hread hk)⟩

end Sys2Proof.Machine
end

section
/-! PROOFS. The encoding family: the fields of a vector, the round trips between operations and vectors, the operation
map, the stops of a vector that cannot be read and of an operand that cannot be presented, the tick of a Counter and the
port `edge`. The laws about the model come first, then the proofs that use them. -/

namespace Sys2Proof.Machine

/-! ### The fields of a vector -/

/-- Data above `k` control bits do not show in them. -/
theorem bitAt_two_pow_mul_add {k i : Nat} (d a : Nat) (h : i < k) : bitAt (2 ^ k * d + a) i = bitAt a i := by
  obtain ⟨j, rfl⟩ := Nat.exists_eq_add_of_lt h
  have hsplit : 2 ^ (i + j + 1) * d + a = 2 ^ i * (2 * (2 ^ j * d)) + a := by ring
  rw [bitAt, bitAt, hsplit, Nat.mul_add_div (Nat.two_pow_pos i), Nat.mul_add_mod]

/-- Data above `k` control bits are read back as the field from bit `k` upward. -/
theorem fieldAt_two_pow_mul_add {k a w d : Nat} (ha : a < 2 ^ k) (hd : d < 2 ^ w) :
    fieldAt (2 ^ k * d + a) k w = d := by
  rw [fieldAt, Nat.mul_add_div (Nat.two_pow_pos k), Nat.div_eq_of_lt ha, Nat.add_zero, Nat.mod_eq_of_lt hd]

/-- A field further up is the same field of the number without its `k` low bits. -/
theorem fieldAt_add (v k lo w : Nat) : fieldAt v (k + lo) w = fieldAt (v / 2 ^ k) lo w := by
  rw [fieldAt, fieldAt, Nat.pow_add, Nat.div_div_eq_div_mul]

/-- The field at the bottom, under data. -/
theorem fieldAt_zero_mul_add {k a d : Nat} (ha : a < 2 ^ k) : fieldAt (2 ^ k * d + a) 0 k = a := by
  rw [fieldAt, Nat.pow_zero, Nat.div_one, Nat.mul_add_mod, Nat.mod_eq_of_lt ha]

theorem fieldAt_lt (v lo w : Nat) : fieldAt v lo w < 2 ^ w := Nat.mod_lt _ (Nat.two_pow_pos w)

@[simp] theorem bitAt_four_mul_add_zero (d a : Nat) : bitAt (4 * d + a) 0 = bitAt a 0 :=
  bitAt_two_pow_mul_add (k := 2) d a (by decide)

@[simp] theorem bitAt_four_mul_add_one (d a : Nat) : bitAt (4 * d + a) 1 = bitAt a 1 :=
  bitAt_two_pow_mul_add (k := 2) d a (by decide)

@[simp] theorem bitAt_sixteen_mul_add_zero (d a : Nat) : bitAt (16 * d + a) 0 = bitAt a 0 :=
  bitAt_two_pow_mul_add (k := 4) d a (by decide)

@[simp] theorem bitAt_sixteen_mul_add_one (d a : Nat) : bitAt (16 * d + a) 1 = bitAt a 1 :=
  bitAt_two_pow_mul_add (k := 4) d a (by decide)

@[simp] theorem bitAt_sixteen_mul_add_two (d a : Nat) : bitAt (16 * d + a) 2 = bitAt a 2 :=
  bitAt_two_pow_mul_add (k := 4) d a (by decide)

@[simp] theorem bitAt_packBits_zero (b2 b1 b0 : Bool) : bitAt (packBits b2 b1 b0) 0 = b0 := by
  cases b2 <;> cases b1 <;> cases b0 <;> rfl

@[simp] theorem bitAt_packBits_one (b2 b1 b0 : Bool) : bitAt (packBits b2 b1 b0) 1 = b1 := by
  cases b2 <;> cases b1 <;> cases b0 <;> rfl

@[simp] theorem bitAt_packBits_two (b2 b1 b0 : Bool) : bitAt (packBits b2 b1 b0) 2 = b2 := by
  cases b2 <;> cases b1 <;> cases b0 <;> rfl

@[simp] theorem bitAt_packShift_zero (b : Option Bool) (c : Bool) : bitAt (packShift b c) 0 = c := by
  cases b with
  | none => cases c <;> rfl
  | some b => cases b <;> cases c <;> rfl

@[simp] theorem bitAt_packShift_one (b : Option Bool) (c : Bool) : bitAt (packShift b c) 1 = false := by
  cases b with
  | none => cases c <;> rfl
  | some b => cases b <;> cases c <;> rfl

@[simp] theorem bitAt_packShift_three (b : Option Bool) (c : Bool) : bitAt (packShift b c) 3 = b.getD false := by
  cases b with
  | none => cases c <;> rfl
  | some b => cases b <;> cases c <;> rfl

theorem bitAt_toNat (v i : Nat) : (bitAt v i).toNat = v / 2 ^ i % 2 := by
  rcases Nat.mod_two_eq_zero_or_one (v / 2 ^ i) with h | h <;> simp [bitAt, h]

/-- The lowest bits of a number, packed again. -/
theorem packBits_bitAt_three (v : Nat) : packBits (bitAt v 2) (bitAt v 1) (bitAt v 0) = v % 8 := by
  simp only [packBits, bitAt_toNat]
  omega

theorem packBits_bitAt_two (v : Nat) : packBits false (bitAt v 1) (bitAt v 0) = v % 4 := by
  simp only [packBits, bitAt_toNat, Bool.toNat_false]
  omega

theorem packBits_bitAt_one (v : Nat) : packBits false false (bitAt v 0) = v % 2 := by
  simp only [packBits, bitAt_toNat, Bool.toNat_false]
  omega

/-- The data field of a REG vector. -/
theorem fieldAt_regVector {d w : Nat} (b1 b0 : Bool) (hd : d < 2 ^ w) :
    fieldAt (4 * d + packBits false b1 b0) 2 w = d :=
  fieldAt_two_pow_mul_add (k := 2) (Laws.packBits_low_lt b1 b0) hd

/-- The data field of an SHR vector. -/
theorem fieldAt_shrVector {d w : Nat} (b2 b1 b0 : Bool) (hd : d < 2 ^ w) :
    fieldAt (16 * d + packBits b2 b1 b0) 4 w = d :=
  fieldAt_two_pow_mul_add (k := 4) (Nat.lt_trans (Laws.packBits_lt b2 b1 b0) (by decide)) hd

/-- What lies above the two control bits of an RFW vector. -/
theorem div_four_rfwVector (d : Nat) (b1 b0 : Bool) : (4 * d + packBits false b1 b0) / 2 ^ 2 = d := by
  have h := Laws.packBits_low_lt b1 b0
  omega

/-- The address field of an RFW vector. -/
theorem fieldAt_rfwVector_index {a k v : Nat} (b1 b0 : Bool) (hk : k < 2 ^ a) :
    fieldAt (4 * (v * 2 ^ a + k) + packBits false b1 b0) 2 a = k := by
  rw [fieldAt_add _ 2 0, div_four_rfwVector, Nat.mul_comm, fieldAt_zero_mul_add hk]

/-- The data field of an RFW vector. -/
theorem fieldAt_rfwVector_value {a w k v : Nat} (b1 b0 : Bool) (hk : k < 2 ^ a) (hv : v < 2 ^ w) :
    fieldAt (4 * (v * 2 ^ a + k) + packBits false b1 b0) (a + 2) w = v := by
  rw [Nat.add_comm a 2, fieldAt_add, div_four_rfwVector, Nat.mul_comm, fieldAt_two_pow_mul_add hk hv]

/-! ### What `decode` answers -/

theorem decode_of_lt {f : Format} {v : Nat} (x : Inst) (h : v < 2 ^ f.width) :
    decode f x v = .ok (decodeFields f x v) := if_pos h

theorem decode_of_le {f : Format} {v : Nat} (x : Inst) (h : 2 ^ f.width ≤ v) :
    decode f x v = .error (.vectorTooWide f.width) := if_neg (Nat.not_lt.2 h)

/-! ### The formats that carry an operation with a data or address field -/

theorem regFits_iff {f : Format} {v : Word} : f.regFits v = true ↔ ∃ w, f = .reg w ∧ v < 2 ^ w := by
  cases f <;> simp [Format.regFits, fitsIn]

theorem shrFits_iff {f : Format} {v : Word} : f.shrFits v = true ↔ ∃ w d p, f = .shr w d p ∧ v < 2 ^ w := by
  cases f <;> simp [Format.shrFits, fitsIn]

theorem rfwFits_iff {f : Format} {k : Nat} {v : Word} :
    f.rfwFits k v = true ↔ ∃ a w, f = .rfw a w ∧ k < 2 ^ a ∧ v < 2 ^ w := by
  cases f <;> simp [Format.rfwFits, fitsIn]

theorem rfrFits_iff {f : Format} {k : Nat} : f.rfrFits k = true ↔ ∃ a, f = .rfr a ∧ k < 2 ^ a := by
  cases f <;> simp [Format.rfrFits, fitsIn]

theorem shiftFits_iff {f : Format} {d : Dir} {p : Fill} {b : Option Bool} :
    f.shiftFits d p b = true ↔ ∃ w, f = .shr w d p ∧ (p = .serial → b.isSome = true) := by
  cases f <;> simp [Format.shiftFits, and_assoc, imp_iff_not_or]

theorem anyShiftFits_iff {f : Format} {b : Option Bool} :
    f.anyShiftFits b = true ↔ ∃ w d p, f = .shr w d p ∧ (p = .serial → b.isSome = true) := by
  cases f <;> simp [Format.anyShiftFits, imp_iff_not_or]

/-! ### The eight forms of a shift -/

section
variable (x : Inst) (d : Dir) (p : Fill) (b : Option Bool) (c : Bool)

@[simp] theorem shiftForm_inst : (shiftForm x d p b c).inst = x := by
  cases d <;> cases p <;> rfl

@[simp] theorem shiftForm_mapMnemonic : (shiftForm x d p b c).mapMnemonic = "SHR.SHIFT" := by
  cases d <;> cases p <;> rfl

@[simp] theorem wellFormed_shiftForm (f : Format) : wellFormed f (shiftForm x d p b c) = f.shiftFits d p b := by
  cases d <;> cases p <;> rfl

@[simp] theorem packFields_shiftForm (f : Format) : packFields f (shiftForm x d p b c) = packShift b c := by
  cases d <;> cases p <;> rfl

@[simp] theorem onPorts_shiftForm (f : Format) :
    (shiftForm x d p b c).onPorts f = shiftForm x d p (some (b.getD false)) c := by
  cases d <;> cases p <;> rfl

/-- A form looks its ShiftRegister up by its own direction and fill policy (30_encoding.md R95). -/
theorem exec_shiftForm (s : State) : exec (shiftForm x d p b c) s = shiftFormStep x d p b c s := by
  cases d <;> cases p <;> rfl

/-- `None` is written as the level 0 (30_encoding.md R88). -/
@[simp] theorem packShift_some_getD : packShift (some (b.getD false)) c = packShift b c := rfl

/-- The vector of a shift is read as the form the format selects, the serial bit as a level. -/
theorem decodeFields_packShift (w : Nat) :
    decodeFields (.shr w d p) x (packShift b c) = shiftForm x d p (some (b.getD false)) c := by
  simp [decodeFields]

end

/-- The operations of the row `SHR.SHIFT` are the whole shift and its forms (30_encoding.md R95). -/
theorem shift_cases {i : Instr} (h : i.mapMnemonic = "SHR.SHIFT") :
    (∃ x b c, i = .shrShift x b c) ∨ ∃ x d p b c, i = shiftForm x d p b c := by
  cases i with
  | shrShift x b c => exact .inl ⟨x, b, c, rfl⟩
  | shrShiftRZero x b c => exact .inr ⟨x, .right, .zero, b, c, rfl⟩
  | shrShiftRSerial x b c => exact .inr ⟨x, .right, .serial, b, c, rfl⟩
  | shrShiftRRing x b c => exact .inr ⟨x, .right, .ring, b, c, rfl⟩
  | shrShiftRJohnson x b c => exact .inr ⟨x, .right, .johnson, b, c, rfl⟩
  | shrShiftLZero x b c => exact .inr ⟨x, .left, .zero, b, c, rfl⟩
  | shrShiftLSerial x b c => exact .inr ⟨x, .left, .serial, b, c, rfl⟩
  | shrShiftLRing x b c => exact .inr ⟨x, .left, .ring, b, c, rfl⟩
  | shrShiftLJohnson x b c => exact .inr ⟨x, .left, .johnson, b, c, rfl⟩
  | _ => simp [Instr.mapMnemonic] at h

/-- An operation of another row arrives as it was. -/
theorem onPorts_of_ne_shift {i : Instr} (f : Format) (h : i.mapMnemonic ≠ "SHR.SHIFT") : i.onPorts f = i := by
  cases i with
  | shrShift | shrShiftRZero | shrShiftRSerial | shrShiftRRing | shrShiftRJohnson | shrShiftLZero | shrShiftLSerial
  | shrShiftLRing | shrShiftLJohnson => exact absurd rfl h
  | _ => rfl

/-! ### From an operation to its vector and back -/

/-- A vector has no bit above the width of its format (30_encoding.md R80, R88). -/
theorem encodeFits (i : Instr) : Laws.EncodeFits.Statement i := by
  cases i with
  | clNew | clRead | srlNew | srlRead | dlNew | dlRead | dffNew | dffRead | jkffNew | jkffRead | tffNew | tffRead
  | regNew | regRead | shrNew | shrRead | shrSout | cntNew | cntRead | rfNew => intro f v h; cases h
  | clSample x c => exact Laws.EncodeFits.clSample x c
  | srlHold x => exact Laws.EncodeFits.srlHold x
  | srlReset x => exact Laws.EncodeFits.srlReset x
  | srlSet x => exact Laws.EncodeFits.srlSet x
  | srlInvalid x => exact Laws.EncodeFits.srlInvalid x
  | dlHold x d => exact Laws.EncodeFits.dlHold x d
  | dlPass x d => exact Laws.EncodeFits.dlPass x d
  | dffStep x d c => exact Laws.EncodeFits.dffStep x d c
  | jkffHold x c => exact Laws.EncodeFits.jkffHold x c
  | jkffReset x c => exact Laws.EncodeFits.jkffReset x c
  | jkffSet x c => exact Laws.EncodeFits.jkffSet x c
  | jkffToggle x c => exact Laws.EncodeFits.jkffToggle x c
  | tffHold x c => exact Laws.EncodeFits.tffHold x c
  | tffToggle x c => exact Laws.EncodeFits.tffToggle x c
  | regHold x v c => exact Laws.EncodeFits.regHold x v c
  | regLoad x v c => exact Laws.EncodeFits.regLoad x v c
  | shrShift x b c => exact Laws.EncodeFits.shrShift x b c
  | shrShiftRZero x b c => exact Laws.EncodeFits.shrShiftRZero x b c
  | shrShiftRSerial x b c => exact Laws.EncodeFits.shrShiftRSerial x b c
  | shrShiftRRing x b c => exact Laws.EncodeFits.shrShiftRRing x b c
  | shrShiftRJohnson x b c => exact Laws.EncodeFits.shrShiftRJohnson x b c
  | shrShiftLZero x b c => exact Laws.EncodeFits.shrShiftLZero x b c
  | shrShiftLSerial x b c => exact Laws.EncodeFits.shrShiftLSerial x b c
  | shrShiftLRing x b c => exact Laws.EncodeFits.shrShiftLRing x b c
  | shrShiftLJohnson x b c => exact Laws.EncodeFits.shrShiftLJohnson x b c
  | shrLhold x v c => exact Laws.EncodeFits.shrLhold x v c
  | shrLoad x v c => exact Laws.EncodeFits.shrLoad x v c
  | cntTick x c => exact Laws.EncodeFits.cntTick x c
  | cntTickup x c => exact Laws.EncodeFits.cntTickup x c
  | cntTickdn x c => exact Laws.EncodeFits.cntTickdn x c
  | rfWhold x k v c => exact Laws.EncodeFits.rfWhold x k v c
  | rfWrite x k v c => exact Laws.EncodeFits.rfWrite x k v c
  | rfRead x k => exact Laws.EncodeFits.rfRead x k

/-- The fields of an operation's vector are read back as the operation on its ports: per format, the control bits
select the row and each data field has its operand (30_encoding.md R82 to R89, R95). -/
theorem decodeFields_packFields {f : Format} {i : Instr} (h : wellFormed f i = true) :
    decodeFields f i.inst (packFields f i) = i.onPorts f := by
  cases i with
  | clNew | clRead | srlNew | srlRead | dlNew | dlRead | dffNew | dffRead | jkffNew | jkffRead | tffNew | tffRead
  | regNew | regRead | shrNew | shrRead | shrSout | cntNew | cntRead | rfNew => cases h
  | clSample | srlHold | srlReset | srlSet | srlInvalid | dlHold | dlPass | dffStep | jkffHold | jkffReset | jkffSet
  | jkffToggle | tffHold | tffToggle | cntTick | cntTickup | cntTickdn =>
    obtain rfl := of_decide_eq_true h
    simp [decodeFields, packFields, Instr.onPorts, Instr.inst]
  | regHold x v c | regLoad x v c =>
    obtain ⟨w, rfl, hv⟩ := regFits_iff.1 h
    simp [decodeFields, packFields, Instr.onPorts, Instr.inst, fieldAt_regVector _ _ hv]
  | shrShift x b c =>
    obtain ⟨w, d, p, rfl, -⟩ := anyShiftFits_iff.1 h
    exact decodeFields_packShift x d p b c w
  | shrShiftRZero x b c | shrShiftRSerial x b c | shrShiftRRing x b c | shrShiftRJohnson x b c | shrShiftLZero x b c
  | shrShiftLSerial x b c | shrShiftLRing x b c | shrShiftLJohnson x b c =>
    obtain ⟨w, rfl, -⟩ := shiftFits_iff.1 h
    exact decodeFields_packShift x _ _ b c w
  | shrLhold x v c | shrLoad x v c =>
    obtain ⟨w, d, p, rfl, hv⟩ := shrFits_iff.1 h
    simp [decodeFields, packFields, Instr.onPorts, Instr.inst, fieldAt_shrVector _ _ _ hv]
  | rfWhold x k v c | rfWrite x k v c =>
    obtain ⟨a, w, rfl, hk, hv⟩ := rfwFits_iff.1 h
    simp [decodeFields, packFields, Instr.onPorts, Instr.inst, Format.addrWidth, fieldAt_rfwVector_index _ _ hk,
      fieldAt_rfwVector_value _ _ hk hv]
  | rfRead x k =>
    obtain ⟨a, rfl, hk⟩ := rfrFits_iff.1 h
    simp [decodeFields, packFields, Instr.onPorts, Instr.inst, fieldAt, Nat.mod_eq_of_lt hk]

/-- A form has a vector in the format that selects it, once its serial bit is a level. -/
theorem encode_shiftForm (x : Inst) (w : Nat) (d : Dir) (p : Fill) (b : Option Bool) (c : Bool) :
    encode (.shr w d p) (shiftForm x d p (some (b.getD false)) c) = some (packShift b c) := by
  simp [Laws.encode_eq_some, shiftFits_iff]

/-- On its ports an operation has the vector it had: only a `None` has become the level it is written as. -/
theorem encode_onPorts {f : Format} {i : Instr} {v : Nat} (h : encode f i = some v) :
    encode f (i.onPorts f) = some v := by
  by_cases hm : i.mapMnemonic = "SHR.SHIFT"
  · obtain ⟨hw, rfl⟩ := Laws.encode_eq_some.1 h
    rcases shift_cases hm with ⟨x, b, c, rfl⟩ | ⟨x, d, p, b, c, rfl⟩
    · obtain ⟨w, d, p, rfl, -⟩ := anyShiftFits_iff.1 hw
      exact encode_shiftForm x w d p b c
    · obtain ⟨w, rfl, -⟩ := shiftFits_iff.1 ((wellFormed_shiftForm x d p b c f).symm.trans hw)
      rw [onPorts_shiftForm, packFields_shiftForm]
      exact encode_shiftForm x w d p b c
  · rw [onPorts_of_ne_shift f hm, h]

/-! ### From a vector to its operation and back -/

theorem decodeFields_inst (f : Format) (x : Inst) (v : Nat) : (decodeFields f x v).inst = x := by
  cases f with
  | cl | dff | rfr => rfl
  | srl | jkff | dl | tff | reg | cnt | rfw => unfold decodeFields; dsimp only; split <;> rfl
  | shr w d p =>
    unfold decodeFields; dsimp only
    split
    · exact shiftForm_inst x d p _ _
    · rfl
    · rfl

/-- The operation read from a vector can be presented in the format it was read in. -/
theorem wellFormed_decodeFields (f : Format) (x : Inst) (v : Nat) : wellFormed f (decodeFields f x v) = true := by
  cases f with
  | cl | dff => rfl
  | srl | jkff | dl | tff | cnt => unfold decodeFields; dsimp only; split <;> rfl
  | reg w => unfold decodeFields; dsimp only; split <;> exact regFits_iff.2 ⟨w, rfl, fieldAt_lt v 2 w⟩
  | shr w d p =>
    unfold decodeFields; dsimp only
    split
    · exact (wellFormed_shiftForm x d p _ _ _).trans (shiftFits_iff.2 ⟨w, rfl, fun _ => rfl⟩)
    · exact shrFits_iff.2 ⟨w, d, p, rfl, fieldAt_lt v 4 w⟩
    · exact shrFits_iff.2 ⟨w, d, p, rfl, fieldAt_lt v 4 w⟩
  | rfw a w =>
    unfold decodeFields; dsimp only
    split <;> exact rfwFits_iff.2 ⟨a, w, rfl, fieldAt_lt v 2 a, fieldAt_lt v (a + 2) w⟩
  | rfr a => exact rfrFits_iff.2 ⟨a, rfl, fieldAt_lt v 0 a⟩

/-- The rows of the operation map look at the three lowest bits only. -/
theorem opMap_mask_lt : ∀ r ∈ opMap, r.mask < 2 ^ 3 := by decide

theorem selects_packBits {r : OpRow} (hr : r.mask < 2 ^ 3) (v : Nat) :
    r.selects v = r.selects (packBits (bitAt v 2) (bitAt v 1) (bitAt v 0)) := by
  have hmask : v &&& r.mask = v % 2 ^ 3 &&& r.mask := by
    rw [← Nat.and_two_pow_sub_one_eq_mod, Nat.and_assoc, Nat.and_comm (2 ^ 3 - 1),
      Nat.and_two_pow_sub_one_of_lt_two_pow hr]
  rw [packBits_bitAt_three, OpRow.selects, OpRow.selects, hmask]
  rfl

/-- The operation map has one row for every pattern of a format's control bits, the row of the operation that the
decoder reads there (30_encoding.md R95, R96). -/
theorem opMap_row_decodeFields (f : Format) (x : Inst) (v : Nat) :
    (opMap.filter (fun r => decide (r.format = f.name) && r.selects v)).map (·.mnemonic) =
      [(decodeFields f x v).mapMnemonic] := by
  have hlow : opMap.filter (fun r => decide (r.format = f.name) && r.selects v) =
      opMap.filter (fun r => decide (r.format = f.name) &&
        r.selects (packBits (bitAt v 2) (bitAt v 1) (bitAt v 0))) :=
    List.filter_congr fun r hr => by rw [selects_packBits (opMap_mask_lt r hr)]
  rw [hlow]
  cases f with
  | shr w d p =>
    unfold decodeFields
    cases bitAt v 1 with
    | false => rw [shiftForm_mapMnemonic]; cases bitAt v 2 <;> cases bitAt v 0 <;> rfl
    | true => cases bitAt v 2 <;> cases bitAt v 0 <;> rfl
  | _ => unfold decodeFields; cases bitAt v 2 <;> cases bitAt v 1 <;> cases bitAt v 0 <;> rfl

/-- In the formats whose vectors have no field that is ignored, every bit of a vector is a bit of the operation read
from it, and is written back to its place. -/
theorem packFields_decodeFields {f : Format} {v : Nat} (x : Inst) (hv : v < 2 ^ f.width) (hshr : f.name ≠ "SHR")
    (hcnt : f.name ≠ "CNT") : packFields f (decodeFields f x v) = v := by
  cases f with
  | shr => exact absurd rfl hshr
  | cnt => exact absurd rfl hcnt
  | cl => exact (packBits_bitAt_one v).trans (Nat.mod_eq_of_lt hv)
  | srl | dl | dff | tff =>
    calc packFields _ (decodeFields _ x v) = packBits false (bitAt v 1) (bitAt v 0) := by
          unfold decodeFields
          cases bitAt v 1 <;> cases bitAt v 0 <;> rfl
      _ = v % 4 := packBits_bitAt_two v
      _ = v := Nat.mod_eq_of_lt hv
  | jkff =>
    calc packFields .jkff (decodeFields .jkff x v) = packBits (bitAt v 2) (bitAt v 1) (bitAt v 0) := by
          unfold decodeFields
          cases bitAt v 2 <;> cases bitAt v 1 <;> rfl
      _ = v % 8 := packBits_bitAt_three v
      _ = v := Nat.mod_eq_of_lt hv
  | reg w =>
    have hdata : fieldAt v 2 w = v / 4 := Nat.mod_eq_of_lt <|
      Nat.div_lt_of_lt_mul (by rwa [Nat.mul_comm, ← Nat.pow_add])
    calc packFields (.reg w) (decodeFields (.reg w) x v)
          = 4 * fieldAt v 2 w + packBits false (bitAt v 1) (bitAt v 0) := by
          unfold decodeFields
          cases bitAt v 1 <;> rfl
      _ = 4 * (v / 4) + v % 4 := by rw [hdata, packBits_bitAt_two]
      _ = v := Nat.div_add_mod v 4
  | rfw a w =>
    have hdata : fieldAt v (a + 2) w = v / 4 / 2 ^ a := by
      rw [Nat.add_comm a 2, fieldAt, Nat.pow_add, ← Nat.div_div_eq_div_mul]
      refine Nat.mod_eq_of_lt (Nat.div_lt_of_lt_mul (Nat.div_lt_of_lt_mul ?_))
      rw [← Nat.pow_add, ← Nat.pow_add, Nat.add_comm 2]
      exact hv
    calc packFields (.rfw a w) (decodeFields (.rfw a w) x v)
          = 4 * (fieldAt v (a + 2) w * 2 ^ a + fieldAt v 2 a) + packBits false (bitAt v 1) (bitAt v 0) := by
          unfold decodeFields
          cases bitAt v 1 <;> rfl
      _ = 4 * (v / 4 / 2 ^ a * 2 ^ a + v / 4 % 2 ^ a) + v % 4 := by rw [hdata, packBits_bitAt_two]; rfl
      _ = 4 * (v / 4) + v % 4 := by rw [Nat.div_add_mod']
      _ = v := Nat.div_add_mod v 4
  | rfr a =>
    calc packFields (.rfr a) (decodeFields (.rfr a) x v) = v / 1 % 2 ^ a := rfl
      _ = v / 1 := Nat.mod_eq_of_lt ((Nat.div_one v).symm ▸ hv)
      _ = v := Nat.div_one v

/-! ### A vector that cannot be read, an operand that cannot be presented -/

theorem perform_vector_free {s : State} {x : Inst} (p : Port) (v : Nat) (h : s.find x = none) :
    perform (.vector x p v) s = .fault (.noInstance x) := by
  simp [perform, resolve, h]

theorem perform_vector_noPort {s : State} {x : Inst} {p : Port} {e : Element} (v : Nat) (he : s.find x = some e)
    (hp : e.format p = none) : perform (.vector x p v) s = .refused (.noPort x) := by
  simp [perform, resolve, he, hp]

theorem perform_vector_tooWide {s : State} {x : Inst} {p : Port} {v : Nat} {e : Element} {f : Format}
    (he : s.find x = some e) (hp : e.format p = some f) (hv : 2 ^ f.width ≤ v) :
    perform (.vector x p v) s = .refused (.vectorTooWide x) := by
  simp [perform, resolve, he, hp, decode_of_le x hv]

theorem presented_tooWide {x : Inst} {w : Nat} {v : Word} {r : Result} (h : 2 ^ w ≤ v) :
    presented x w v r = .refused (.operandTooWide x) := by
  simp [presented, fitsIn, h]

/-! ### The tick of a Counter -/

/-- The stage with cell `c` that toggles makes the next stage toggle: the carry of an up tick, the borrow of a down
tick (45_counter.md R221). -/
def carries (d : CountDir) (c : Bool) : Bool :=
  match d with
  | .up => c
  | .down => !c

/-- A stage whose line holds its own cell fires the next one exactly when it toggles and carries. -/
theorem firesNext_sample {l : ClockLine} {c : Bool} (d : CountDir) (fire : Bool) (h : l.current = c) :
    firesNext d (sample l (fire ^^ c)).1 = (fire && carries d c) := by
  subst h
  cases d <;> cases fire <;> cases hl : l.current <;> simp [firesNext, sample, edgeBetween, carries, hl]

theorem toNat_add_two_mul_lt {n x : Nat} (c : Bool) (hx : x < 2 ^ n) : c.toNat + 2 * x < 2 ^ (n + 1) := by
  have hc : c.toNat < 2 := c.toNat_lt
  rw [Nat.pow_succ]
  omega

theorem val_lt (cells : List Bool) : val cells < 2 ^ cells.length := by
  induction cells with
  | nil => decide
  | cons c r ih => exact toNat_add_two_mul_lt c ih

/-- One more, with a wrap to 0 (45_counter.md R213). -/
theorem nextCount_up {m n : Nat} (h : n < m) : nextCount m .up n = if n < m - 1 then n + 1 else 0 := by
  change (n + 1) % m = _
  split
  · exact Nat.mod_eq_of_lt (by omega)
  · obtain rfl : m = n + 1 := by omega
    exact Nat.mod_self (n + 1)

/-- One less, with a wrap to the highest count (45_counter.md R214). -/
theorem nextCount_down {m n : Nat} (h : n < m) : nextCount m .down n = if 0 < n then n - 1 else m - 1 := by
  change (n + (m - 1)) % m = _
  split
  · have hsplit : n + (m - 1) = n - 1 + m := by omega
    rw [hsplit, Nat.add_mod_right, Nat.mod_eq_of_lt (by omega)]
  · obtain rfl : n = 0 := by omega
    rw [Nat.zero_add, Nat.mod_eq_of_lt (by omega)]

/-- The next count of a chain by its first cell: the cell toggles, and the later cells count when it carries. -/
theorem nextCount_cons {n x : Nat} (d : CountDir) (c : Bool) (hx : x < 2 ^ n) :
    nextCount (2 ^ (n + 1)) d (c.toNat + 2 * x) =
      (!c).toNat + 2 * (if carries d c then nextCount (2 ^ n) d x else x) := by
  have hwhole := toNat_add_two_mul_lt c hx
  rw [Nat.pow_succ] at hwhole ⊢
  cases d with
  | up =>
    rw [nextCount_up hwhole, nextCount_up hx]
    cases c <;> grind [carries]
  | down =>
    rw [nextCount_down hwhole, nextCount_down hx]
    cases c <;> grind [carries]

/-- The settle process of a settled chain computes the next count when stage 0 toggles, and changes nothing when it
does not (45_counter.md R223). -/
theorem val_settle (d : CountDir) (fire : Bool) (cells : List Bool) (lines : List ClockLine)
    (hlen : cells.length = lines.length + 1) (hline : lines.map ClockLine.current = cells.dropLast) :
    val (settle d fire cells lines).1 =
      if fire then nextCount (2 ^ cells.length) d (val cells) else val cells := by
  induction lines generalizing fire cells with
  | nil =>
    obtain ⟨c, rfl⟩ := List.length_eq_one_iff.1 hlen
    cases d <;> cases fire <;> cases c <;> rfl
  | cons l ls ih =>
    obtain ⟨c, cs, rfl⟩ := List.exists_cons_of_length_eq_add_one hlen
    have hcs : cs.length = ls.length + 1 := by simpa using hlen
    rw [List.dropLast_cons_of_ne_nil (List.ne_nil_of_length_eq_add_one hcs), List.map_cons, List.cons.injEq] at hline
    obtain ⟨hl, hls⟩ := hline
    rw [settle, val, firesNext_sample d fire hl, ih _ cs hcs hls, val, List.length_cons,
      nextCount_cons d c (val_lt cs)]
    cases fire <;> simp

/-- A Counter keeps a chain only where `MOD` is absent (10_state.md R29). -/
theorem effectiveModulus_of_isChained {p : CounterParams} (h : isChained p = true) :
    effectiveModulus p = 2 ^ p.width := by
  simp only [isChained, Bool.and_eq_true, Option.isNone_iff_eq_none] at h
  rw [effectiveModulus, h.2, Option.getD_none]

/-- The chain of a Counter as the spec allows it: a line for the external clock and one for each later stage, which
holds the cell before it. -/
theorem lines_of_counterOk {p : CounterParams} {cells : List Bool} {lines : List ClockLine}
    (h : counterOk p (.chained cells lines) = true) : ∃ l ls, lines = l :: ls ∧ cells.length = ls.length + 1 ∧
      ls.map ClockLine.current = cells.dropLast := by
  obtain ⟨hp, -, hcells, hlines, hsettled⟩ := counterOk_chained.1 h
  cases lines with
  | nil =>
    have hw : 1 ≤ p.width := of_decide_eq_true (Bool.and_eq_true_iff.1 hp).1
    rw [← hlines] at hw
    cases hw
  | cons l ls => exact ⟨l, ls, rfl, hcells.trans hlines.symm, hsettled⟩

/-- The line of the external clock is sampled in every tick (45_counter.md R212, R221). -/
theorem externalLine_tickState {p : CounterParams} {c : CounterState} (m : Nat) (d : CountDir) (clk : Bool)
    (h : counterOk p c = true) : externalLine (tickState m d clk c) = lineAfter (externalLine c) clk := by
  cases c with
  | paired n l => rfl
  | chained cells lines => obtain ⟨l, ls, rfl, -, -⟩ := lines_of_counterOk h; rfl

/-- A tick of either representation moves the count as the synchronous rule says (45_counter.md R212, R223). -/
theorem countOf_tickState {p : CounterParams} {c : CounterState} (d : CountDir) (clk : Bool)
    (h : counterOk p c = true) :
    countOf (tickState (effectiveModulus p) d clk c) =
      if rises (externalLine c) clk then nextCount (effectiveModulus p) d (countOf c) else countOf c := by
  cases c with
  | paired n l => exact onRising_rises l clk _ n
  | chained cells lines =>
    obtain ⟨-, hc, hcells, -, -⟩ := counterOk_chained.1 h
    obtain ⟨l, ls, rfl, hlen, hline⟩ := lines_of_counterOk h
    have hfire : decide ((sample l clk).1 = .rising) = rises l clk := by
      cases hl : l.current <;> cases clk <;> simp [sample, edgeBetween, rises, hl]
    rw [effectiveModulus_of_isChained hc, ← hcells]
    exact (congrArg (fun b => val (settle d b cells ls).1) hfire).trans (val_settle d _ cells ls hlen hline)

theorem countOf_lt {p : CounterParams} {c : CounterState} (h : counterOk p c = true) :
    countOf c < effectiveModulus p := by
  cases c with
  | paired n l => exact (counterOk_paired.1 h).2.2
  | chained cells lines =>
    obtain ⟨-, hc, hcells, -, -⟩ := counterOk_chained.1 h
    rw [effectiveModulus_of_isChained hc, ← hcells]
    exact val_lt cells

/-- An operation that is a tick completes: the Counter stays as the spec allows it, its line is sampled, and on a
rising edge the count is the next one (45_counter.md R212). -/
theorem completes_tickStep {i : Instr} {s : State} {x : Inst} {p : CounterParams} {c : CounterState}
    {direction : Option CountDir} {clk : Bool} (hi : exec i s = tickStep x direction clk s)
    (hx : s.find x = some (.counter p c)) (hc : counterOk p c = true) :
    Completes i s (fun t => ∃ c', CallDone s x (.counter p c') .ok t ∧ counterOk p c' = true ∧
      externalLine c' = lineAfter (externalLine c) clk ∧
      countOf c' = if rises (externalLine c) clk then nextCount (effectiveModulus p) (tickDir p direction) (countOf c)
        else countOf c) :=
  (completes_commit (hi.trans (withElem_some hx (asCounter_counter p c)))).imp fun _ hd =>
    ⟨_, hd, counterOk_tickState _ clk hc, externalLine_tickState _ _ clk hc, countOf_tickState _ clk hc⟩

/-- The increment of a tick in the default direction (45_counter.md R212). -/
theorem countDelta_eq_ite (m : Nat) (d : CountDir) : countDelta m d = if d = .up then 1 else m - 1 := by
  cases d <;> rfl

/-! ### The port `edge` -/

/-- `CL.SAMPLE` (40_clockline.md R121). -/
theorem completes_clSample {s : State} {x : Inst} {l : ClockLine} (v : Bool) (h : s.find x = some (.clockLine l)) :
    Completes (.clSample x v) s
      (CallDone s x (.clockLine (sampled l v)) (.edge (edgeBetween l.current v))) :=
  completes_commit (withElem_some h (asClockLine_clockLine l))

/-- An operation answers one result, so what it completes with holds of the state it answers. -/
theorem Completes.of_next {i : Instr} {s t : State} {P : State → Prop} (h : Completes i s P)
    (ht : exec i s = .next t) : P t := by
  obtain ⟨u, hu, hP⟩ := h
  cases hu.symm.trans ht
  exact hP

/-- After a sample the two fields show the edge between the two samples (30_encoding.md R90, R91). -/
theorem edgePort_sampled {t : State} {x : Inst} {l : ClockLine} {v : Bool}
    (h : t.find x = some (.clockLine (sampled l v))) : edgePort t x = some (edgeCode (edgeBetween l.current v)) :=
  edgePort_clockLine h

/-! ### The statements of the family -/

/-- Settles O1: the vector is in range, its fields are read back, and only a shift has a form or a level to take on. -/
theorem encodedOperationsDecodeBack : Obligations.EncodedOperationsDecodeBack := by
  intro f i v h
  refine ⟨?_, encode_onPorts h, onPorts_of_ne_shift f⟩
  obtain ⟨hw, rfl⟩ := Laws.encode_eq_some.1 h
  rw [decode_of_lt i.inst (encodeFits i f _ h), decodeFields_packFields hw]

/-- Settles O2: the decoder is total below `2 ^ width`, and the rows of a format partition its control bits. -/
theorem everyVectorIsOneOperation : Obligations.EveryVectorIsOneOperation := fun f x v =>
  ⟨fun hv => ⟨decodeFields f x v, decode_of_lt x hv, decodeFields_inst f x v, wellFormed_decodeFields f x v,
    opMap_row_decodeFields f x v⟩, decode_of_le x⟩

/-- Settles O3: the operation read from a vector has a vector, and its fields are those it was read from. -/
theorem vectorsEncodeBack : Obligations.VectorsEncodeBack := fun f x v hv hshr hcnt =>
  ⟨decodeFields f x v, decode_of_lt x hv,
    Laws.encode_eq_some.2 ⟨wellFormed_decodeFields f x v, packFields_decodeFields x hv hshr hcnt⟩⟩

/-- Settles O43: both representations tick by `nextCount`, whose two directions wrap as `nextCount_up` and
`nextCount_down` say. -/
theorem counterTicksModuloM : Obligations.CounterTicksModuloM := by
  intro s x p c clk hx hc
  refine ⟨completes_tickStep (direction := some .up) rfl hx hc,
    completes_tickStep (direction := some .down) rfl hx hc, ?default, nextCount_up (countOf_lt hc), nextCount_down (countOf_lt hc), ?vectors⟩
  case default =>
    rw [← countDelta_eq_ite]
    exact completes_tickStep (direction := none) rfl hx hc
  case vectors => cases clk <;> exact ⟨rfl, rfl, rfl, rfl⟩

/-- Settles O4: each word is below `2 ^ width` and its fields are computed. -/
theorem workedVectorsDecode : Obligations.WorkedVectorsDecode :=
  ⟨rfl, rfl, rfl, rfl, rfl, rfl, rfl, rfl, rfl, rfl, rfl, rfl⟩

/-- Settles O7: the step performs the vector, which is looked up, given a port and measured in this order. -/
theorem unreadableVectorsStopTheStep : Obligations.UnreadableVectorsStopTheStep := by
  intro s x p v rest hcalls
  rw [step_of_calls_cons hcalls]
  exact ⟨fun h => perform_vector_free p v h, fun _ he hp => perform_vector_noPort v he hp,
    fun _ _ he hp hv => perform_vector_tooWide he hp hv⟩

/-- Settles O19: the reply and the port both report the edge between the last sample and the new one. -/
theorem edgePortShowsTheLatestSample : Obligations.EdgePortShowsTheLatestSample := by
  intro s t x l v hx ht
  have hd := (completes_clSample v hx).of_next ht
  have hedge {e : EdgeKind} (he : edgeBetween l.current v = e) :
      t.reply = .edge e ∧ edgePort t x = some (edgeCode e) := he ▸ ⟨hd.reply, edgePort_sampled hd.elem⟩
  refine ⟨fun hsame => hedge ?_, fun hlow hhigh => hedge ?_, fun hhigh hlow => hedge ?_,
    curPort_clockLine hd.elem, prevPort_clockLine hd.elem⟩
  · rw [hsame]; cases v <;> rfl
  · rw [hlow, hhigh]; rfl
  · rw [hhigh, hlow]; rfl

/-- Settles O60: a load and a write look the width up and refuse the value before anything else, and a form compares
its direction and fill policy with those it finds. -/
theorem operandsThatDoNotFitAreRefused : Obligations.OperandsThatDoNotFitAreRefused := by
  intro s x value clk
  refine ⟨fun w b hx hv => ?register, fun p b hx hv => ?shiftRegister, fun p f index hx hv => ?registerFile,
    fun p b d q serialIn hx hform => ?form⟩
  case register =>
    have h (enable : Bool) : regStep x value enable clk s = .refused (.operandTooWide x) :=
      (withElem_some hx (asRegister_register w b)).trans (presented_tooWide hv)
    exact ⟨h true, h false⟩
  case shiftRegister =>
    have h (enable : Bool) : shrLoadStep x value enable clk s = .refused (.operandTooWide x) :=
      (withElem_some hx (asShiftRegister_shiftRegister p b)).trans (presented_tooWide hv)
    exact ⟨h true, h false⟩
  case registerFile =>
    have h (enable : Bool) : writeStep x index value enable clk s = .refused (.operandTooWide x) :=
      (withElem_some hx (asFile_registerFile p f)).trans (presented_tooWide hv)
    exact ⟨h true, h false⟩
  case form =>
    rw [exec_shiftForm]
    exact (withElem_some hx (asShiftRegister_shiftRegister p b)).trans (if_neg (not_and_or.2 hform))

end Sys2Proof.Machine
end

section
/-! PROOFS. The ClockLine family: the edge a sample reports, the reads of a ClockLine and of a serial output, and a
Counter as a counter of rising edges. The laws about the model come first, then the proofs that use them. -/

namespace Sys2Proof.Machine

/-- The three cases of 40_clockline.md R121, by the last sample and the new one. -/
theorem edgeBetween_eq_ite (last new : Bool) :
    edgeBetween last new =
      if last = false ∧ new = true then .rising else if last = true ∧ new = false then .falling else .none := by
  cases last <;> cases new <;> rfl

/-- `SHR.SOUT` (44_shift_register.md R193). -/
theorem exec_shrSout {s : State} {x : Inst} {p : ShiftParams} {b : CellBank}
    (h : s.find x = some (.shiftRegister p b)) :
    exec (.shrSout x) s = .next { s with reply := .bit (outgoing p.dir b.cells) } :=
  withElem_some h (asShiftRegister_shiftRegister p b)

/-! ### Runs of operations -/

theorem RunCompletes.imp {is : List Instr} {s : State} {P Q : State → Prop} (h : RunCompletes is s P)
    (hPQ : ∀ t, P t → Q t) : RunCompletes is s Q := by
  obtain ⟨t, ht, hP⟩ := h
  exact ⟨t, ht, hPQ t hP⟩

/-- One list of operations after another runs from the state the first one leaves. -/
theorem runCompletes_append {is js : List Instr} {s : State} {P : State → Prop} :
    RunCompletes (is ++ js) s P ↔ RunCompletes is s (fun t => RunCompletes js t P) := by
  induction is generalizing s with
  | nil => simp
  | cons i r ih => simp only [List.cons_append, runCompletes_cons, ih]

/-- A run that ends in `CNT.READ` replies the count the run leaves. -/
theorem runCompletes_append_cntRead {is : List Instr} {s : State} {x : Inst} {n : Nat}
    (h : RunCompletes is s (fun t => ∃ p c, t.find x = some (.counter p c) ∧ countOf c = n)) :
    RunCompletes (is ++ [.cntRead x]) s (fun t => t.reply = .word n) := by
  refine runCompletes_append.2 (h.imp fun t ⟨p, c, hx, hn⟩ => ?_)
  exact runCompletes_cons.2 ⟨_, exec_cntRead hx, runCompletes_nil.2 (congrArg Reply.word hn)⟩

/-! ### Up ticks -/

/-- `CNT.TICKUP` adds one modulo `M` on a rising edge and nothing without one (45_counter.md R213). -/
theorem completes_cntTickup {s : State} {x : Inst} {p : CounterParams} {c : CounterState} (clk : Bool)
    (hx : s.find x = some (.counter p c)) (hc : counterOk p c = true) :
    Completes (.cntTickup x clk) s (fun t => ∃ c', t.find x = some (.counter p c') ∧ counterOk p c' = true ∧
      externalLine c' = lineAfter (externalLine c) clk ∧
      countOf c' = (countOf c + (rises (externalLine c) clk).toNat) % effectiveModulus p) := by
  refine (completes_tickStep (direction := some .up) rfl hx hc).imp fun t ⟨c', hd, hc', hline, hcount⟩ =>
    ⟨c', hd.elem, hc', hline, hcount.trans ?_⟩
  cases rises (externalLine c) clk with
  | true => rfl
  | false => exact (Nat.mod_eq_of_lt (countOf_lt hc)).symm

/-- Up ticks add the rising edges of their samples to the count, modulo `M`: each tick adds the edge between its
sample and the one the line holds, and leaves the line at its sample. -/
theorem runCompletes_cntTickups {s : State} {x : Inst} {p : CounterParams} {c : CounterState} (samples : List Bool)
    (hx : s.find x = some (.counter p c)) (hc : counterOk p c = true) :
    RunCompletes (samples.map (fun v => .cntTickup x v)) s (fun t => ∃ c', t.find x = some (.counter p c') ∧
      countOf c' = (countOf c + risingEdges (externalLine c).current samples) % effectiveModulus p) := by
  induction samples generalizing s c with
  | nil => exact runCompletes_nil.2 ⟨c, hx, (Nat.mod_eq_of_lt (countOf_lt hc)).symm⟩
  | cons v r ih =>
    refine runCompletes_cons.2 ((completes_cntTickup v hx hc).imp fun t ⟨c₁, hx₁, hc₁, hline, hcount⟩ => ?_)
    refine (ih hx₁ hc₁).imp fun u ⟨c', hx', hcount'⟩ => ⟨c', hx', ?_⟩
    calc countOf c'
        = (countOf c₁ + risingEdges (externalLine c₁).current r) % effectiveModulus p := hcount'
      _ = (countOf c + (rises (externalLine c) v).toNat + risingEdges v r) % effectiveModulus p := by
          rw [hcount, Nat.mod_add_mod, hline, lineAfter]
      _ = (countOf c + risingEdges (externalLine c).current (v :: r)) % effectiveModulus p := by
          rw [Nat.add_assoc, rises, risingEdges]

/-! ### The statements of the family -/

/-- Settles O20: the up ticks leave the count the read replies. -/
theorem upTicksCountRisingEdges : Obligations.UpTicksCountRisingEdges := by
  intro s x p c samples hx hc
  exact runCompletes_append_cntRead ((runCompletes_cntTickups samples hx hc).imp fun _ h => ⟨p, h⟩)

/-- Settles O15: both are inspections of what the look-up finds, and the exit end of a bank is a cell of it. -/
theorem lineAndSerialOutputReads : Obligations.LineAndSerialOutputReads := by
  intro s x
  refine ⟨fun l hx => withElem_some hx (asClockLine_clockLine l), fun p b hx hw _ => ?_⟩
  rw [exec_shrSout hx, outgoing_eq_getD p.dir hw]

/-- Settles O18: the call moves the fields on and replies the edge between the two samples. -/
theorem sampleReportsTheEdge : Obligations.SampleReportsTheEdge := by
  intro s x l v hx
  refine ⟨?sample, ?vector⟩
  case sample =>
    rw [← edgeBetween_eq_ite]
    exact completes_clSample v hx
  case vector => cases v <;> rfl

end Sys2Proof.Machine
end

section
/-! PROOFS. The latch family: the three legal input pairs of the SR latch and the forbidden one, and the two levels of
`enable` of the D latch. The laws about the model come first, then the proofs that use them. -/

namespace Sys2Proof.Machine

/-! ### A call that raises -/

/-- An operation that ends in `raise` completes. -/
theorem completes_raise {i : Instr} {s : State} {x : Inst} {k : ErrorKind} (h : exec i s = raise x k s) :
    Completes i s (CallRaised s x k) := by
  obtain ⟨t, ht, hr⟩ := raise_spec x k s
  exact ⟨t, h.trans ht, hr⟩

/-- Every name is bound after a call that raised as it was before (60_exceptions.md R266). -/
theorem CallRaised.find {s t : State} {x : Inst} {k : ErrorKind} (h : CallRaised s x k t) (y : Inst) :
    t.find y = s.find y :=
  congrArg (Table.find · y) h.elems

/-! ### The steps of the latches -/

section
variable {s : State} {x : Inst} {q : Bool}

/-- A legal input pair leaves the latch at its next value (41_latch.md R131). -/
theorem srStep_eq_commit {set reset q' : Bool} (h : s.find x = some (.srLatch q))
    (hnext : srNext set reset q = .ok q') : srStep x set reset s = commit x (.srLatch q') .ok s := by
  rw [srStep, withElem_some h (asSrLatch_srLatch q), hnext]

/-- An input pair without a next value is an error of the call (41_latch.md R131). -/
theorem srStep_eq_raise {set reset : Bool} {k : ErrorKind} (h : s.find x = some (.srLatch q))
    (hnext : srNext set reset q = .error k) : srStep x set reset s = raise x k s := by
  rw [srStep, withElem_some h (asSrLatch_srLatch q), hnext]

/-- `SRL.HOLD` (41_latch.md R132). -/
theorem completes_srlHold (h : s.find x = some (.srLatch q)) :
    Completes (.srlHold x) s (CallDone s x (.srLatch q) .ok) :=
  completes_commit (srStep_eq_commit (set := false) (reset := false) h rfl)

/-- `SRL.RESET` (41_latch.md R133). -/
theorem completes_srlReset (h : s.find x = some (.srLatch q)) :
    Completes (.srlReset x) s (CallDone s x (.srLatch false) .ok) :=
  completes_commit (srStep_eq_commit (set := false) (reset := true) h rfl)

/-- `SRL.SET` (41_latch.md R134). -/
theorem completes_srlSet (h : s.find x = some (.srLatch q)) :
    Completes (.srlSet x) s (CallDone s x (.srLatch true) .ok) :=
  completes_commit (srStep_eq_commit (set := true) (reset := false) h rfl)

/-- `SRL.INVALID` (41_latch.md R135). -/
theorem completes_srlInvalid (h : s.find x = some (.srLatch q)) :
    Completes (.srlInvalid x) s (CallRaised s x .invalidState) :=
  completes_raise (srStep_eq_raise (set := true) (reset := true) h rfl)

/-- `DL.HOLD` (41_latch.md R139). -/
theorem completes_dlHold (d : Bool) (h : s.find x = some (.dLatch q)) :
    Completes (.dlHold x d) s (CallDone s x (.dLatch q) .ok) :=
  completes_commit (withElem_some h (asDLatch_dLatch q))

/-- `DL.PASS` (41_latch.md R140). -/
theorem completes_dlPass (d : Bool) (h : s.find x = some (.dLatch q)) :
    Completes (.dlPass x d) s (CallDone s x (.dLatch d) .ok) :=
  completes_commit (withElem_some h (asDLatch_dLatch q))

end

/-! ### The statements of the family -/

/-- Settles O21: each legal input pair has a next value, and its vector is in range. -/
theorem srLatchHoldsResetsSets : Obligations.SrLatchHoldsResetsSets := fun _ _ _ hx =>
  ⟨completes_srlHold hx, completes_srlReset hx, completes_srlSet hx, rfl, rfl, rfl⟩

/-- Settles O22: the call raises, so the latch is found as it was: its ports show the error and the old `q`, and the
reset that follows is one of a latch as usual. -/
theorem forbiddenSrInputRaises : Obligations.ForbiddenSrInputRaises := by
  intro s x q hx
  refine (completes_srlInvalid hx).imp fun t hraised => ?_
  have hx' : t.find x = some (.srLatch q) := (hraised.find x).trans hx
  refine ⟨hraised, ?err, qPort_eq_shownQ hx', completes_srlReset hx'⟩
  case err => rw [errPort_srLatch hx', hraised.err, errorCode]

/-- Settles O23: `enable` selects between `d` and the old `q`, and is bit 0 of the vector. -/
theorem dLatchHoldsAndPasses : Obligations.DLatchHoldsAndPasses := by
  intro s x q d hx
  refine ⟨completes_dlHold d hx, completes_dlPass d hx, ?hold, ?pass⟩
  case hold => cases d <;> rfl
  case pass => cases d <;> rfl

end Sys2Proof.Machine
end

section
/-! PROOFS. The bit cell family: what a call leaves in a D, JK or T flip-flop, and what a pulse does to its value.
The laws about the model come first, then the proofs that use them. -/

namespace Sys2Proof.Machine

/-! ### Runs that repeat -/

@[simp] theorem times_zero (is : List Instr) : times 0 is = [] := rfl

theorem times_succ (n : Nat) (is : List Instr) : times (n + 1) is = is ++ times n is := by
  simp [times, List.replicate_succ]

/-- Where one round leads from `P a` to `P (u a)`, `n` rounds lead to `P` of the `n`-th iterate. -/
theorem runCompletes_times {α : Type} {is : List Instr} {P : α → State → Prop} {u : α → α}
    (hround : ∀ a s, P a s → RunCompletes is s (P (u a))) (n : Nat) {a : α} {s : State} (h : P a s) :
    RunCompletes (times n is) s (P (u^[n] a)) := by
  induction n generalizing a s with
  | zero => exact runCompletes_nil.2 h
  | succ n ih =>
    rw [times_succ]
    exact runCompletes_append.2 ((hround a s h).imp fun _ ht => ih ht)

theorem iterate_not (n : Nat) (v : Bool) : not^[n] v = if n % 2 = 0 then v else !v := by
  split
  · next h => rw [Bool.involutive_not.iterate_even (Nat.even_iff.2 h), id]
  · next h => rw [Bool.involutive_not.iterate_odd (Nat.odd_iff.2 (Nat.mod_two_ne_zero.1 h))]

/-! ### A call on a flip-flop -/

/-- The call in the terms of the claims (42_bitcell.md R146, R151, R159). -/
theorem flipFlop_clocked_eq (f : FlipFlop) (clk : Bool) (u : Bool → Bool) :
    f.clocked clk u = ⟨if rises f.clkLine clk then u f.value else f.value, lineAfter f.clkLine clk⟩ := by
  rw [FlipFlop.clocked, onRising_rises, sampled_eq]

/-- A low call and then a high call update the value once, as the high call says (42_bitcell.md R148). -/
theorem flipFlop_clocked_low_high_value (f : FlipFlop) (u v : Bool → Bool) :
    ((f.clocked false u).clocked true v).value = v f.value := by
  simp

section
variable {s : State} {x : Inst} {f : FlipFlop}

/-- `DFF.READ` (42_bitcell.md R147). -/
theorem exec_dffRead (h : s.find x = some (.dff f)) :
    exec (.dffRead x) s = .next { s with reply := .bit f.value } :=
  withElem_some h (asDff_dff f)

/-- `TFF.READ` (42_bitcell.md R162). -/
theorem exec_tffRead (h : s.find x = some (.tff f)) :
    exec (.tffRead x) s = .next { s with reply := .bit f.value } :=
  withElem_some h (asTff_tff f)

/-- An operation that clocks a flip-flop, of whichever kind, completes: on a rising edge the value becomes what the
update makes of it. -/
theorem completes_clocked {i : Instr} {e : FlipFlop → Element} {clk v : Bool} {u : Bool → Bool}
    (h : exec i s = commit x (e (f.clocked clk u)) .ok s) (hv : u f.value = v) :
    Completes i s (CallDone s x (e ⟨if rises f.clkLine clk then v else f.value, lineAfter f.clkLine clk⟩) .ok) := by
  rw [← hv, ← flipFlop_clocked_eq]
  exact completes_commit h

/-- An operation whose update keeps the value only samples the clock. -/
theorem completes_clocked_kept {i : Instr} {e : FlipFlop → Element} {clk : Bool} {u : Bool → Bool}
    (h : exec i s = commit x (e (f.clocked clk u)) .ok s) (hkept : u f.value = f.value) :
    Completes i s (CallDone s x (e ⟨f.value, lineAfter f.clkLine clk⟩) .ok) := by
  simpa only [ite_self] using completes_clocked h hkept

theorem jkStep_eq_commit (j k clk : Bool) (h : s.find x = some (.jkff f)) :
    jkStep x j k clk s = commit x (.jkff (f.clocked clk (jkNext j k))) .ok s :=
  withElem_some h (asJkff_jkff f)

theorem tStep_eq_commit (t clk : Bool) (h : s.find x = some (.tff f)) :
    tStep x t clk s = commit x (.tff (f.clocked clk (tNext t))) .ok s :=
  withElem_some h (asTff_tff f)

/-- `TFF.TOGGLE` (42_bitcell.md R161). -/
theorem completes_tffToggle (clk : Bool) (h : s.find x = some (.tff f)) :
    Completes (.tffToggle x clk) s (CallDone s x (.tff (f.clocked clk (tNext true))) .ok) :=
  completes_commit (tStep_eq_commit true clk h)

/-! ### Pulses of a T flip-flop -/

/-- `x` is a T flip-flop that stores `v`, whatever its line holds. -/
def TffStores (x : Inst) (v : Bool) (t : State) : Prop := ∃ g, t.find x = some (.tff g) ∧ g.value = v

/-- One pulse of `TFF.TOGGLE` inverts the value: its high call finds the line low. -/
theorem runCompletes_pulse_tffToggle (c : Bool) (h : s.find x = some (.tff f)) :
    RunCompletes (pulse (.tffToggle x c)) s (TffStores x (!f.value)) := by
  refine runCompletes_cons.2 ((completes_tffToggle false h).imp fun t hlow => ?_)
  refine runCompletes_cons.2 ((completes_tffToggle true hlow.elem).imp fun u hhigh => ?_)
  exact runCompletes_nil.2 ⟨_, hhigh.elem, flipFlop_clocked_low_high_value f _ _⟩

/-- `n` pulses of `TFF.TOGGLE` invert the value `n` times (42_bitcell.md R161). -/
theorem runCompletes_times_pulse_tffToggle (n : Nat) (c : Bool) (h : s.find x = some (.tff f)) :
    RunCompletes (times n (pulse (.tffToggle x c))) s (TffStores x (not^[n] f.value)) := by
  refine runCompletes_times (fun v t ⟨g, hg, hv⟩ => ?_) n ⟨f, h, rfl⟩
  exact hv ▸ runCompletes_pulse_tffToggle c hg

end

/-! ### The statements of the family -/

/-- Settles O27: `t` selects between the value and its inverse, and the pulses invert the value as often as there are
pulses. -/
theorem tFlipFlopTogglesOnRisingEdges : Obligations.TFlipFlopTogglesOnRisingEdges := by
  intro s x f hx
  refine ⟨fun clk => ?hold, fun clk => ?toggle, fun n c => ?pulses, fun clk => ?vectors⟩
  case hold => exact completes_clocked_kept (e := .tff) (tStep_eq_commit false clk hx) rfl
  case toggle => exact completes_clocked (e := .tff) (tStep_eq_commit true clk hx) rfl
  case pulses =>
    rw [← iterate_not]
    refine runCompletes_append.2 ((runCompletes_times_pulse_tffToggle n c hx).imp fun t ⟨g, hg, hv⟩ => ?_)
    exact runCompletes_cons.2 ⟨_, exec_tffRead hg, runCompletes_nil.2 (congrArg Reply.bit hv)⟩
  case vectors => cases clk <;> exact ⟨rfl, rfl⟩

/-- Settles O24: the update of a step is the data, which stands above the clock sample in the vector. -/
theorem dFlipFlopCapturesOnRisingEdge : Obligations.DFlipFlopCapturesOnRisingEdge := by
  intro s x f d clk hx
  refine ⟨?step, ?vector⟩
  case step =>
    rw [← flipFlop_clocked_eq f clk fun _ => d]
    exact completes_dffStep d clk hx
  case vector => cases d <;> cases clk <;> rfl

/-- Settles O25: the high call finds the line low, so its data is what the read finds. -/
theorem dFlipFlopCaptureLaw : Obligations.DFlipFlopCaptureLaw := by
  intro s x f d d' hx
  refine runCompletes_cons.2 ((completes_dffStep d false hx).imp fun t hlow => ?_)
  refine runCompletes_cons.2 ((completes_dffStep d' true hlow.elem).imp fun u hhigh => ?_)
  refine runCompletes_cons.2 ⟨_, exec_dffRead hhigh.elem, runCompletes_nil.2 ?_⟩
  exact congrArg Reply.bit (flipFlop_clocked_low_high_value f _ _)

/-- Settles O26: the four operations are the four rows of the table. -/
theorem jkFlipFlopFollowsItsTable : Obligations.JkFlipFlopFollowsItsTable := by
  intro s x f clk hx
  refine ⟨?hold, ?reset, ?set, ?toggle⟩
  case hold => exact completes_clocked_kept (e := .jkff) (jkStep_eq_commit false false clk hx) rfl
  case reset => exact completes_clocked (e := .jkff) (jkStep_eq_commit false true clk hx) rfl
  case set => exact completes_clocked (e := .jkff) (jkStep_eq_commit true false clk hx) rfl
  case toggle => exact completes_clocked (e := .jkff) (jkStep_eq_commit true true clk hx) rfl

end Sys2Proof.Machine
end

section
/-! PROOFS. The Register family: the value a bank of cells reads as, the parallel load with either level of `enable`,
and runs of disabled loads. The laws about the model come first, then the proofs that use them. -/

namespace Sys2Proof.Machine

/-! ### The cells of a value -/

/-- The cells of a value that fits have that value (43_register.md R166, R168). -/
theorem val_cellsOf {w : Nat} {v : Word} (hv : v < 2 ^ w) : val (cellsOf w v) = v := by
  induction w generalizing v with
  | zero => exact (Nat.lt_one_iff.1 hv).symm
  | succ w ih =>
    have hhalf : v / 2 < 2 ^ w := Nat.div_lt_of_lt_mul (Nat.pow_succ' ▸ hv)
    have hbit : (decide (v % 2 = 1)).toNat = v % 2 := by
      rcases Nat.mod_two_eq_zero_or_one v with h | h <;> simp [h]
    rw [cellsOf, val, ih hhalf, hbit, Nat.mod_add_div]

/-! ### The vector of a load -/

/-- The vector of an operation other than `SHR.SHIFT` decodes to that operation. -/
theorem decode_of_encode {f : Format} {i : Instr} {v : Nat} (h : encode f i = some v)
    (hi : i.mapMnemonic ≠ "SHR.SHIFT") : decode f i.inst v = .ok i := by
  obtain ⟨hdecode, -, hports⟩ := encodedOperationsDecodeBack f i v h
  rwa [hports hi] at hdecode

section
variable {w : Nat} {v : Word}

/-- `REG.LOAD`: the value, `enable = 1`, the clock sample (43_register.md R166). -/
theorem decode_regLoad (x : Inst) (clk : Bool) (hv : v < 2 ^ w) :
    decode (.reg w) x (4 * v + 2 + clk.toNat) = .ok (.regLoad x v clk) := by
  refine decode_of_encode (i := .regLoad x v clk) (Laws.encode_eq_some.2 ⟨regFits_iff.2 ⟨w, rfl, hv⟩, ?_⟩)
    (by simp [Instr.mapMnemonic])
  simp [packFields, packBits, Nat.add_assoc]

/-- `REG.HOLD`: the value, `enable = 0`, the clock sample (43_register.md R167). -/
theorem decode_regHold (x : Inst) (clk : Bool) (hv : v < 2 ^ w) :
    decode (.reg w) x (4 * v + clk.toNat) = .ok (.regHold x v clk) := by
  refine decode_of_encode (i := .regHold x v clk) (Laws.encode_eq_some.2 ⟨regFits_iff.2 ⟨w, rfl, hv⟩, ?_⟩)
    (by simp [Instr.mapMnemonic])
  simp [packFields, packBits]

end

/-! ### A call on a bank of cells -/

/-- The call in the terms of the claims (43_register.md R166, 44_shift_register.md R181). -/
theorem cellBank_clocked_eq (b : CellBank) (clk : Bool) (u : List Bool → List Bool) :
    b.clocked clk u = ⟨if rises b.clkLine clk then u b.cells else b.cells, lineAfter b.clkLine clk⟩ := by
  rw [CellBank.clocked, onRising_rises, sampled_eq]

section
variable {s : State} {x : Inst} {w : Nat} {b : CellBank}

/-- `REG.READ` (43_register.md R168). -/
theorem exec_regRead (h : s.find x = some (.register w b)) :
    exec (.regRead x) s = .next { s with reply := .word (val b.cells) } :=
  withElem_some h (asRegister_register w b)

/-- `SHR.READ` (44_shift_register.md R194). -/
theorem exec_shrRead {p : ShiftParams} (h : s.find x = some (.shiftRegister p b)) :
    exec (.shrRead x) s = .next { s with reply := .word (val b.cells) } :=
  withElem_some h (asShiftRegister_shiftRegister p b)

/-- `REG.LOAD` (43_register.md R166). -/
theorem completes_regLoad {v : Word} (clk : Bool) (h : s.find x = some (.register w b)) (hv : v < 2 ^ w) :
    Completes (.regLoad x v clk) s (CallDone s x
      (.register w ⟨if rises b.clkLine clk then cellsOf w v else b.cells, lineAfter b.clkLine clk⟩) .ok) := by
  simpa [cellBank_clocked_eq, loadCells] using completes_regStep true clk h hv

/-- `REG.HOLD` (43_register.md R167). -/
theorem completes_regHold {v : Word} (clk : Bool) (h : s.find x = some (.register w b)) (hv : v < 2 ^ w) :
    Completes (.regHold x v clk) s (CallDone s x (.register w ⟨b.cells, lineAfter b.clkLine clk⟩) .ok) := by
  simpa [cellBank_clocked_eq, loadCells] using completes_regStep false clk h hv

/-- A load on a rising edge is what a read then finds (43_register.md R169 (b)). -/
theorem runCompletes_regLoad_regRead {v : Word} {clk : Bool} (h : s.find x = some (.register w b)) (hv : v < 2 ^ w)
    (hrises : rises b.clkLine clk = true) :
    RunCompletes [.regLoad x v clk, .regRead x] s (fun t => t.reply = .word v) := by
  refine runCompletes_cons.2 ((completes_regLoad clk h hv).imp fun t hload => ?_)
  refine runCompletes_cons.2 ⟨_, exec_regRead hload.elem, runCompletes_nil.2 (congrArg Reply.word ?_)⟩
  rw [if_pos hrises, val_cellsOf hv]

/-- Any sequence of disabled loads keeps the cells and every other instance, and leaves the line at its last sample
(43_register.md R167). -/
theorem runCompletes_regHolds (calls : List (Word × Bool)) (hcalls : ∀ c ∈ calls, c.1 < 2 ^ w)
    (h : s.find x = some (.register w b)) :
    RunCompletes (calls.map (fun c => .regHold x c.1 c.2)) s (fun t =>
      ∃ l, t.find x = some (.register w ⟨b.cells, l⟩) ∧
        l.current = (calls.getLast?.map (·.2)).getD b.clkLine.current ∧
        ∀ y, y ≠ x → t.find y = s.find y) := by
  induction calls generalizing s b with
  | nil => exact runCompletes_nil.2 ⟨b.clkLine, h, rfl, fun _ _ => rfl⟩
  | cons c r ih =>
    obtain ⟨hc, hr⟩ := List.forall_mem_cons.1 hcalls
    refine runCompletes_cons.2 ((completes_regHold c.2 h hc).imp fun t hhold => ?_)
    refine (ih hr hhold.elem).imp fun u ⟨l, hl, hcurrent, hothers⟩ =>
      ⟨l, hl, ?line, fun y hy => (hothers y hy).trans (hhold.otherElems y hy)⟩
    case line =>
      rw [hcurrent, lineAfter, List.getLast?_cons, Option.map_some, Option.getD_some, Option.getD_map]

end

/-! ### The statements of the family -/

/-- Settles O28: the cells of the value are its bits, a read finds the value in them, and `enable` is bit 1 of the
vector. -/
theorem registerLoadsOnRisingEdge : Obligations.RegisterLoadsOnRisingEdge := by
  intro s x w b value clk hx hv
  rw [← cellsOf_eq_map_testBit]
  exact ⟨completes_regLoad clk hx hv, completes_regHold clk hx hv, runCompletes_regLoad_regRead hx hv,
    decode_regLoad x clk hv⟩

/-- Settles O29, by induction on the calls: each one keeps the cells and samples the line. -/
theorem disabledLoadsNeverChangeTheValue : Obligations.DisabledLoadsNeverChangeTheValue := fun _ x _ _ hx =>
  ⟨fun _ clk hv => completes_regHold clk hx hv, fun calls hcalls => runCompletes_regHolds calls hcalls hx,
    fun _ clk hv => decode_regHold x clk hv⟩

/-- Settles O14: both reads are inspections that reply the value of the cells. -/
theorem bankReadsAreBinaryValues : Obligations.BankReadsAreBinaryValues := by
  intro s x b
  rw [← val_eq_sum]
  exact ⟨fun _ hx => exec_regRead hx, fun _ hx => exec_shrRead hx⟩

end Sys2Proof.Machine
end

section
/-! PROOFS. The ShiftRegister family: the cells of a bank in the order in which they leave it, the value of a shifted
bank, what a call and what a row of pulses leave in a ShiftRegister under each fill policy, and the inherited load. The
laws about the model come first, then the proofs that use them. -/

namespace Sys2Proof.Machine

/-! ### The value of a bank by its parts -/

theorem val_append (a r : List Bool) : val (a ++ r) = val a + 2 ^ a.length * val r := by
  induction a with
  | nil => simp [val]
  | cons c a ih =>
    simp only [List.cons_append, val, ih, List.length_cons]
    ring

@[simp] theorem val_replicate_false (n : Nat) : val (List.replicate n false) = 0 := by
  induction n with
  | zero => rfl
  | succ n ih => simp [List.replicate_succ, val, ih]

theorem val_replicate_true (n : Nat) : val (List.replicate n true) = 2 ^ n - 1 := by
  induction n with
  | zero => rfl
  | succ n ih =>
    have hpos : 0 < 2 ^ n := Nat.two_pow_pos n
    rw [List.replicate_succ, val, ih, Bool.toNat_true, pow_succ]
    change (1 + 2 * (2 ^ n - 1) : Nat) = 2 ^ n * 2 - 1
    omega

theorem val_cons_mod_two (c : Bool) (r : List Bool) : val (c :: r) % 2 = c.toNat := by
  rw [val, Nat.add_mul_mod_self_left, Nat.mod_eq_of_lt (Bool.toNat_lt c)]

theorem val_cons_div_two (c : Bool) (r : List Bool) : val (c :: r) / 2 = val r := by
  rw [val, Nat.add_mul_div_left _ _ two_pos, Nat.div_eq_of_lt (Bool.toNat_lt c), Nat.zero_add]

theorem cellsOf_val (cells : List Bool) : cellsOf cells.length (val cells) = cells := by
  induction cells with
  | nil => rfl
  | cons c r ih => simp [cellsOf, val_cons_mod_two, val_cons_div_two, ih]

/-- Banks of one length with one value are equal. -/
theorem eq_of_val_eq {a r : List Bool} (hlen : a.length = r.length) (h : val a = val r) : a = r := by
  rw [← cellsOf_val a, hlen, h, cellsOf_val]

/-- Ones below zeros. -/
theorem val_ones_zeros (n m : Nat) : val (List.replicate n true ++ List.replicate m false) = 2 ^ n - 1 := by
  simp [val_append, val_replicate_true]

/-- Zeros below ones. -/
theorem val_zeros_ones (n m : Nat) :
    val (List.replicate n false ++ List.replicate m true) = 2 ^ (n + m) - 2 ^ n := by
  simp [val_append, val_replicate_true, Nat.mul_sub, pow_add]

/-- A single one at place `n`. -/
theorem val_oneHot (n m : Nat) : val (List.replicate n false ++ true :: List.replicate m false) = 2 ^ n := by
  simp [val_append, val]

theorem cellsOf_zero (w : Nat) : cellsOf w 0 = List.replicate w false := by
  induction w with
  | zero => rfl
  | succ w ih => simp [cellsOf, List.replicate_succ, ih]

theorem cellsOf_one (w : Nat) : cellsOf (w + 1) 1 = true :: List.replicate w false := by
  simp [cellsOf, cellsOf_zero]

/-! ### The cells in the order in which they leave -/

/-- A bank read from the exit end to the entry end of a shift, or a bank so read turned back into one: the two
directions of 44_shift_register.md R181 are the same in this order. -/
def exitOrder (d : Dir) (cells : List Bool) : List Bool :=
  match d with
  | .right => cells
  | .left => cells.reverse

section
variable (d : Dir)

@[simp] theorem exitOrder_exitOrder (cells : List Bool) : exitOrder d (exitOrder d cells) = cells := by
  cases d with
  | right => rfl
  | left => exact List.reverse_reverse cells

theorem exitOrder_injective : Function.Injective (exitOrder d) :=
  Function.LeftInverse.injective (exitOrder_exitOrder d)

@[simp] theorem length_exitOrder (cells : List Bool) : (exitOrder d cells).length = cells.length := by
  cases d with
  | right => rfl
  | left => exact List.length_reverse

@[simp] theorem exitOrder_replicate (n : Nat) (v : Bool) :
    exitOrder d (List.replicate n v) = List.replicate n v := by
  cases d with
  | right => rfl
  | left => exact List.reverse_replicate

theorem exitOrder_map (u : Bool → Bool) (cells : List Bool) :
    exitOrder d (cells.map u) = (exitOrder d cells).map u := by
  cases d with
  | right => rfl
  | left => exact List.map_reverse.symm

theorem exitOrder_perm (cells : List Bool) : (exitOrder d cells).Perm cells := by
  cases d with
  | right => exact .refl _
  | left => exact List.reverse_perm cells

/-- The bit that leaves after `n` others. -/
theorem getD_exitOrder {cells : List Bool} {w n : Nat} (hw : cells.length = w) (hn : n < w) :
    (exitOrder d cells).getD n false = cells.getD (if d = .right then n else w - 1 - n) false := by
  subst hw
  cases d with
  | right => rfl
  | left => simp [exitOrder, List.getD_eq_getElem?_getD, List.getElem?_reverse hn]

/-- The outgoing bit is the first to leave. -/
theorem outgoing_exitOrder (q : List Bool) : outgoing d (exitOrder d q) = q.headD false := by
  cases d with
  | right => rfl
  | left => cases q <;> simp [outgoing, exitOrder]

/-- A shift drops the first bit to leave and adds the incoming one behind the others. -/
theorem shiftIn_exitOrder (v : Bool) (q : List Bool) :
    shiftIn d v (exitOrder d q) = exitOrder d (q.drop 1 ++ [v]) := by
  cases d with
  | right => rfl
  | left => simp [shiftIn, exitOrder]

/-- The shift of a bank by the bit its fill policy chooses. -/
theorem shiftCells_exitOrder {f : Fill} {b : Option Bool} {o v : Bool} {r : List Bool}
    (hin : incoming f b o = some v) : shiftCells d f b (exitOrder d (o :: r)) = exitOrder d (r ++ [v]) := by
  rw [shiftCells, outgoing_exitOrder, List.headD_cons, hin, shiftIn_exitOrder]
  rfl

end

/-- When as many bits have left as have been sent in behind the `w` cells `q`, the next one is among the bits sent if
they are at least `w`, and else among the cells. -/
theorem headD_drop_append {q : List Bool} {w : Nat} (bits : List Bool) (hq : q.length = w) :
    ((q ++ bits).drop bits.length).headD false =
      if w ≤ bits.length then bits.getD (bits.length - w) false else q.getD bits.length false := by
  subst hq
  rw [List.headD_eq_head?_getD, List.head?_drop]
  split
  · next hle => rw [List.getElem?_append_right hle, List.getD_eq_getElem?_getD]
  · next hlt => rw [List.getElem?_append_left (Nat.not_le.1 hlt), List.getD_eq_getElem?_getD]

/-! ### One shift of a bank -/

section
variable {cells : List Bool} {w : Nat}

/-- The cells after a shift to the right (44_shift_register.md R181). -/
theorem getElem?_shiftIn_right (v : Bool) (hw : cells.length = w) (hpos : 1 ≤ w) :
    (∀ i, i + 1 < w → (shiftIn .right v cells)[i]? = cells[i + 1]?) ∧
      (shiftIn .right v cells)[w - 1]? = some v := by
  subst hw
  refine ⟨fun i hi => ?_, ?_⟩
  · rw [shiftIn, List.getElem?_append_left (by simp; omega), List.getElem?_drop, Nat.add_comm]
  · simp [shiftIn]

/-- The cells after a shift to the left (44_shift_register.md R181). -/
theorem getElem?_shiftIn_left (v : Bool) (hw : cells.length = w) :
    (∀ i, i + 1 < w → (shiftIn .left v cells)[i + 1]? = cells[i]?) ∧ (shiftIn .left v cells)[0]? = some v := by
  subst hw
  refine ⟨fun i hi => ?_, rfl⟩
  rw [shiftIn, List.getElem?_cons_succ, List.getElem?_dropLast, if_pos (by omega)]

/-- In numbers, a shift to the right (44_shift_register.md R181). -/
theorem val_shiftIn_right (v : Bool) (hw : cells.length = w) (hpos : 1 ≤ w) :
    val (shiftIn .right v cells) = val cells / 2 + v.toNat * 2 ^ (w - 1) := by
  subst hw
  obtain ⟨c, r, rfl⟩ := List.exists_cons_of_length_pos hpos
  rw [val_cons_div_two]
  simp [shiftIn, val_append, val, Nat.mul_comm]

/-- In numbers, a shift to the left (44_shift_register.md R181). -/
theorem val_shiftIn_left (v : Bool) (hw : cells.length = w) (hpos : 1 ≤ w) :
    val (shiftIn .left v cells) = 2 * val cells % 2 ^ w + v.toNat := by
  subst hw
  obtain rfl | ⟨r, c, rfl⟩ := List.eq_nil_or_concat' cells
  · simp at hpos
  have hr : 2 * val r < 2 ^ (r.length + 1) := by
    rw [pow_succ']
    exact Nat.mul_lt_mul_of_pos_left (val_lt r) two_pos
  have hwhole : 2 * val (r ++ [c]) = 2 * val r + c.toNat * 2 ^ (r.length + 1) := by
    simp only [val_append, val]
    ring
  rw [List.length_append, List.length_singleton, hwhole, Nat.add_mul_mod_self_right, Nat.mod_eq_of_lt hr, shiftIn,
    List.dropLast_concat, val, Nat.add_comm]

/-- The outgoing bit of a shift to the right (44_shift_register.md R181). -/
theorem toNat_outgoing_right (cells : List Bool) : (outgoing .right cells).toNat = val cells % 2 := by
  cases cells with
  | nil => rfl
  | cons c r => exact (val_cons_mod_two c r).symm

/-- The outgoing bit of a shift to the left (44_shift_register.md R181). -/
theorem toNat_outgoing_left (hw : cells.length = w) (hpos : 1 ≤ w) :
    (outgoing .left cells).toNat = val cells / 2 ^ (w - 1) := by
  subst hw
  obtain rfl | ⟨r, c, rfl⟩ := List.eq_nil_or_concat' cells
  · simp at hpos
  rw [outgoing, List.getLastD_concat, List.length_append, List.length_singleton, Nat.add_sub_cancel, val_append,
    Nat.add_mul_div_left _ _ (Nat.two_pow_pos r.length), Nat.div_eq_of_lt (val_lt r)]
  simp [val]

theorem toNat_not (c : Bool) : (!c).toNat = 1 - c.toNat := by
  cases c <;> rfl

/-- The cell the outgoing bit is in (44_shift_register.md R193). -/
theorem getElem?_exit (d : Dir) (hw : cells.length = w) (hpos : 1 ≤ w) :
    cells[if d = .right then 0 else w - 1]? = some (outgoing d cells) := by
  have hlt : (if d = .right then 0 else w - 1) < cells.length := by split <;> omega
  rw [outgoing_eq_getD d hw, List.getD_eq_getElem?_getD, List.getElem?_eq_getElem hlt, Option.getD_some]

end

/-! ### A call of `shift` -/

@[simp] theorem rises_low (l : ClockLine) : rises l false = false := Bool.and_false _

@[simp] theorem rises_after_low (l : ClockLine) : rises (lineAfter l false) true = true := rfl

/-- A call whose fill policy finds an incoming bit is not refused (44_shift_register.md R190). -/
theorem serialMissing_of_incoming {f : Fill} {b : Option Bool} {o v : Bool} (h : incoming f b o = some v) :
    serialMissing f b = false := by
  cases f with
  | serial => rw [incoming] at h; simp [serialMissing, h]
  | _ => simp [serialMissing]

theorem incoming_of_present {f : Fill} {b : Option Bool} (h : f ≠ .serial ∨ b ≠ none) (o : Bool) :
    ∃ v, incoming f b o = some v := by
  cases f with
  | serial => exact Option.ne_none_iff_exists'.1 (h.resolve_left (· rfl))
  | _ => exact ⟨_, rfl⟩

theorem shiftCells_eq_shiftIn {d : Dir} {f : Fill} {b : Option Bool} {v : Bool} {cells : List Bool}
    (h : incoming f b (outgoing d cells) = some v) : shiftCells d f b cells = shiftIn d v cells := by
  rw [shiftCells, h, Option.getD_some]

/-- `i` is a `shift` of the ShiftRegister `x` under the parameters `p`, as a function of the clock sample: the whole
operation or the form `p` selects (30_encoding.md R95). -/
structure IsShift (i : Bool → Instr) (x : Inst) (p : ShiftParams) (serialIn : Option Bool) : Prop where
  pulse_eq : ∀ c, pulse (i c) = [i false, i true]
  exec_eq : ∀ {s : State} {b : CellBank} (clk : Bool), s.find x = some (.shiftRegister p b) →
    exec (i clk) s = shiftBank x p b serialIn clk s

theorem isShift_whole (x : Inst) (p : ShiftParams) (b : Option Bool) : IsShift (.shrShift x b) x p b where
  pulse_eq _ := rfl
  exec_eq _ hx := withElem_some hx (asShiftRegister_shiftRegister p _)

theorem isShift_form (x : Inst) {p : ShiftParams} {d : Dir} {f : Fill} (b : Option Bool) (hd : p.dir = d)
    (hf : p.fill = f) : IsShift (shiftForm x d f b) x p b where
  pulse_eq _ := by cases d <;> cases f <;> rfl
  exec_eq _ hx := by
    rw [exec_shiftForm]
    exact (withElem_some hx (asShiftRegister_shiftRegister p _)).trans (if_pos ⟨hd, hf⟩)

/-- `x` is a ShiftRegister with parameters `p` whose cells, in the order in which they leave, are `q`, whatever its
line holds. -/
def ShiftsOut (x : Inst) (p : ShiftParams) (q : List Bool) (t : State) : Prop :=
  ∃ l, t.find x = some (.shiftRegister p ⟨exitOrder p.dir q, l⟩)

section
variable {i : Bool → Instr} {s : State} {x : Inst} {p : ShiftParams} {b : CellBank} {serialIn : Option Bool}
  {q r : List Bool} {n : Nat}

theorem shiftsOut_of_find (h : s.find x = some (.shiftRegister p b)) : ShiftsOut x p (exitOrder p.dir b.cells) s :=
  ⟨b.clkLine, by rw [exitOrder_exitOrder]; exact h⟩

/-- A shift without its serial bit (44_shift_register.md R190). -/
theorem IsShift.completes_raised (h : IsShift i x p none) (clk : Bool) (hx : s.find x = some (.shiftRegister p b))
    (hf : p.fill = .serial) : Completes (i clk) s (CallRaised s x .invalidState) :=
  completes_raise ((h.exec_eq clk hx).trans (if_pos (by simp [serialMissing, hf])))

/-- A shift with its incoming bit (44_shift_register.md R181). -/
theorem IsShift.completes (h : IsShift i x p serialIn) (clk : Bool) (hx : s.find x = some (.shiftRegister p b))
    {o v : Bool} (hin : incoming p.fill serialIn o = some v) :
    Completes (i clk) s (CallDone s x (.shiftRegister p
      ⟨if rises b.clkLine clk then shiftCells p.dir p.fill serialIn b.cells else b.cells,
        lineAfter b.clkLine clk⟩) .ok) := by
  rw [← cellBank_clocked_eq]
  exact completes_commit
    ((h.exec_eq clk hx).trans (if_neg (Bool.not_eq_true _ ▸ serialMissing_of_incoming hin)))

/-- The cells after a shift whose incoming bit is `v`. -/
theorem IsShift.completes_cells (h : IsShift i x p serialIn) (clk : Bool)
    (hx : s.find x = some (.shiftRegister p b)) (hw : b.cells.length = p.width) (hpos : 1 ≤ p.width) {v : Bool}
    (hin : incoming p.fill serialIn (outgoing p.dir b.cells) = some v) :
    Completes (i clk) s (fun t => ∃ cells,
      CallDone s x (.shiftRegister p ⟨cells, lineAfter b.clkLine clk⟩) .ok t ∧ cells.length = p.width ∧
      cells = if rises b.clkLine clk then shiftIn p.dir v b.cells else b.cells) := by
  refine (h.completes clk hx hin).imp fun t ht => ⟨_, ht, ?_, by rw [shiftCells_eq_shiftIn hin]⟩
  split
  · exact (length_shiftCells (hw ▸ hpos)).trans hw
  · exact hw

/-- A shift to the right in numbers (44_shift_register.md R181). -/
theorem IsShift.completes_val_right (h : IsShift i x p serialIn) (clk : Bool)
    (hx : s.find x = some (.shiftRegister p b)) (hw : b.cells.length = p.width) (hpos : 1 ≤ p.width)
    (hd : p.dir = .right) {v : Bool} (hin : incoming p.fill serialIn (outgoing .right b.cells) = some v) :
    Completes (i clk) s (fun t => ∃ cells,
      CallDone s x (.shiftRegister p ⟨cells, lineAfter b.clkLine clk⟩) .ok t ∧ cells.length = p.width ∧
      val cells = if rises b.clkLine clk then val b.cells / 2 + v.toNat * 2 ^ (p.width - 1) else val b.cells) := by
  refine (h.completes_cells clk hx hw hpos (hd.symm ▸ hin)).imp fun t ⟨cells, hdone, hlen, hcells⟩ =>
    ⟨cells, hdone, hlen, ?_⟩
  rw [hcells, hd, apply_ite val, val_shiftIn_right v hw hpos]

/-- A shift to the left in numbers (44_shift_register.md R181). -/
theorem IsShift.completes_val_left (h : IsShift i x p serialIn) (clk : Bool)
    (hx : s.find x = some (.shiftRegister p b)) (hw : b.cells.length = p.width) (hpos : 1 ≤ p.width)
    (hd : p.dir = .left) {v : Bool} (hin : incoming p.fill serialIn (outgoing .left b.cells) = some v) :
    Completes (i clk) s (fun t => ∃ cells,
      CallDone s x (.shiftRegister p ⟨cells, lineAfter b.clkLine clk⟩) .ok t ∧ cells.length = p.width ∧
      val cells = if rises b.clkLine clk then 2 * val b.cells % 2 ^ p.width + v.toNat else val b.cells) := by
  refine (h.completes_cells clk hx hw hpos (hd.symm ▸ hin)).imp fun t ⟨cells, hdone, hlen, hcells⟩ =>
    ⟨cells, hdone, hlen, ?_⟩
  rw [hcells, hd, apply_ite val, val_shiftIn_left v hw hpos]

/-! ### Pulses of `shift` -/

/-- One pulse: the first bit leaves and the incoming one stands behind the others. -/
theorem IsShift.runCompletes_pulse (h : IsShift i x p serialIn) (c : Bool) {o v : Bool}
    (hin : incoming p.fill serialIn o = some v) (hq : ShiftsOut x p (o :: r) s) :
    RunCompletes (pulse (i c)) s (ShiftsOut x p (r ++ [v])) := by
  obtain ⟨l, hx⟩ := hq
  rw [h.pulse_eq]
  refine runCompletes_cons.2 ((h.completes false hx hin).imp fun t hlow => ?_)
  rw [rises_low, if_neg Bool.false_ne_true] at hlow
  refine runCompletes_cons.2 ((h.completes true hlow.elem hin).imp fun u hhigh => runCompletes_nil.2 ?_)
  simp only [rises_after_low, if_true, shiftCells_exitOrder p.dir hin] at hhigh
  exact ⟨_, hhigh.elem⟩

/-- While the bits `q` leave, the policy feeds what it makes of each of them in behind the others. -/
theorem IsShift.runCompletes_pulses (h : IsShift i x p serialIn) (c : Bool) {u : Bool → Bool}
    (hin : ∀ o, incoming p.fill serialIn o = some (u o)) (hn : q.length = n) (hq : ShiftsOut x p (q ++ r) s) :
    RunCompletes (times n (pulse (i c))) s (ShiftsOut x p (r ++ q.map u)) := by
  subst hn
  induction q generalizing s r with
  | nil => simpa using hq
  | cons o q ih =>
    rw [List.length_cons, times_succ]
    refine runCompletes_append.2 ((h.runCompletes_pulse c (hin o) hq).imp fun t ht => ?_)
    simpa using ih (r := r ++ [u o]) (by simpa using ht)

/-- Serial bits, one pulse each, push out as many bits as are sent (44_shift_register.md R198). -/
theorem IsShift.runCompletes_serial {i : Bool → Bool → Instr} (h : ∀ v, IsShift (i v) x p (some v)) (c : Bool)
    (bits : List Bool) (hf : p.fill = .serial) (hpos : 1 ≤ q.length) (hq : ShiftsOut x p q s) :
    RunCompletes (bits.flatMap (fun v => pulse (i v c))) s (ShiftsOut x p ((q ++ bits).drop bits.length)) := by
  induction bits generalizing s q with
  | nil => simpa using hq
  | cons v bits ih =>
    obtain ⟨o, r, rfl⟩ := List.exists_cons_of_length_pos hpos
    rw [List.flatMap_cons]
    have hin : incoming p.fill (some v) o = some v := by rw [hf, incoming]
    refine runCompletes_append.2 (((h v).runCompletes_pulse c hin hq).imp fun t ht => ?_)
    simpa using ih (by simp) ht

/-- Ring fill rotates the bits in the order in which they leave (44_shift_register.md R184, R188). -/
theorem IsShift.runCompletes_ring (h : IsShift i x p serialIn) (c : Bool) (n : Nat) (hf : p.fill = .ring)
    (hpos : 1 ≤ q.length) (hq : ShiftsOut x p q s) :
    RunCompletes (times n (pulse (i c))) s (ShiftsOut x p (q.rotate n)) := by
  have hround : ∀ k t, ShiftsOut x p (q.rotate k) t →
      RunCompletes (pulse (i c)) t (ShiftsOut x p (q.rotate (k + 1))) := by
    intro k t ht
    obtain ⟨o, r, hr⟩ := List.exists_cons_of_length_pos (List.length_rotate (l := q) (n := k) ▸ hpos)
    have hin : incoming p.fill serialIn o = some o := by rw [hf, incoming]
    rw [← List.rotate_rotate, hr, List.rotate_cons_succ, List.rotate_zero]
    exact h.runCompletes_pulse c hin (hr ▸ ht)
  have hrun := runCompletes_times (P := fun k => ShiftsOut x p (q.rotate k)) (u := Nat.succ) hround n (a := 0)
    ((List.rotate_zero q).symm ▸ hq)
  simpa [Nat.succ_iterate] using hrun

/-- What zero fill feeds in is 0, whatever leaves (44_shift_register.md R182, R186). -/
theorem IsShift.runCompletes_zero (h : IsShift i x p serialIn) (c : Bool) (hf : p.fill = .zero)
    (hn : q.length = n) (hq : ShiftsOut x p q s) :
    RunCompletes (times n (pulse (i c))) s (ShiftsOut x p (List.replicate n false)) := by
  have hin : ∀ o, incoming p.fill serialIn o = some (Function.const Bool false o) := by
    intro o; rw [hf]; rfl
  simpa [hn] using h.runCompletes_pulses c hin hn (r := []) (by simpa using hq)

/-- Johnson fill feeds the complement of what leaves in behind the rest (44_shift_register.md R185, R189). -/
theorem IsShift.runCompletes_johnson (h : IsShift i x p serialIn) (c : Bool) (hf : p.fill = .johnson)
    (hn : q.length = n) (hq : ShiftsOut x p (q ++ r) s) :
    RunCompletes (times n (pulse (i c))) s (ShiftsOut x p (r ++ q.map not)) :=
  h.runCompletes_pulses c (fun o => by rw [hf]; rfl) hn hq

/-- As many Johnson pulses as there are cells complement every cell (44_shift_register.md R197 (a)). -/
theorem IsShift.runCompletes_johnson_all (h : IsShift i x p serialIn) (c : Bool) (hf : p.fill = .johnson)
    (hn : q.length = n) (hq : ShiftsOut x p q s) :
    RunCompletes (times n (pulse (i c))) s (ShiftsOut x p (q.map not)) :=
  h.runCompletes_johnson c hf hn (r := []) ((List.append_nil q).symm ▸ hq)

/-- A run that ends in `SHR.READ` replies the value of the cells the run leaves. -/
theorem runCompletes_append_shrRead {is : List Instr} {v : Word} (h : RunCompletes is s (ShiftsOut x p q))
    (hv : val (exitOrder p.dir q) = v) :
    RunCompletes (is ++ [.shrRead x]) s (fun t => t.reply = .word v) := by
  refine runCompletes_append.2 (h.imp fun t ⟨l, hx⟩ => ?_)
  exact runCompletes_cons.2 ⟨_, exec_shrRead hx, runCompletes_nil.2 (congrArg Reply.word hv)⟩

/-- A run that ends in `SHR.SOUT` replies the next bit to leave. -/
theorem runCompletes_append_shrSout {is : List Instr} (h : RunCompletes is s (ShiftsOut x p q)) :
    RunCompletes (is ++ [.shrSout x]) s (fun t => t.reply = .bit (q.headD false)) := by
  refine runCompletes_append.2 (h.imp fun t ⟨l, hx⟩ => ?_)
  exact runCompletes_cons.2
    ⟨_, exec_shrSout hx, runCompletes_nil.2 (congrArg Reply.bit (outgoing_exitOrder p.dir q))⟩

/-- What a run leaves is what every state it answers satisfies. -/
theorem RunCompletes.of_next {is : List Instr} {t : State} {P : State → Prop} (h : RunCompletes is s P)
    (ht : execAll is s = .next t) : P t := by
  obtain ⟨u, hu, hP⟩ := h
  cases hu.symm.trans ht
  exact hP

theorem times_add (m n : Nat) (is : List Instr) : times (m + n) is = times m is ++ times n is := by
  rw [times, List.replicate_add, List.flatten_append]
  rfl

end

/-! ### The counters of a new ShiftRegister -/

section
variable {i : Bool → Instr} {s : State} {x : Inst} {w n : Nat} {d : Dir} {c : Bool}

/-- A run of pulses from a new ShiftRegister replies the value of what the pulses leave. -/
theorem runCompletes_new_read {f : Fill} {init : Option Word} {is : List Instr} {q : List Bool} {v : Word}
    (hw : 1 ≤ w) (hinit : init.getD 0 < 2 ^ w)
    (hrun : ∀ t, ShiftsOut x (shiftTuple w d f init) (exitOrder d (cellsOf w (init.getD 0))) t →
      RunCompletes is t (ShiftsOut x (shiftTuple w d f init) q)) (hv : val (exitOrder d q) = v) :
    RunCompletes (.shrNew x w d f init :: is ++ [.shrRead x]) s (fun t => t.reply = .word v) := by
  refine runCompletes_append_shrRead (p := shiftTuple w d f init) (runCompletes_cons.2 ?_) hv
  exact (completes_construct rfl (shiftLegal_tuple hw hinit)).imp fun t hnew =>
    hrun t (shiftsOut_of_find hnew.elem)

/-- The cells of a ring counter after `n` pulses, in the order in which they leave, from the cells it starts with. -/
theorem runCompletes_new_ring {v : Word} (hi : IsShift i x (shiftTuple w d .ring (some 1)) none) (hw : 1 ≤ w)
    (hv : val (exitOrder d ((exitOrder d (cellsOf w 1)).rotate n)) = v) :
    RunCompletes (.shrNew x w d .ring (some 1) :: times n (pulse (i c)) ++ [.shrRead x]) s
      (fun t => t.reply = .word v) := by
  refine runCompletes_new_read hw (Nat.one_lt_two_pow (Nat.one_le_iff_ne_zero.1 hw)) (fun t ht => ?_) hv
  exact hi.runCompletes_ring c n rfl (by simpa using hw) ht

/-- The single one of a ring counter, upward (44_shift_register.md R196 (c)). -/
theorem val_ring_left (hw : 1 ≤ w) (n : Nat) :
    val (exitOrder .left ((exitOrder .left (cellsOf w 1)).rotate n)) = 2 ^ (n % w) := by
  obtain ⟨k, rfl⟩ := Nat.exists_eq_add_of_le' hw
  have hle : n % (k + 1) ≤ k := Nat.le_of_lt_succ (Nat.mod_lt n hw)
  have hstart : exitOrder .left (cellsOf (k + 1) 1) = List.replicate k false ++ [true] := by
    simp [exitOrder, cellsOf_one]
  have hturned : (List.replicate k false ++ [true]).rotate n =
      List.replicate (k - n % (k + 1)) false ++ true :: List.replicate (n % (k + 1)) false := by
    rw [← List.rotate_mod, List.length_append, List.length_replicate, List.length_singleton,
      List.rotate_eq_drop_append_take (by simp; omega)]
    simp [List.drop_append_of_le_length, List.take_append_of_le_length, hle]
  rw [hstart, hturned, exitOrder]
  simp [val_oneHot]

/-- The single one of a ring counter, downward (44_shift_register.md R196 (c)). -/
theorem val_ring_right (hw : 1 ≤ w) (n : Nat) :
    val (exitOrder .right ((exitOrder .right (cellsOf w 1)).rotate n)) = 2 ^ ((w - n % w) % w) := by
  obtain ⟨k, rfl⟩ := Nat.exists_eq_add_of_le' hw
  have hlt : n % (k + 1) < k + 1 := Nat.mod_lt n hw
  have hlen : (true :: List.replicate k false).length = k + 1 := by simp
  rw [exitOrder, exitOrder, cellsOf_one, ← List.rotate_mod, hlen]
  cases hm : n % (k + 1) with
  | zero => simpa using val_oneHot 0 k
  | succ m =>
    have hle : m ≤ k := by omega
    rw [List.rotate_eq_drop_append_take (by simp; omega)]
    simpa [hle, Nat.mod_eq_of_lt (by omega : k - m < k + 1)] using val_oneHot (k - m) m

/-- The cells of a Johnson counter after `n` pulses, in the order in which they leave: `n` ones behind zeros, and after
`w` pulses zeros behind ones (44_shift_register.md R197 (c)). -/
def johnsonCells (w n : Nat) : List Bool :=
  if n ≤ w then List.replicate (w - n) false ++ List.replicate n true
  else List.replicate (2 * w - n) true ++ List.replicate (n - w) false

/-- `n` pulses of a Johnson counter from zero. -/
theorem IsShift.runCompletes_johnsonCells {p : ShiftParams} {b : Option Bool} (hi : IsShift i x p b) (c : Bool)
    (hf : p.fill = .johnson) (hn : n < 2 * w) (hq : ShiftsOut x p (List.replicate w false) s) :
    RunCompletes (times n (pulse (i c))) s (ShiftsOut x p (johnsonCells w n)) := by
  unfold johnsonCells
  split
  · next hle =>
    have hsplit : List.replicate w false = List.replicate n false ++ List.replicate (w - n) false := by
      rw [List.replicate_append_replicate, Nat.add_sub_cancel' hle]
    rw [hsplit] at hq
    simpa only [List.map_replicate, Bool.not_false] using hi.runCompletes_johnson c hf List.length_replicate hq
  · next hgt =>
    obtain ⟨m, rfl⟩ := Nat.exists_eq_add_of_le (Nat.le_of_not_le hgt)
    have hsplit : List.replicate w true = List.replicate m true ++ List.replicate (w - m) true := by
      rw [List.replicate_append_replicate, Nat.add_sub_cancel' (by omega)]
    have hrest : 2 * w - (w + m) = w - m := by omega
    rw [times_add, hrest, Nat.add_sub_cancel_left]
    refine runCompletes_append.2 ((hi.runCompletes_johnson_all c hf List.length_replicate hq).imp fun t ht => ?_)
    rw [List.map_replicate, Bool.not_false, hsplit] at ht
    simpa only [List.map_replicate, Bool.not_true] using hi.runCompletes_johnson c hf List.length_replicate ht

theorem val_johnsonCells_left (hn : n < 2 * w) :
    val (exitOrder .left (johnsonCells w n)) = if n ≤ w then 2 ^ n - 1 else 2 ^ w - 2 ^ (n - w) := by
  unfold johnsonCells
  split
  · simp [exitOrder, val_ones_zeros]
  · have hw : n - w + (2 * w - n) = w := by omega
    simp [exitOrder, val_zeros_ones, hw]

theorem val_johnsonCells_right :
    val (exitOrder .right (johnsonCells w n)) = if n ≤ w then 2 ^ w - 2 ^ (w - n) else 2 ^ (2 * w - n) - 1 := by
  unfold johnsonCells
  split
  · next hle => rw [exitOrder, val_zeros_ones, Nat.sub_add_cancel hle]
  · rw [exitOrder, val_ones_zeros]

theorem length_johnsonCells (hn : n < 2 * w) : (johnsonCells w n).length = w := by
  unfold johnsonCells
  split <;> simp <;> omega

theorem count_johnsonCells (w n : Nat) : (johnsonCells w n).count true = if n ≤ w then n else 2 * w - n := by
  unfold johnsonCells
  split <;> simp [List.count_replicate]

theorem head?_johnsonCells (hw : 1 ≤ w) (hn : n < 2 * w) : (johnsonCells w n).head? = some (decide (w ≤ n)) := by
  unfold johnsonCells
  split
  · next hle =>
    rcases hle.lt_or_eq with hlt | rfl
    · simp [List.head?_append, List.head?_replicate, Nat.sub_ne_zero_of_lt hlt, Nat.not_le.2 hlt]
    · simp [List.head?_replicate, Nat.one_le_iff_ne_zero.1 hw]
  · next hgt => simp [List.head?_append, List.head?_replicate, Nat.sub_ne_zero_of_lt hn, Nat.le_of_not_le hgt]

/-- The states of a Johnson counter on its cycle from zero differ: the number of ones tells all but the two halves of
the cycle apart, and the next bit to leave tells these apart. -/
theorem johnsonCells_inj {m : Nat} (hw : 1 ≤ w) (hm : m < 2 * w) (hn : n < 2 * w)
    (h : johnsonCells w m = johnsonCells w n) : m = n := by
  have hcount := (count_johnsonCells w m).symm.trans (h ▸ count_johnsonCells w n)
  have hhead := Option.some.inj ((head?_johnsonCells hw hm).symm.trans (h ▸ head?_johnsonCells hw hn))
  have hhalf : w ≤ m ↔ w ≤ n := decide_eq_decide.1 hhead
  split at hcount <;> split at hcount <;> omega

theorem runCompletes_new_johnson {v : Word} (hi : IsShift i x (shiftTuple w d .johnson none) none) (hw : 1 ≤ w)
    (hn : n < 2 * w) (hv : val (exitOrder d (johnsonCells w n)) = v) :
    RunCompletes (.shrNew x w d .johnson none :: times n (pulse (i c)) ++ [.shrRead x]) s
      (fun t => t.reply = .word v) := by
  refine runCompletes_new_read hw (Nat.two_pow_pos w) (fun t ht => ?_) hv
  rw [Option.getD_none, cellsOf_zero, exitOrder_replicate] at ht
  exact hi.runCompletes_johnsonCells c rfl hn ht

/-- A Johnson counter reads differently after different numbers of pulses below `2W` (44_shift_register.md R197 (c)). -/
theorem new_johnson_reads_ne {m : Nat} {t u : State} (hi : IsShift i x (shiftTuple w d .johnson none) none)
    (hw : 1 ≤ w) (hn : n < 2 * w) (hm : m < n)
    (ht : execAll (.shrNew x w d .johnson none :: times n (pulse (i c)) ++ [.shrRead x]) s = .next t)
    (hu : execAll (.shrNew x w d .johnson none :: times m (pulse (i c)) ++ [.shrRead x]) s = .next u) :
    t.reply ≠ u.reply := by
  have hm' : m < 2 * w := hm.trans hn
  have hreply {k : Nat} (hk : k < 2 * w) := runCompletes_new_johnson (s := s) (c := c) hi hw hk rfl
  rw [(hreply hn).of_next ht, (hreply hm').of_next hu]
  intro h
  have hcells := eq_of_val_eq (by simp [length_johnsonCells, hn, hm']) (Reply.word.inj h)
  exact hm.ne' (johnsonCells_inj hw hn hm' (exitOrder_injective d hcells))

end

/-! ### The inherited load -/

section
variable {s : State} {x : Inst} {p : ShiftParams} {b : CellBank} {v : Word}

theorem shrLoadStep_eq_commit (enable clk : Bool) (h : s.find x = some (.shiftRegister p b)) (hv : v < 2 ^ p.width) :
    shrLoadStep x v enable clk s =
      commit x (.shiftRegister p (b.clocked clk (loadCells p.width v enable))) .ok s :=
  (withElem_some h (asShiftRegister_shiftRegister p b)).trans (presented_fits hv)

/-- `SHR.LOAD` (44_shift_register.md R191). -/
theorem completes_shrLoad (clk : Bool) (h : s.find x = some (.shiftRegister p b)) (hv : v < 2 ^ p.width) :
    Completes (.shrLoad x v clk) s (CallDone s x (.shiftRegister p
      ⟨if rises b.clkLine clk then cellsOf p.width v else b.cells, lineAfter b.clkLine clk⟩) .ok) := by
  simpa [cellBank_clocked_eq, loadCells] using
    completes_commit (i := .shrLoad x v clk) (shrLoadStep_eq_commit true clk h hv)

/-- `SHR.LHOLD` (44_shift_register.md R192). -/
theorem completes_shrLhold (clk : Bool) (h : s.find x = some (.shiftRegister p b)) (hv : v < 2 ^ p.width) :
    Completes (.shrLhold x v clk) s
      (CallDone s x (.shiftRegister p ⟨b.cells, lineAfter b.clkLine clk⟩) .ok) := by
  simpa [cellBank_clocked_eq, loadCells] using
    completes_commit (i := .shrLhold x v clk) (shrLoadStep_eq_commit false clk h hv)

end

/-! ### The statements of the family -/

/-- Settles O31: the form `p` selects is the same `shift`, and the cells of `shiftIn` are the neighbours and the
incoming bit. -/
theorem shiftMovesEveryCellOnePlace : Obligations.ShiftMovesEveryCellOnePlace := by
  intro s x p b serialIn clk hx hw hpos
  have hwhole := isShift_whole x p serialIn
  refine ⟨?form, fun hf hnone => ?refused, fun hpresent => ?shifted⟩
  case form => rw [hwhole.exec_eq clk hx, (isShift_form x serialIn rfl rfl).exec_eq clk hx]
  case refused =>
    subst hnone
    exact hwhole.completes_raised clk hx hf
  case shifted =>
    obtain ⟨v, hin⟩ := incoming_of_present hpresent (outgoing p.dir b.cells)
    refine (hwhole.completes_cells clk hx hw hpos hin).imp fun t ⟨cells, hdone, hlen, hcells⟩ =>
      ⟨cells, hdone, hlen, fun hstill => ?still, fun hrises => ⟨fun hd => ?right, fun hd => ?left⟩⟩
    case still => rw [hcells, if_neg (Bool.not_eq_true _ ▸ hstill)]
    case right =>
      obtain ⟨hmove, henter⟩ := getElem?_shiftIn_right v hw hpos
      rw [hd] at hin hcells
      rw [hcells, if_pos hrises, henter, ← hin]
      have hexit : b.cells[0]? = some (outgoing .right b.cells) := getElem?_exit .right hw hpos
      exact ⟨hmove, by cases p.fill <;> simp [incoming, hexit]⟩
    case left =>
      obtain ⟨hmove, henter⟩ := getElem?_shiftIn_left v hw
      rw [hd] at hin hcells
      rw [hcells, if_pos hrises, henter, ← hin]
      have hexit : b.cells[p.width - 1]? = some (outgoing .left b.cells) := getElem?_exit .left hw hpos
      exact ⟨hmove, by cases p.fill <;> simp [incoming, hexit]⟩

/-- Settles O34: under `Serial` there is no other source of the incoming bit. -/
theorem serialFormsNeedASerialBit : Obligations.SerialFormsNeedASerialBit := by
  intro s x p b clk hx hf
  exact ⟨fun hd => (isShift_form x none hd hf).completes_raised clk hx hf,
    fun hd => (isShift_form x none hd hf).completes_raised clk hx hf⟩

/-- Settles O32: the incoming bit 0 adds nothing to the shifted value, and as many zeros as there are cells push every
cell out. -/
theorem zeroFillShiftsOutEverything : Obligations.ZeroFillShiftsOutEverything := by
  intro s x p b serialIn clk hx hw hpos hf
  have hin (d : Dir) : incoming p.fill serialIn (outgoing d b.cells) = some false := by rw [hf, incoming]
  have hempty {i : Bool → Instr} (hi : IsShift i x p serialIn) :
      RunCompletes (times p.width (pulse (i clk)) ++ [.shrRead x]) s (fun t => t.reply = .word 0) :=
    runCompletes_append_shrRead
      (hi.runCompletes_zero clk hf ((length_exitOrder _ _).trans hw) (shiftsOut_of_find hx)) (by simp)
  refine ⟨fun hd => ?right, fun hd => ?left⟩
  case right =>
    have hi : IsShift (.shrShiftRZero x serialIn) x p serialIn := isShift_form x serialIn hd hf
    exact ⟨by simpa using hi.completes_val_right clk hx hw hpos hd (hin .right), hempty hi⟩
  case left =>
    have hi : IsShift (.shrShiftLZero x serialIn) x p serialIn := isShift_form x serialIn hd hf
    exact ⟨by simpa using hi.completes_val_left clk hx hw hpos hd (hin .left), hempty hi⟩

/-- Settles O33: the incoming bit is the serial one, and as many bits as there are cells leave nothing but themselves,
the first one next to leave. -/
theorem serialFillTakesTheSerialBit : Obligations.SerialFillTakesTheSerialBit := by
  intro s x p b bit clk hx hw hpos hf
  have hin (d : Dir) : incoming p.fill (some bit) (outgoing d b.cells) = some bit := by rw [hf, incoming]
  have hsent {i : Bool → Bool → Instr} (hi : ∀ v, IsShift (i v) x p (some v)) (bits : List Bool)
      (hbits : bits.length = p.width) :
      RunCompletes (bits.flatMap (fun v => pulse (i v clk))) s (ShiftsOut x p bits) := by
    have hlen : (exitOrder p.dir b.cells).length = bits.length := by rw [length_exitOrder, hw, hbits]
    simpa [List.drop_left' hlen] using
      IsShift.runCompletes_serial hi clk bits hf (by omega) (shiftsOut_of_find hx)
  refine ⟨fun hd => ?right, fun hd => ?left⟩
  case right =>
    have hi (v : Bool) : IsShift (.shrShiftRSerial x (some v)) x p (some v) := isShift_form x (some v) hd hf
    refine ⟨(hi bit).completes_val_right clk hx hw hpos hd (hin .right), fun bits hbits => ?_⟩
    exact (hsent hi bits hbits).imp fun t ⟨l, ht⟩ => ⟨l, by rwa [hd] at ht⟩
  case left =>
    have hi (v : Bool) : IsShift (.shrShiftLSerial x (some v)) x p (some v) := isShift_form x (some v) hd hf
    refine ⟨(hi bit).completes_val_left clk hx hw hpos hd (hin .left), fun bits hbits => ?_⟩
    exact (hsent hi bits hbits).imp fun t ⟨l, ht⟩ => ⟨l, by rwa [hd] at ht⟩

/-- Settles O35: the incoming bit is the outgoing one. -/
theorem ringFillRotates : Obligations.RingFillRotates := by
  intro s x p b serialIn clk hx hw hpos hf
  have hin (d : Dir) : incoming p.fill serialIn (outgoing d b.cells) = some (outgoing d b.cells) := by
    rw [hf, incoming]
  refine ⟨fun hd => ?right, fun hd => ?left⟩
  case right =>
    rw [← toNat_outgoing_right]
    exact (isShift_form x serialIn hd hf).completes_val_right clk hx hw hpos hd (hin .right)
  case left =>
    rw [← toNat_outgoing_left hw hpos]
    exact (isShift_form x serialIn hd hf).completes_val_left clk hx hw hpos hd (hin .left)

/-- Settles O36: the incoming bit is the complement of the outgoing one. -/
theorem johnsonFillFeedsBackTheComplement : Obligations.JohnsonFillFeedsBackTheComplement := by
  intro s x p b serialIn clk hx hw hpos hf
  have hin (d : Dir) : incoming p.fill serialIn (outgoing d b.cells) = some (!outgoing d b.cells) := by
    rw [hf, incoming]
  refine ⟨fun hd => ?right, fun hd => ?left⟩
  case right =>
    rw [← toNat_outgoing_right, ← toNat_not]
    exact (isShift_form x serialIn hd hf).completes_val_right clk hx hw hpos hd (hin .right)
  case left =>
    rw [← toNat_outgoing_left hw hpos, ← toNat_not]
    exact (isShift_form x serialIn hd hf).completes_val_left clk hx hw hpos hd (hin .left)

/-- Settles O37: the pulses rotate the cells, which moves no one in or out, and a full turn moves nothing. -/
theorem ringShiftsReturnAfterWidthPulses : Obligations.RingShiftsReturnAfterWidthPulses := by
  intro s x p b c hx hw hpos hf
  have hlen : (exitOrder p.dir b.cells).length = p.width := (length_exitOrder _ _).trans hw
  have hturn (n : Nat) := (isShift_whole x p none).runCompletes_ring c n hf (hlen.symm ▸ hpos) (shiftsOut_of_find hx)
  refine ⟨fun n => (hturn n).imp fun t ⟨l, ht⟩ => ⟨_, l, ht, ?count⟩,
    (hturn p.width).imp fun t ⟨l, ht⟩ => ⟨l, ?back⟩⟩
  case count =>
    exact (((exitOrder_perm _ _).trans (List.rotate_perm _ n)).trans (exitOrder_perm _ _)).count_eq true
  case back => rwa [← hlen, List.rotate_length, exitOrder_exitOrder] at ht

/-- Settles O38: the cells of the ring counter are those of `INIT` turned by `n` places. -/
theorem ringCounterWalksOneBit : Obligations.RingCounterWalksOneBit := by
  intro s x w n c hw
  have hi (d : Dir) : IsShift (shiftForm x d .ring none) x (shiftTuple w d .ring (some 1)) none :=
    isShift_form x none rfl rfl
  exact ⟨runCompletes_new_ring (hi .left) hw (val_ring_left hw n),
    runCompletes_new_ring (hi .right) hw (val_ring_right hw n)⟩

/-- Settles O39: every cell that leaves comes back as its complement. -/
theorem johnsonShiftsComplementAfterWidthPulses : Obligations.JohnsonShiftsComplementAfterWidthPulses := by
  intro s x p b c hx hw _ hf
  have hi := isShift_whole x p none
  have hlen : (exitOrder p.dir b.cells).length = p.width := (length_exitOrder _ _).trans hw
  have hhalf := hi.runCompletes_johnson_all c hf hlen (shiftsOut_of_find hx)
  refine ⟨hhalf.imp fun t ⟨l, ht⟩ => ⟨l, ?complement⟩, ?back⟩
  case complement => rwa [exitOrder_map, exitOrder_exitOrder] at ht
  case back =>
    rw [two_mul, times_add]
    refine runCompletes_append.2 (hhalf.imp fun t ht => ?_)
    refine (hi.runCompletes_johnson_all c hf (by simpa using hlen) ht).imp fun u ⟨l, hu⟩ => ⟨l, ?_⟩
    rwa [List.map_map, Bool.involutive_not.comp_self, List.map_id, exitOrder_exitOrder] at hu

/-- Settles O40: `johnsonCells` has the values claimed in either direction, and no two of its first `2W` are equal. -/
theorem johnsonCounterCycleFromZero : Obligations.JohnsonCounterCycleFromZero := by
  intro s x w n c hw hn
  have hi (d : Dir) : IsShift (shiftForm x d .johnson none) x (shiftTuple w d .johnson none) none :=
    isShift_form x none rfl rfl
  exact ⟨runCompletes_new_johnson (hi .left) hw hn (val_johnsonCells_left hn),
    fun m hm t u ht hu => new_johnson_reads_ne (hi .left) hw hn hm ht hu,
    runCompletes_new_johnson (hi .right) hw hn val_johnsonCells_right,
    fun m hm t u ht hu => new_johnson_reads_ne (hi .right) hw hn hm ht hu⟩

/-- Settles O41: the bit next to leave is the one that stands as many places behind the first as bits were sent. -/
theorem serialShiftIsADelayLine : Obligations.SerialShiftIsADelayLine := by
  intro s x p b c bits hx hw hpos hf
  have hlen : (exitOrder p.dir b.cells).length = p.width := (length_exitOrder _ _).trans hw
  have hrun := IsShift.runCompletes_serial (fun v => isShift_whole x p (some v)) c bits hf (hlen.symm ▸ hpos)
    (shiftsOut_of_find hx)
  refine (runCompletes_append_shrSout hrun).imp fun t ht => ht.trans (congrArg Reply.bit ?_)
  rw [headD_drop_append bits hlen]
  split
  · rfl
  · next hlt => exact getD_exitOrder p.dir hw (Nat.not_le.1 hlt)

/-- Settles O42: the cells of the value are its bits. -/
theorem shiftRegisterLoadsAndHolds : Obligations.ShiftRegisterLoadsAndHolds := by
  intro s x p b value clk hx hv
  rw [← cellsOf_eq_map_testBit]
  exact ⟨completes_shrLoad clk hx hv, completes_shrLhold clk hx hv⟩

end Sys2Proof.Machine
end

section
/-! PROOFS. The Counter family: the tick of a stage chain, the count after pulses in either direction, and a run of any
ticks on a new Counter. The laws about the model come first, then the proofs that use them. -/

namespace Sys2Proof.Machine

/-! ### The count after several steps -/

theorem nextCount_nextCount {m n : Nat} (d d' : CountDir) :
    nextCount m d' (nextCount m d n) = (n + (countDelta m d + countDelta m d')) % m := by
  rw [nextCount, nextCount, Nat.mod_add_mod, Nat.add_assoc]

/-- One up and one down are a whole turn (45_counter.md R218). -/
theorem countDelta_up_add_down {m : Nat} (hm : 0 < m) : countDelta m .up + countDelta m .down = m :=
  Nat.add_sub_cancel' hm

theorem nextCount_down_up {m n : Nat} (h : n < m) : nextCount m .down (nextCount m .up n) = n := by
  rw [nextCount_nextCount, countDelta_up_add_down (Nat.zero_lt_of_lt h), Nat.add_mod_right, Nat.mod_eq_of_lt h]

theorem nextCount_up_down {m n : Nat} (h : n < m) : nextCount m .up (nextCount m .down n) = n := by
  rw [nextCount_nextCount, Nat.add_comm (countDelta m .down), countDelta_up_add_down (Nat.zero_lt_of_lt h),
    Nat.add_mod_right, Nat.mod_eq_of_lt h]

/-- `k` steps in one direction add its increment `k` times (45_counter.md R217). -/
theorem iterate_nextCount {m n : Nat} (d : CountDir) (k : Nat) (h : n < m) :
    (nextCount m d)^[k] n = (n + k * countDelta m d) % m := by
  induction k with
  | zero => rw [Function.iterate_zero_apply, Nat.zero_mul, Nat.add_zero, Nat.mod_eq_of_lt h]
  | succ k ih => rw [Function.iterate_succ_apply', ih, nextCount, Nat.mod_add_mod, Nat.add_assoc, Nat.succ_mul]

/-- On the integers, to add `M - 1` is to take 1 away modulo `M` (45_counter.md R217). -/
theorem natCast_add_mul_pred_mod {m : Nat} (a k : Nat) (hm : 0 < m) :
    (((a + k * (m - 1)) % m : Nat) : Int) = ((a : Int) - k) % (m : Int) := by
  have hturns : (a : Int) + k * ((m : Int) - 1) = a - k + k * m := by ring
  rw [Int.natCast_mod, Nat.cast_add, Nat.cast_mul, Nat.cast_pred hm, hturns, Int.add_mul_emod_self_right]

/-! ### The tick of a stage chain -/

/-- The first stage line is the one that samples the external clock (10_state.md R29). -/
theorem head?_of_counterOk {p : CounterParams} {cells : List Bool} {lines : List ClockLine}
    (h : counterOk p (.chained cells lines) = true) :
    lines.head? = some (externalLine (.chained cells lines)) := by
  obtain ⟨l, ls, rfl, -, -⟩ := lines_of_counterOk h
  rfl

/-- Where `STYLE` and `MOD` ask for the chain, a Counter has one (10_state.md R29). -/
theorem exists_chained_of_counterOk {p : CounterParams} {c : CounterState} (hp : isChained p = true)
    (h : counterOk p c = true) : ∃ cells lines, c = .chained cells lines := by
  cases c with
  | paired n l =>
    obtain ⟨-, hpair, -⟩ := counterOk_paired.1 h
    cases hp.symm.trans hpair
  | chained cells lines => exact ⟨cells, lines, rfl⟩

/-- A tick leaves a settled chain settled, its first line at the sample, and its cells at the count of the synchronous
rule (45_counter.md R223). -/
theorem completes_chained_tick {i : Instr} {s : State} {x : Inst} {p : CounterParams} {cells : List Bool}
    {lines : List ClockLine} {l : ClockLine} {direction : Option CountDir} {clk : Bool}
    (hi : exec i s = tickStep x direction clk s) (hx : s.find x = some (.counter p (.chained cells lines)))
    (hc : counterOk p (.chained cells lines) = true) (hl : lines.head? = some l) :
    Completes i s (fun t => ∃ cells' lines',
      CallDone s x (.counter p (.chained cells' lines')) .ok t ∧ counterOk p (.chained cells' lines') = true ∧
      lines'.head? = some (lineAfter l clk) ∧
      val cells' = if rises l clk then nextCount (2 ^ p.width) (tickDir p direction) (val cells) else val cells) := by
  obtain ⟨-, hp, -, -, -⟩ := counterOk_chained.1 hc
  obtain rfl : externalLine (.chained cells lines) = l := Option.some.inj ((head?_of_counterOk hc).symm.trans hl)
  rw [← effectiveModulus_of_isChained hp]
  refine (completes_tickStep hi hx hc).imp fun t ⟨c', hdone, hc', hline, hcount⟩ => ?_
  obtain ⟨cells', lines', rfl⟩ := exists_chained_of_counterOk hp hc'
  exact ⟨cells', lines', hdone, hc', hline ▸ head?_of_counterOk hc', hcount⟩

/-! ### Pulses of a Counter -/

/-- `i` is the `tick` of the Counter `x` in one direction, or in none, as a function of the clock sample. -/
structure IsTick (i : Bool → Instr) (x : Inst) (direction : Option CountDir) : Prop where
  pulse_eq : ∀ c, pulse (i c) = [i false, i true]
  exec_eq : ∀ clk s, exec (i clk) s = tickStep x direction clk s

theorem isTick_cntTick (x : Inst) : IsTick (.cntTick x) x none := ⟨fun _ => rfl, fun _ _ => rfl⟩

theorem isTick_cntTickup (x : Inst) : IsTick (.cntTickup x) x (some .up) := ⟨fun _ => rfl, fun _ _ => rfl⟩

theorem isTick_cntTickdn (x : Inst) : IsTick (.cntTickdn x) x (some .down) := ⟨fun _ => rfl, fun _ _ => rfl⟩

/-- `x` is a Counter with parameters `p`, as the spec allows it, whose count is `n`, whatever its lines hold. -/
def Counts (x : Inst) (p : CounterParams) (n : Nat) (t : State) : Prop :=
  ∃ c, t.find x = some (.counter p c) ∧ counterOk p c = true ∧ countOf c = n

section
variable {i : Bool → Instr} {s : State} {x : Inst} {p : CounterParams} {direction : Option CountDir} {n : Nat}

theorem counts_of_find {c : CounterState} (hx : s.find x = some (.counter p c)) (hc : counterOk p c = true) :
    Counts x p (countOf c) s :=
  ⟨c, hx, hc, rfl⟩

/-- A run that ends in `CNT.READ` replies the count it leaves. -/
theorem runCompletes_counts_read {is : List Instr} (h : RunCompletes is s (Counts x p n)) :
    RunCompletes (is ++ [.cntRead x]) s (fun t => t.reply = .word n) :=
  runCompletes_append_cntRead (h.imp fun _ ⟨c, hx, _, hn⟩ => ⟨p, c, hx, hn⟩)

/-- One pulse counts once: its high call finds the line low (45_counter.md R212). -/
theorem IsTick.runCompletes_pulse (h : IsTick i x direction) (clk : Bool) (hn : Counts x p n s) :
    RunCompletes (pulse (i clk)) s (Counts x p (nextCount (effectiveModulus p) (tickDir p direction) n)) := by
  obtain ⟨c, hx, hc, rfl⟩ := hn
  rw [h.pulse_eq]
  refine runCompletes_cons.2
    ((completes_tickStep (h.exec_eq false s) hx hc).imp fun t ⟨c₁, hlow, hc₁, hline₁, hcount₁⟩ => ?_)
  refine runCompletes_cons.2
    ((completes_tickStep (h.exec_eq true t) hlow.elem hc₁).imp fun u ⟨c₂, hhigh, hc₂, _, hcount₂⟩ => ?_)
  rw [rises_low, if_neg Bool.false_ne_true] at hcount₁
  rw [hline₁, rises_after_low, if_pos rfl, hcount₁] at hcount₂
  exact runCompletes_nil.2 ⟨c₂, hhigh.elem, hc₂, hcount₂⟩

theorem IsTick.runCompletes_pulses (h : IsTick i x direction) (clk : Bool) (k : Nat) (hn : Counts x p n s) :
    RunCompletes (times k (pulse (i clk))) s
      (Counts x p ((nextCount (effectiveModulus p) (tickDir p direction))^[k] n)) :=
  runCompletes_times (fun _ _ => h.runCompletes_pulse clk) k hn

/-- The read after `k` pulses in one direction (45_counter.md R217). -/
theorem IsTick.runCompletes_pulses_read (h : IsTick i x direction) (clk : Bool) (k : Nat) (hn : Counts x p n s)
    (hlt : n < effectiveModulus p) :
    RunCompletes (times k (pulse (i clk)) ++ [.cntRead x]) s (fun t => t.reply =
      .word ((n + k * countDelta (effectiveModulus p) (tickDir p direction)) % effectiveModulus p)) := by
  rw [← iterate_nextCount _ k hlt]
  exact runCompletes_counts_read (h.runCompletes_pulses clk k hn)

/-- `M` pulses in one direction are whole turns, however much each of them adds (45_counter.md R217). -/
theorem IsTick.runCompletes_modulus_pulses_read (h : IsTick i x direction) (clk : Bool) (hn : Counts x p n s)
    (hlt : n < effectiveModulus p) :
    RunCompletes (times (effectiveModulus p) (pulse (i clk)) ++ [.cntRead x]) s (fun t => t.reply = .word n) := by
  simpa only [Nat.add_mul_mod_self_left, Nat.mod_eq_of_lt hlt] using
    h.runCompletes_pulses_read clk (effectiveModulus p) hn hlt

/-- The read after a pulse in one direction and a pulse in another. -/
theorem IsTick.runCompletes_pulse_pulse_read {j : Bool → Instr} {direction' : Option CountDir}
    (hi : IsTick i x direction) (hj : IsTick j x direction') (clk : Bool) (hn : Counts x p n s) :
    RunCompletes (pulse (i clk) ++ pulse (j clk) ++ [.cntRead x]) s (fun t => t.reply =
      .word (nextCount (effectiveModulus p) (tickDir p direction')
        (nextCount (effectiveModulus p) (tickDir p direction) n))) :=
  runCompletes_counts_read
    (runCompletes_append.2 ((hi.runCompletes_pulse clk hn).imp fun _ => hj.runCompletes_pulse clk))

end

/-! ### Any ticks -/

/-- The count after a sequence of ticks under modulus `m` and default direction `d`, by the synchronous rule, from a
Counter that counts `n` and whose external line is `l` (45_counter.md R211, R212). -/
def countAfter (m : Nat) (d : CountDir) (l : ClockLine) (n : Nat) (ticks : List (Option CountDir × Bool)) : Nat :=
  match ticks with
  | [] => n
  | (direction, clk) :: r =>
    countAfter m d (lineAfter l clk) (if rises l clk then nextCount m (direction.getD d) n else n) r

/-- Ticks leave the count of the synchronous rule in either representation (45_counter.md R222). -/
theorem runCompletes_ticks {x : Inst} {p : CounterParams} {call : Option CountDir × Bool → Instr}
    (hcall : ∀ k s, exec (call k) s = tickStep x k.1 k.2 s) (ticks : List (Option CountDir × Bool)) {s : State}
    {c : CounterState} (hx : s.find x = some (.counter p c)) (hc : counterOk p c = true) :
    RunCompletes (ticks.map call) s
      (Counts x p (countAfter (effectiveModulus p) p.defaultDir (externalLine c) (countOf c) ticks)) := by
  induction ticks generalizing s c with
  | nil => exact runCompletes_nil.2 (counts_of_find hx hc)
  | cons k r ih =>
    refine runCompletes_cons.2
      ((completes_tickStep (hcall k s) hx hc).imp fun t ⟨c', hdone, hc', hline, hcount⟩ => ?_)
    have hrest := ih hdone.elem hc'
    rwa [hline, hcount] at hrest

/-! ### A new Counter -/

/-- A new Counter counts 0 in either representation (45_counter.md R210). -/
theorem countOf_newCounterState (p : CounterParams) : countOf (newCounterState p) = 0 := by
  unfold newCounterState
  split
  · exact val_replicate_false p.width
  · rfl

/-- The external line of a new Counter is low in either representation (45_counter.md R210). -/
theorem externalLine_newCounterState (p : CounterParams) : externalLine (newCounterState p) = ClockLine.new := by
  unfold newCounterState
  split
  · cases hw : p.width <;> simp [externalLine, List.replicate_succ]
  · rfl

section
variable {s : State} {x : Inst} {w : Nat} {m : Option Nat} {d : Option CountDir} {y : Option Style}

/-- `CNT.NEW` with a legal tuple (45_counter.md R210). -/
theorem completes_cntNew (hw : 1 ≤ w) (hm : ∀ k, m = some k → 1 ≤ k ∧ k ≤ 2 ^ w) :
    Completes (.cntNew x w m d y) s
      (CallDone s x (.counter (counterTuple w m d y) (newCounterState (counterTuple w m d y))) .ok) :=
  completes_construct rfl (counterLegal_tuple hw hm)

theorem completes_cntNew_counts (hw : 1 ≤ w) (hm : ∀ k, m = some k → 1 ≤ k ∧ k ≤ 2 ^ w) :
    Completes (.cntNew x w m d y) s (Counts x (counterTuple w m d y) 0) :=
  (completes_cntNew hw hm).imp fun _ hnew =>
    ⟨_, hnew.elem, counterOk_new (counterLegal_tuple hw hm), countOf_newCounterState _⟩

/-- A new Counter of any style reads after ticks what the synchronous rule makes of 0 (45_counter.md R222). -/
theorem runCompletes_new_ticks_read {call : Option CountDir × Bool → Instr}
    (hcall : ∀ k s, exec (call k) s = tickStep x k.1 k.2 s) (ticks : List (Option CountDir × Bool)) (hw : 1 ≤ w)
    (hm : ∀ k, m = some k → 1 ≤ k ∧ k ≤ 2 ^ w) :
    RunCompletes (.cntNew x w m d y :: (ticks.map call ++ [.cntRead x])) s (fun t => t.reply =
      .word (countAfter (m.getD (2 ^ w)) (d.getD Config.defaultDir) ClockLine.new 0 ticks)) := by
  refine runCompletes_cons.2 ((completes_cntNew hw hm).imp fun t hnew => ?_)
  have hticks := runCompletes_ticks hcall ticks hnew.elem (counterOk_new (counterLegal_tuple hw hm))
  rw [externalLine_newCounterState, countOf_newCounterState] at hticks
  exact runCompletes_counts_read hticks

end

/-! ### The statements of the family -/

/-- Settles O44: a chain ticks as every Counter does, its modulus is `2 ^ W`, and what the tick leaves is a chain. -/
theorem rippleSettleComputesTheSynchronousResult : Obligations.RippleSettleComputesTheSynchronousResult := by
  intro s x p cells lines clk l hx hc hl
  exact ⟨completes_chained_tick (direction := some .up) rfl hx hc hl,
    completes_chained_tick (direction := some .down) rfl hx hc hl⟩

/-- Settles O45: the count a new Counter reads after ticks does not depend on its style. -/
theorem rippleReadsAsSynchronous : Obligations.RippleReadsAsSynchronous := by
  intro s x w m d ticks hw hm calls
  refine ⟨_, runCompletes_new_ticks_read ?tick ticks hw hm, runCompletes_new_ticks_read ?tick ticks hw hm⟩
  rintro ⟨direction, clk⟩ t
  cases direction with
  | none => rfl
  | some direction => cases direction <;> rfl

/-- Settles O46: the pulses add their increment as often as there are pulses. -/
theorem counterWrapsAround : Obligations.CounterWrapsAround := by
  intro s x p c n clk hx hc
  have hcounts := counts_of_find hx hc
  have hlt := countOf_lt hc
  have hup := isTick_cntTickup x
  have hdown := isTick_cntTickdn x
  refine ⟨?up, hdown.runCompletes_pulses_read clk n hcounts hlt,
    natCast_add_mul_pred_mod _ n (Nat.zero_lt_of_lt hlt), hup.runCompletes_modulus_pulses_read clk hcounts hlt,
    hdown.runCompletes_modulus_pulses_read clk hcounts hlt⟩
  case up => simpa only [tickDir, Option.getD_some, countDelta, Nat.mul_one] using
    hup.runCompletes_pulses_read clk n hcounts hlt

/-- Settles O47: a step up and a step down, in either order, add a whole turn to the count. -/
theorem upThenDownRestoresTheCount : Obligations.UpThenDownRestoresTheCount := by
  intro s x p c clk hx hc
  have hcounts := counts_of_find hx hc
  have hup := isTick_cntTickup x
  have hdown := isTick_cntTickdn x
  refine ⟨?upDown, ?downUp⟩
  case upDown =>
    have hread := hup.runCompletes_pulse_pulse_read hdown clk hcounts
    rwa [tickDir, tickDir, Option.getD_some, Option.getD_some, nextCount_down_up (countOf_lt hc)] at hread
  case downUp =>
    have hread := hdown.runCompletes_pulse_pulse_read hup clk hcounts
    rwa [tickDir, tickDir, Option.getD_some, Option.getD_some, nextCount_up_down (countOf_lt hc)] at hread

/-- Settles O48: the modulus of the new Counter is 16, its default direction is up, and it starts from 0. -/
theorem fourBitCounterGoldenVector : Obligations.FourBitCounterGoldenVector := by
  intro s x k clk
  refine runCompletes_cons.2 ((completes_cntNew_counts (m := none) (by decide) nofun).imp fun t hcounts => ?_)
  have hread := (isTick_cntTick x).runCompletes_pulses_read clk k hcounts (by decide)
  have hmodulus : effectiveModulus (counterTuple 4 none none none) = 16 := rfl
  have hdir : tickDir (counterTuple 4 none none none) none = .up := rfl
  rwa [hmodulus, hdir, countDelta, Nat.mul_one, Nat.zero_add] at hread

end Sys2Proof.Machine
end

section
/-! PROOFS. The RegisterFile family: a write in range and outside, what it leaves in every slot, and what a read finds
after a write pulse. The laws about the model come first, then the proofs that use them. -/

namespace Sys2Proof.Machine

/-! ### A call on the slots of a file -/

/-- The call in the terms of the claims (46_register_file.md R243). -/
theorem fileState_clocked_eq (f : FileState) (clk : Bool) (u : Memory → Memory) :
    f.clocked clk u = ⟨if rises f.clkLine clk then u f.slots else f.slots, lineAfter f.clkLine clk⟩ := by
  rw [FileState.clocked, onRising_rises, sampled_eq]

/-- A call that does not trigger, or whose update keeps the slots, only samples the clock. -/
theorem fileState_clocked_kept {f : FileState} {clk : Bool} {u : Memory → Memory}
    (h : rises f.clkLine clk = true → u f.slots = f.slots) : f.clocked clk u = ⟨f.slots, lineAfter f.clkLine clk⟩ := by
  rw [fileState_clocked_eq, ite_eq_right_iff.2 h]

/-- A low call and then a high call update the slots once, as the high call says (46_register_file.md R243). -/
theorem fileState_clocked_low_high_slots (f : FileState) (u v : Memory → Memory) :
    ((f.clocked false u).clocked true v).slots = v f.slots := by
  simp

section
variable {p : FileParams} {index : Nat}

theorem writeSlots_disabled (value : Word) (m : Memory) : writeSlots p index value false m = m :=
  if_neg fun h => Bool.false_ne_true h.1

/-- A write to the zero index is discarded (46_register_file.md R244). -/
theorem writeSlots_zeroIndex (value : Word) (enable : Bool) (m : Memory) (hz : p.zeroIndex = some index) :
    writeSlots p index value enable m = m :=
  if_neg fun h => h.2 hz

theorem writeSlots_slot (value : Word) (m : Memory) (hz : p.zeroIndex ≠ some index) :
    writeSlots p index value true m = Memory.write m index value :=
  if_pos ⟨rfl, hz⟩

/-- Every slot after an enabled write that triggers (46_register_file.md R243, R244). -/
theorem read_writeSlots (value : Word) (m : Memory) (i : Nat) :
    Memory.read (writeSlots p index value true m) i =
      if i = index ∧ p.zeroIndex ≠ some index then value else Memory.read m i := by
  by_cases hz : p.zeroIndex = some index
  · rw [writeSlots_zeroIndex value true m hz, if_neg fun h => h.2 hz]
  · simp only [writeSlots_slot value m hz, read_write, hz, ne_eq, not_false_eq_true, and_true]

/-- A read depends on no slot but its own. -/
theorem fileRead_congr {f g : FileState} (h : Memory.read g.slots index = Memory.read f.slots index) :
    fileRead p g index = fileRead p f index := by
  rw [fileRead, fileRead, h]

end

/-! ### The write -/

section
variable {i : Instr} {s t : State} {x : Inst} {p : FileParams} {f : FileState} {index : Nat} {value : Word}
  {enable clk : Bool}

/-- A write in range ends in `Ok` (46_register_file.md R243). -/
theorem completes_writeStep (hi : exec i s = writeStep x index value enable clk s)
    (hx : s.find x = some (.registerFile p f)) (hin : index < p.slots) (hv : value < 2 ^ p.wordWidth) :
    Completes i s (CallDone s x (.registerFile p (f.clocked clk (writeSlots p index value enable))) .ok) := by
  refine completes_commit (hi.trans ?_)
  rw [writeStep, withElem_some hx (asFile_registerFile p f), presented_fits hv, if_neg (Nat.not_le.2 hin)]

/-- A write in range that does not trigger, or whose update keeps the slots, only samples the clock. -/
theorem completes_writeStep_kept (hi : exec i s = writeStep x index value enable clk s)
    (hx : s.find x = some (.registerFile p f)) (hin : index < p.slots) (hv : value < 2 ^ p.wordWidth)
    (hkept : rises f.clkLine clk = true → writeSlots p index value enable f.slots = f.slots) :
    Completes i s (CallDone s x (.registerFile p ⟨f.slots, lineAfter f.clkLine clk⟩) .ok) := by
  rw [← fileState_clocked_kept hkept]
  exact completes_writeStep hi hx hin hv

/-- A write outside the file raises before anything is sampled, and `werr` shows it (46_register_file.md R243). -/
theorem completes_writeStep_outside (hi : exec i s = writeStep x index value enable clk s)
    (hx : s.find x = some (.registerFile p f)) (hout : p.slots ≤ index) (hv : value < 2 ^ p.wordWidth) :
    Completes i s (fun t => CallRaised s x .indexOutOfBounds t ∧ werrPort t x = some 2) := by
  have hraise : exec i s = raise x .indexOutOfBounds s := by
    rw [hi, writeStep, withElem_some hx (asFile_registerFile p f), presented_fits hv, if_pos hout]
  refine (completes_raise hraise).imp fun t hraised => ⟨hraised, ?werr⟩
  case werr => rw [werrPort_registerFile ((hraised.find x).trans hx), hraised.err, errorCode]

/-- Everything a write can do when it answers a next state: it is done, or its index is outside the file. -/
theorem writeStep_next (hi : exec i s = writeStep x index value enable clk s) (h : exec i s = .next t) :
    ∃ p f, s.find x = some (.registerFile p f) ∧
      (CallDone s x (.registerFile p (f.clocked clk (writeSlots p index value enable))) .ok t ∨
        CallRaised s x .indexOutOfBounds t) := by
  obtain ⟨e, ⟨p, f⟩, hx, hfile, hrun⟩ := withElem_next (hi.symm.trans h)
  obtain rfl := asFile_eq_some hfile
  obtain ⟨hv, -⟩ := presented_next hrun
  refine ⟨p, f, hx, ?_⟩
  rcases Nat.lt_or_ge index p.slots with hin | hout
  · exact .inl ((completes_writeStep hi hx hin hv).of_next h)
  · exact .inr ((completes_writeStep_outside hi hx hout hv).of_next h).1

/-- After a write that ended in `Ok` the line of the file holds its clock sample, whatever the index was
(46_register_file.md R243, R244). -/
theorem current_of_writeStep_ok (hi : exec i s = writeStep x index value enable clk s) (h : exec i s = .next t)
    (hok : t.reply = .ok) (hx : t.find x = some (.registerFile p f)) : f.clkLine.current = clk := by
  obtain ⟨p', f', -, hdone | hraised⟩ := writeStep_next hi h
  · obtain ⟨-, rfl⟩ := Element.registerFile.inj (Option.some.inj (hx.symm.trans hdone.elem))
    rfl
  · cases hok.symm.trans hraised.reply

/-- One write pulse updates the slots once: its high call finds the line low (46_register_file.md R248 (a)). -/
theorem runCompletes_pulse_rfWrite (c : Bool) (hx : s.find x = some (.registerFile p f)) (hin : index < p.slots)
    (hv : value < 2 ^ p.wordWidth) :
    RunCompletes (pulse (.rfWrite x index value c)) s (fun t =>
      ∃ g, t.find x = some (.registerFile p g) ∧ g.slots = writeSlots p index value true f.slots) := by
  refine runCompletes_cons.2 ((completes_writeStep (clk := false) rfl hx hin hv).imp fun t hlow => ?_)
  refine runCompletes_cons.2 ((completes_writeStep (clk := true) rfl hlow.elem hin hv).imp fun u hhigh => ?_)
  exact runCompletes_nil.2 ⟨_, hhigh.elem, fileState_clocked_low_high_slots f _ _⟩

/-- A run that ends in `RF.READ` replies what the file it leaves holds (46_register_file.md R247). -/
theorem runCompletes_append_rfRead {is : List Instr} {r : Except ErrorKind Word}
    (h : RunCompletes is s (fun t => ∃ g, t.find x = some (.registerFile p g) ∧ fileRead p g index = r)) :
    RunCompletes (is ++ [.rfRead x index]) s (fun t => t.reply = readReply r) :=
  runCompletes_append.2 (h.imp fun _ ⟨_, hg, hread⟩ =>
    runCompletes_cons.2 ⟨_, exec_rfRead hg hread, runCompletes_nil.2 rfl⟩)

/-- Any sequence of writes to the zero index keeps the slots and leaves the line at its last sample
(46_register_file.md R244). -/
theorem runCompletes_zeroIndex_writes (calls : List (Word × Bool)) (hcalls : ∀ c ∈ calls, c.1 < 2 ^ p.wordWidth)
    (hx : s.find x = some (.registerFile p f)) (hz : p.zeroIndex = some index) (hin : index < p.slots) :
    RunCompletes (calls.map (fun c => .rfWrite x index c.1 c.2)) s (fun t =>
      ∃ l, t.find x = some (.registerFile p ⟨f.slots, l⟩) ∧
        l.current = (calls.getLast?.map (·.2)).getD f.clkLine.current) := by
  induction calls generalizing s f with
  | nil => exact runCompletes_nil.2 ⟨f.clkLine, hx, rfl⟩
  | cons c r ih =>
    obtain ⟨hc, hr⟩ := List.forall_mem_cons.1 hcalls
    have hwrite := completes_writeStep_kept (i := .rfWrite x index c.1 c.2) rfl hx hin hc
      fun _ => writeSlots_zeroIndex c.1 true f.slots hz
    refine runCompletes_cons.2 (hwrite.imp fun t hdone => ?_)
    refine (ih hr hdone.elem).imp fun u ⟨l, hl, hcurrent⟩ => ⟨l, hl, ?line⟩
    case line =>
      rw [hcurrent, lineAfter, List.getLast?_cons, Option.map_some, Option.getD_some, Option.getD_map]

end

/-! ### The statements of the family -/

/-- Settles O49: an enabled write that triggers changes the slot it names, and a disabled one keeps the slots. -/
theorem writeChangesOnlyTheNamedSlot : Obligations.WriteChangesOnlyTheNamedSlot := by
  intro s x p f index value clk hx hin hv
  refine ⟨(completes_writeStep rfl hx hin hv).imp fun t hdone => ⟨_, hdone, rfl, fun i => ?slots⟩, ?hold⟩
  case slots =>
    rw [fileState_clocked_eq]
    cases hrises : rises f.clkLine clk with
    | false => simp
    | true => simpa using read_writeSlots value f.slots i
  case hold => exact completes_writeStep_kept rfl hx hin hv fun _ => writeSlots_disabled value f.slots

/-- Settles O52: the pulse writes the named slot once, and the slot of another index is read as before. -/
theorem readAfterWritePulse : Obligations.ReadAfterWritePulse := by
  intro s x p f index j value c hx hin hz hv
  have hpulse := runCompletes_pulse_rfWrite c hx hin hv
  refine ⟨runCompletes_append_rfRead (r := .ok value) (hpulse.imp fun t ⟨g, hg, hslots⟩ => ⟨g, hg, ?same⟩), ?other⟩
  case same => rw [fileRead_slot hin hz, hslots, read_writeSlots, if_pos ⟨rfl, hz⟩]
  case other =>
    rintro hj _ ⟨u, hu, rfl⟩
    cases (exec_rfRead hx rfl).symm.trans hu
    refine runCompletes_append_rfRead (hpulse.imp fun t ⟨g, hg, hslots⟩ => ⟨g, hg, fileRead_congr ?_⟩)
    rw [hslots, read_writeSlots, if_neg fun h => hj h.1]

/-- Settles O53, by induction on the calls: each one keeps the slots and samples the line. -/
theorem zeroIndexWritesAreDiscarded : Obligations.ZeroIndexWritesAreDiscarded := by
  intro s x p f z calls hx hz hin hcalls
  refine (runCompletes_zeroIndex_writes calls hcalls hx hz hin).imp fun t ⟨l, hl, hcurrent⟩ => ?_
  exact ⟨l, hl, hcurrent, _, exec_rfRead hl (fileRead_zeroIndex hin hz), rfl⟩

/-- Settles O54: the first write leaves the line high, so the second does not trigger. -/
theorem heldHighClockWritesOnce : Obligations.HeldHighClockWritesOnce := by
  intro s t x i j v w p f hfirst hok hx hin hw
  have hhigh : f.clkLine.current = true := current_of_writeStep_ok rfl hfirst hok hx
  exact completes_writeStep_kept rfl hx hin hw fun hrises => by simp [rises, hhigh] at hrises

/-- Settles O50: the bounds check comes first, whatever `enable` is. -/
theorem writeOutOfRangeRaises : Obligations.WriteOutOfRangeRaises := fun _ _ _ _ _ _ _ hx hout hv =>
  ⟨completes_writeStep_outside rfl hx hout hv, completes_writeStep_outside rfl hx hout hv⟩

end Sys2Proof.Machine
end

section
/-! PROOFS. The exceptions family: what a call that returns an error leaves, and which parameter tuples are illegal. The
laws about the model come first, then the proofs that use them. -/

namespace Sys2Proof.Machine

/-! ### A call that returns an error -/

/-- An error is raised by a mutation, or told by an inspection or a failing construction (60_exceptions.md R266). -/
theorem Ends.of_error {s t : State} {x : Inst} {k : ErrorKind} (h : Ends s x t) (hk : t.reply = .error k) :
    t = s.raised x k ∨ t = s.told (.error k) := by
  cases h with
  | done e r ok => exact absurd hk (ok k)
  | raised e k' _ _ =>
    obtain rfl : k' = k := Reply.error.inj hk
    exact .inl rfl
  | told r =>
    obtain rfl : r = .error k := hk
    exact .inr rfl

/-! ### Illegal parameter tuples -/

theorem registerLegal_zero : registerLegal 0 = false := rfl

theorem shiftLegal_tuple_eq_false {w : Nat} {d : Dir} {p : Fill} {init : Option Word}
    (h : w = 0 ∨ ∃ v, init = some v ∧ 2 ^ w ≤ v) : shiftLegal (shiftTuple w d p init) = false := by
  rcases h with rfl | ⟨v, rfl, hv⟩
  · rfl
  · simp [shiftLegal, shiftTuple, fitsIn, Nat.not_lt.2 hv]

theorem modulusLegal_eq_false {w m : Nat} (h : m = 0 ∨ 2 ^ w < m) : modulusLegal w (some m) = false := by
  rcases h with rfl | hm
  · rfl
  · simp [modulusLegal, Nat.not_le.2 hm]

theorem counterLegal_tuple_eq_false {w : Nat} {m : Option Nat} {d : Option CountDir} {y : Option Style}
    (h : w = 0 ∨ m = some 0 ∨ ∃ k, m = some k ∧ 2 ^ w < k) : counterLegal (counterTuple w m d y) = false := by
  rcases h with rfl | rfl | ⟨k, rfl, hk⟩
  · rfl
  · simp [counterLegal, counterTuple, modulusLegal_eq_false (.inl rfl)]
  · simp [counterLegal, counterTuple, modulusLegal_eq_false (.inr hk)]

theorem fileLegal_tuple_eq_false {n : Nat} {z w r : Option Nat}
    (h : n = 0 ∨ (∃ k, z = some k ∧ n ≤ k) ∨ w = some 0 ∨ r = some 0) : fileLegal (fileTuple n z w r) = false := by
  rcases h with rfl | ⟨k, rfl, hk⟩ | rfl | rfl
  · rfl
  · simp [fileLegal, fileTuple, zeroIndexLegal, Nat.not_lt.2 hk]
  · simp [fileLegal, fileTuple]
  · simp [fileLegal, fileTuple]

theorem exec_regNew (x : Inst) (w : Nat) (s : State) :
    exec (.regNew x w) s = construct x (registerLegal w) (.register w (newRegisterBank w)) s := rfl

/-- An operation that is a construction with an illegal tuple changes the reply alone (60_exceptions.md R263). -/
theorem exec_eq_of_construct_illegal {i : Instr} {s : State} {x : Inst} {legal : Bool} {e : Element}
    (h : exec i s = construct x legal e s) (hl : legal = false) :
    exec i s = .next { s with reply := .error .invalidConfiguration } := by
  subst hl
  exact h.trans (construct_illegal x e s)

/-! ### The statements of the family -/

/-- Settles O55: of the three ways a call ends, the two that return an error keep the elements and the calls. -/
theorem errorsChangeNoInstance : Obligations.ErrorsChangeNoInstance := by
  intro i s t k h hk
  rcases (exec_next h).of_error hk with rfl | rfl
  · exact ⟨raised_elems s i.inst k, raised_calls s i.inst k⟩
  · exact ⟨told_elems s (.error k), told_calls s (.error k)⟩

/-- Settles O12: every construction is `construct` of its tuple's legality, and each cause makes the tuple illegal. -/
theorem illegalTuplesMakeNothing : Obligations.IllegalTuplesMakeNothing := fun s x =>
  ⟨exec_eq_of_construct_illegal (exec_regNew x 0 s) registerLegal_zero,
    fun _ _ _ _ h => exec_eq_of_construct_illegal rfl (shiftLegal_tuple_eq_false h),
    fun _ _ _ _ h => exec_eq_of_construct_illegal rfl (counterLegal_tuple_eq_false h),
    fun _ _ _ _ h => exec_eq_of_construct_illegal rfl (fileLegal_tuple_eq_false h)⟩

end Sys2Proof.Machine
end
